-- ==== Sys2Proof/Word.lean ====
section
/-! DEFINITION. The words of the unit: the 64-bit word a value register holds, the 32-bit command word and its fields (spec/00_scope.md R5, spec/30_encoding.md R74). -/

namespace Sys2Proof

/-- A 64-bit word: the content of a value register, a data word of the interface (R5 `WORD_BITS`, R25, R70). -/
abbrev Word := BitVec 64

/-- A 32-bit command word (R5 `CMD_BITS`, R74). -/
abbrev CmdWord := BitVec 32

/-- A value register number: a 4-bit field of the command word, so always in range (R50, R53). -/
abbrev Reg := BitVec 4

/-- The unsigned 8-bit immediate (R76). -/
abbrev Imm8 := BitVec 8

end Sys2Proof
end

