-- ==== Sys2Proof/Syntax.lean ====
section
/-! DEFINITION. The 41 commands of SSAU-1, one constructor per row of the opcode map (spec/30_encoding.md R77), with the
operand fields of its form (R75). The data word of a transaction is no operand of a command word (R70): WRV takes it from
the interface. -/

namespace Sys2Proof

/-- A command, decoded. Register operands stand in the order destination first, then sources (R85). -/
inductive Instr where
  /-- WRV, opcode 0x01, form D: write the data word of the transaction to `rd` (R110). -/
  | wrv (rd : Reg)
  /-- RDV, opcode 0x02, form S: answer with the raw word of `rs1` (R111). -/
  | rdv (rs1 : Reg)
  /-- MOV, opcode 0x03, form DS: copy the raw word of `rs1` to `rd` (R112). -/
  | mov (rd rs1 : Reg)
  /-- LDC, opcode 0x04, form DI: load entry `index` of the constant ROM (R113). -/
  | ldc (rd : Reg) (index : Imm8)
  /-- NORM, opcode 0x05, form DSS: expose the normalizer on two raw integers (R101). -/
  | norm (rd rs1 rs2 : Reg)
  /-- FROMI64, opcode 0x06, form DS: signed 64-bit integer to scaled value (R120). -/
  | fromi64 (rd rs1 : Reg)
  /-- FROMI32, opcode 0x07, form DS: signed 32-bit integer (the low half of `rs1`) to scaled value (R121). -/
  | fromi32 (rd rs1 : Reg)
  /-- TOI64, opcode 0x08, form DS: scaled value to signed 64-bit integer (R122). -/
  | toi64 (rd rs1 : Reg)
  /-- TOI32, opcode 0x09, form DS: scaled value to signed 32-bit integer (R123). -/
  | toi32 (rd rs1 : Reg)
  /-- FROMF64, opcode 0x0A, form DS: binary64 pattern to scaled value (R130). -/
  | fromf64 (rd rs1 : Reg)
  /-- TOF64, opcode 0x0B, form DS: scaled value to binary64 pattern (R131). -/
  | tof64 (rd rs1 : Reg)
  /-- ADD, opcode 0x10, form DSS: sum (R140). -/
  | add (rd rs1 rs2 : Reg)
  /-- SUB, opcode 0x11, form DSS: difference (R141). -/
  | sub (rd rs1 rs2 : Reg)
  /-- MUL, opcode 0x12, form DSS: product (R145). -/
  | mul (rd rs1 rs2 : Reg)
  /-- DIV, opcode 0x13, form DSS: quotient (R150). -/
  | div (rd rs1 rs2 : Reg)
  /-- MULDIV, opcode 0x14, form DSSS: product of `rs1` and `rs2` divided by `rs3` (R155). -/
  | muldiv (rd rs1 rs2 rs3 : Reg)
  /-- DIVINT, opcode 0x15, form DSS: quotient truncated to an integer (R166). -/
  | divint (rd rs1 rs2 : Reg)
  /-- REM, opcode 0x16, form DSS: remainder of the truncated division (R167). -/
  | rem (rd rs1 rs2 : Reg)
  /-- DIVREM, opcode 0x17, form DDSS: truncated quotient to `rd`, remainder to `rd2` (R168). -/
  | divrem (rd rd2 rs1 rs2 : Reg)
  /-- NEG, opcode 0x18, form DS: negation (R170). -/
  | neg (rd rs1 : Reg)
  /-- ABS, opcode 0x19, form DS: absolute value (R171). -/
  | abs (rd rs1 : Reg)
  /-- SHL, opcode 0x1A, form DSS: multiply by a power of two, the count a raw integer (R172). -/
  | shl (rd rs1 rs2 : Reg)
  /-- SHR, opcode 0x1B, form DSS: divide by a power of two, the count a raw integer (R173). -/
  | shr (rd rs1 rs2 : Reg)
  /-- MIN, opcode 0x1C, form DSS: the lesser operand in the order of `Cmp` (R178). -/
  | min (rd rs1 rs2 : Reg)
  /-- MAX, opcode 0x1D, form DSS: the greater operand in the order of `Cmp` (R179). -/
  | max (rd rs1 rs2 : Reg)
  /-- FLOOR, opcode 0x1E, form DS: greatest integer not above the operand (R174). -/
  | floor (rd rs1 : Reg)
  /-- ROUND, opcode 0x1F, form DS: floor of the operand plus one half (R175). -/
  | round (rd rs1 : Reg)
  /-- ROUNDTO, opcode 0x20, form DSS: the stub that always raises Unimplemented (R176). -/
  | roundto (rd rs1 rs2 : Reg)
  /-- CMP, opcode 0x28, form DSS: -1, 0 or 1 by the lexicographic order (R191). -/
  | cmp (rd rs1 rs2 : Reg)
  /-- EQ, opcode 0x29, form DSS: 1 when the words are equal (R192). -/
  | eq (rd rs1 rs2 : Reg)
  /-- LT, opcode 0x2A, form DSS: 1 when below in the order of `Cmp` (R193). -/
  | lt (rd rs1 rs2 : Reg)
  /-- GT, opcode 0x2B, form DSS: 1 when above in the order of `Cmp` (R194). -/
  | gt (rd rs1 rs2 : Reg)
  /-- APPROX, opcode 0x2C, form DSSI: 1 when within the window of `bits` (R196). -/
  | approx (rd rs1 rs2 : Reg) (bits : Imm8)
  /-- LOG2, opcode 0x30, form DS: base-two logarithm (R213). -/
  | log2 (rd rs1 : Reg)
  /-- LOG2I, opcode 0x31, form DS: its integer part, a raw integer (R214). -/
  | log2i (rd rs1 : Reg)
  /-- POW2, opcode 0x32, form DS: two to the power of the operand (R223). -/
  | pow2 (rd rs1 : Reg)
  /-- POW, opcode 0x33, form DSS: `rs1` to the power of `rs2` (R240). -/
  | pow (rd rs1 rs2 : Reg)
  /-- POW10, opcode 0x34, form DS: ten to the power of a raw integer (R233). -/
  | pow10 (rd rs1 : Reg)
  /-- RDCSR, opcode 0x38, form I: answer with a control register (R251). -/
  | rdcsr (csr : Imm8)
  /-- CLRF, opcode 0x39, form N: leave the FAULTED state (R252). -/
  | clrf
  /-- NOP, opcode 0x3A, form N: nothing (R253). -/
  | nop
deriving DecidableEq, Repr

end Sys2Proof
end

