-- ==== Sys2Proof/WellFormed.lean ====
section
/-! DEFINITION. Which commands have an encoding: the immediate is in the legal set of its command (spec/30_encoding.md R76)
and the two destinations of DIVREM differ (R79, spec/41_arithmetic.md R168). Every other operand is a whole field. -/

namespace Sys2Proof

/-- The legal constant-ROM indices of LDC: 0 to 6 and 32 to 61 (R76, spec/40_codec.md R114). -/
def Imm8.legalConst (k : Imm8) : Bool := k.toNat ≤ 6 || (32 ≤ k.toNat && k.toNat ≤ 61)

/-- The legal bit counts of APPROX: 1 to 31 (R76, spec/42_compare.md R196). -/
def Imm8.legalBits (k : Imm8) : Bool := 1 ≤ k.toNat && k.toNat ≤ 31

/-- The legal control-register numbers of RDCSR: 0 to 3 (R76, spec/44_system.md R251). -/
def Imm8.legalCsr (k : Imm8) : Bool := k.toNat ≤ 3

/-- A command that some legal command word encodes (R76, R79). -/
def WellFormed : Instr → Bool
  | .ldc _ k => k.legalConst
  | .approx _ _ _ bits => bits.legalBits
  | .rdcsr n => n.legalCsr
  | .divrem rd rd2 _ _ => rd != rd2
  | .wrv _ => true
  | .rdv _ => true
  | .mov _ _ => true
  | .norm _ _ _ => true
  | .fromi64 _ _ => true
  | .fromi32 _ _ => true
  | .toi64 _ _ => true
  | .toi32 _ _ => true
  | .fromf64 _ _ => true
  | .tof64 _ _ => true
  | .add _ _ _ => true
  | .sub _ _ _ => true
  | .mul _ _ _ => true
  | .div _ _ _ => true
  | .muldiv _ _ _ _ => true
  | .divint _ _ _ => true
  | .rem _ _ _ => true
  | .neg _ _ => true
  | .abs _ _ => true
  | .shl _ _ _ => true
  | .shr _ _ _ => true
  | .min _ _ _ => true
  | .max _ _ _ => true
  | .floor _ _ => true
  | .round _ _ => true
  | .roundto _ _ _ => true
  | .cmp _ _ _ => true
  | .eq _ _ _ => true
  | .lt _ _ _ => true
  | .gt _ _ _ => true
  | .log2 _ _ => true
  | .log2i _ _ => true
  | .pow2 _ _ => true
  | .pow _ _ _ => true
  | .pow10 _ _ => true
  | .clrf => true
  | .nop => true

end Sys2Proof
end

