-- ==== Sys2Proof/Decode.lean ====
section
/-! DEFINITION. The command decoder and encoder (spec/30_encoding.md R74 to R79, R88). A command word is one 32-bit
quantity; the interface has no byte order (spec/20_memory.md R52). Decoding is total: every word that is no legal command
is rejected with a named reason, and the machine raises IllegalCommand for each of them (R79). -/

namespace Sys2Proof

/-! ## The fields of format R4I (R74) -/

/-- Bits 31:24, the opcode. -/
def CmdWord.opcode (c : CmdWord) : BitVec 8 := c.extractLsb' 24 8
/-- Bits 23:20, the destination register. -/
def CmdWord.rd (c : CmdWord) : Reg := c.extractLsb' 20 4
/-- Bits 19:16, the first source register. -/
def CmdWord.rs1 (c : CmdWord) : Reg := c.extractLsb' 16 4
/-- Bits 15:12, the second source register. -/
def CmdWord.rs2 (c : CmdWord) : Reg := c.extractLsb' 12 4
/-- Bits 11:8, the third source register of MULDIV, and the second destination `rd2` of DIVREM. -/
def CmdWord.rs3 (c : CmdWord) : Reg := c.extractLsb' 8 4
/-- Bits 7:0, the immediate, always unsigned (R76). -/
def CmdWord.imm8 (c : CmdWord) : Imm8 := c.extractLsb' 0 8

/-- Why a word is no legal command (R79). The machine does not distinguish the reasons: each raises IllegalCommand. -/
inductive Reject where
  /-- The opcode value is not in the table of R77. -/
  | unassignedOpcode
  /-- A field the form does not use is not 0 (R74, R75). -/
  | nonzeroUnusedField
  /-- `imm8` is outside the legal set of LDC, APPROX or RDCSR (R76). -/
  | illegalImmediate
  /-- DIVREM with `rd = rd2` (spec/41_arithmetic.md R168). -/
  | equalDestinations
deriving DecidableEq, Repr

/-! ## Operand forms (R75): the fields a form does not use must be 0 -/

/-- The check of the unused fields: `ok` says that they are all 0. -/
def useFields (ok : Bool) (i : Instr) : Except Reject Instr :=
  if ok then .ok i else .error .nonzeroUnusedField

/-- Form D: `rd`. -/
def formD (c : CmdWord) (mk : Reg → Instr) : Except Reject Instr :=
  useFields (c.rs1 == 0 && c.rs2 == 0 && c.rs3 == 0 && c.imm8 == 0) (mk c.rd)
/-- Form S: `rs1`. -/
def formS (c : CmdWord) (mk : Reg → Instr) : Except Reject Instr :=
  useFields (c.rd == 0 && c.rs2 == 0 && c.rs3 == 0 && c.imm8 == 0) (mk c.rs1)
/-- Form DI: `rd`, `imm8`. -/
def formDI (c : CmdWord) (mk : Reg → Imm8 → Instr) : Except Reject Instr :=
  useFields (c.rs1 == 0 && c.rs2 == 0 && c.rs3 == 0) (mk c.rd c.imm8)
/-- Form DS: `rd`, `rs1`. -/
def formDS (c : CmdWord) (mk : Reg → Reg → Instr) : Except Reject Instr :=
  useFields (c.rs2 == 0 && c.rs3 == 0 && c.imm8 == 0) (mk c.rd c.rs1)
/-- Form DSS: `rd`, `rs1`, `rs2`. -/
def formDSS (c : CmdWord) (mk : Reg → Reg → Reg → Instr) : Except Reject Instr :=
  useFields (c.rs3 == 0 && c.imm8 == 0) (mk c.rd c.rs1 c.rs2)
/-- Form DSSS: `rd`, `rs1`, `rs2`, `rs3`. -/
def formDSSS (c : CmdWord) (mk : Reg → Reg → Reg → Reg → Instr) : Except Reject Instr :=
  useFields (c.imm8 == 0) (mk c.rd c.rs1 c.rs2 c.rs3)
/-- Form DDSS: `rd`, `rd2` (bits 11:8), `rs1`, `rs2`. -/
def formDDSS (c : CmdWord) (mk : Reg → Reg → Reg → Reg → Instr) : Except Reject Instr :=
  useFields (c.imm8 == 0) (mk c.rd c.rs3 c.rs1 c.rs2)
/-- Form DSSI: `rd`, `rs1`, `rs2`, `imm8`. -/
def formDSSI (c : CmdWord) (mk : Reg → Reg → Reg → Imm8 → Instr) : Except Reject Instr :=
  useFields (c.rs3 == 0) (mk c.rd c.rs1 c.rs2 c.imm8)
/-- Form I: `imm8`. -/
def formI (c : CmdWord) (mk : Imm8 → Instr) : Except Reject Instr :=
  useFields (c.rd == 0 && c.rs1 == 0 && c.rs2 == 0 && c.rs3 == 0) (mk c.imm8)
/-- Form N: no operand. -/
def formN (c : CmdWord) (i : Instr) : Except Reject Instr :=
  useFields (c.rd == 0 && c.rs1 == 0 && c.rs2 == 0 && c.rs3 == 0 && c.imm8 == 0) i

/-- The checks a mask cannot express: the legal sets of `imm8` and `rd ≠ rd2` for DIVREM (R77, R88). -/
def requireLegal (why : Reject) (i : Instr) : Except Reject Instr :=
  if WellFormed i then .ok i else .error why

/-! ## Decode (R77, R79) -/

/-- The command a 32-bit word stands for, or the reason there is none. -/
def decode (c : CmdWord) : Except Reject Instr :=
  match c.opcode with
  | 0x01#8 => formD c .wrv
  | 0x02#8 => formS c .rdv
  | 0x03#8 => formDS c .mov
  | 0x04#8 => formDI c .ldc >>= requireLegal .illegalImmediate
  | 0x05#8 => formDSS c .norm
  | 0x06#8 => formDS c .fromi64
  | 0x07#8 => formDS c .fromi32
  | 0x08#8 => formDS c .toi64
  | 0x09#8 => formDS c .toi32
  | 0x0A#8 => formDS c .fromf64
  | 0x0B#8 => formDS c .tof64
  | 0x10#8 => formDSS c .add
  | 0x11#8 => formDSS c .sub
  | 0x12#8 => formDSS c .mul
  | 0x13#8 => formDSS c .div
  | 0x14#8 => formDSSS c .muldiv
  | 0x15#8 => formDSS c .divint
  | 0x16#8 => formDSS c .rem
  | 0x17#8 => formDDSS c .divrem >>= requireLegal .equalDestinations
  | 0x18#8 => formDS c .neg
  | 0x19#8 => formDS c .abs
  | 0x1A#8 => formDSS c .shl
  | 0x1B#8 => formDSS c .shr
  | 0x1C#8 => formDSS c .min
  | 0x1D#8 => formDSS c .max
  | 0x1E#8 => formDS c .floor
  | 0x1F#8 => formDS c .round
  | 0x20#8 => formDSS c .roundto
  | 0x28#8 => formDSS c .cmp
  | 0x29#8 => formDSS c .eq
  | 0x2A#8 => formDSS c .lt
  | 0x2B#8 => formDSS c .gt
  | 0x2C#8 => formDSSI c .approx >>= requireLegal .illegalImmediate
  | 0x30#8 => formDS c .log2
  | 0x31#8 => formDS c .log2i
  | 0x32#8 => formDS c .pow2
  | 0x33#8 => formDSS c .pow
  | 0x34#8 => formDS c .pow10
  | 0x38#8 => formI c .rdcsr >>= requireLegal .illegalImmediate
  | 0x39#8 => formN c .clrf
  | 0x3A#8 => formN c .nop
  | _ => .error .unassignedOpcode

/-! ## Encode -/

/-- A command word from its six fields (R74). -/
def assemble (op : BitVec 8) (rd rs1 rs2 rs3 : Reg) (imm : Imm8) : CmdWord :=
  op ++ rd ++ rs1 ++ rs2 ++ rs3 ++ imm

/-- The word of a command (R75, R77). It is a legal command word when the command is well-formed. -/
def encode : Instr → CmdWord
  | .wrv rd => assemble 0x01 rd 0 0 0 0
  | .rdv rs1 => assemble 0x02 0 rs1 0 0 0
  | .mov rd rs1 => assemble 0x03 rd rs1 0 0 0
  | .ldc rd k => assemble 0x04 rd 0 0 0 k
  | .norm rd rs1 rs2 => assemble 0x05 rd rs1 rs2 0 0
  | .fromi64 rd rs1 => assemble 0x06 rd rs1 0 0 0
  | .fromi32 rd rs1 => assemble 0x07 rd rs1 0 0 0
  | .toi64 rd rs1 => assemble 0x08 rd rs1 0 0 0
  | .toi32 rd rs1 => assemble 0x09 rd rs1 0 0 0
  | .fromf64 rd rs1 => assemble 0x0A rd rs1 0 0 0
  | .tof64 rd rs1 => assemble 0x0B rd rs1 0 0 0
  | .add rd rs1 rs2 => assemble 0x10 rd rs1 rs2 0 0
  | .sub rd rs1 rs2 => assemble 0x11 rd rs1 rs2 0 0
  | .mul rd rs1 rs2 => assemble 0x12 rd rs1 rs2 0 0
  | .div rd rs1 rs2 => assemble 0x13 rd rs1 rs2 0 0
  | .muldiv rd rs1 rs2 rs3 => assemble 0x14 rd rs1 rs2 rs3 0
  | .divint rd rs1 rs2 => assemble 0x15 rd rs1 rs2 0 0
  | .rem rd rs1 rs2 => assemble 0x16 rd rs1 rs2 0 0
  | .divrem rd rd2 rs1 rs2 => assemble 0x17 rd rs1 rs2 rd2 0
  | .neg rd rs1 => assemble 0x18 rd rs1 0 0 0
  | .abs rd rs1 => assemble 0x19 rd rs1 0 0 0
  | .shl rd rs1 rs2 => assemble 0x1A rd rs1 rs2 0 0
  | .shr rd rs1 rs2 => assemble 0x1B rd rs1 rs2 0 0
  | .min rd rs1 rs2 => assemble 0x1C rd rs1 rs2 0 0
  | .max rd rs1 rs2 => assemble 0x1D rd rs1 rs2 0 0
  | .floor rd rs1 => assemble 0x1E rd rs1 0 0 0
  | .round rd rs1 => assemble 0x1F rd rs1 0 0 0
  | .roundto rd rs1 rs2 => assemble 0x20 rd rs1 rs2 0 0
  | .cmp rd rs1 rs2 => assemble 0x28 rd rs1 rs2 0 0
  | .eq rd rs1 rs2 => assemble 0x29 rd rs1 rs2 0 0
  | .lt rd rs1 rs2 => assemble 0x2A rd rs1 rs2 0 0
  | .gt rd rs1 rs2 => assemble 0x2B rd rs1 rs2 0 0
  | .approx rd rs1 rs2 bits => assemble 0x2C rd rs1 rs2 0 bits
  | .log2 rd rs1 => assemble 0x30 rd rs1 0 0 0
  | .log2i rd rs1 => assemble 0x31 rd rs1 0 0 0
  | .pow2 rd rs1 => assemble 0x32 rd rs1 0 0 0
  | .pow rd rs1 rs2 => assemble 0x33 rd rs1 rs2 0 0
  | .pow10 rd rs1 => assemble 0x34 rd rs1 0 0 0
  | .rdcsr n => assemble 0x38 0 0 0 0 n
  | .clrf => assemble 0x39 0 0 0 0 0
  | .nop => assemble 0x3A 0 0 0 0 0

/-! ## The opcode map as the spec tabulates it (R77) -/

/-- One row of the map: a word `c` fits the row when `c &&& mask = pattern`. -/
structure OpcodeRow where
  /-- The mnemonic of R77. -/
  mnemonic : String
  /-- The column `match` of R77. -/
  pattern : CmdWord
  /-- The column `mask` of R77: the opcode and every field that must be 0. -/
  mask : CmdWord
deriving DecidableEq, Repr

/-- The word has the row's fixed bits (R77). -/
def OpcodeRow.fits (r : OpcodeRow) (c : CmdWord) : Bool := c &&& r.mask == r.pattern

/-- The 41 rows of R77, transcribed. The decoder above is written from the forms of R75; that the two agree is a statement. -/
def opcodeMap : List OpcodeRow := [
  ⟨"WRV", 0x01000000, 0xFF0FFFFF⟩,
  ⟨"RDV", 0x02000000, 0xFFF0FFFF⟩,
  ⟨"MOV", 0x03000000, 0xFF00FFFF⟩,
  ⟨"LDC", 0x04000000, 0xFF0FFF00⟩,
  ⟨"NORM", 0x05000000, 0xFF000FFF⟩,
  ⟨"FROMI64", 0x06000000, 0xFF00FFFF⟩,
  ⟨"FROMI32", 0x07000000, 0xFF00FFFF⟩,
  ⟨"TOI64", 0x08000000, 0xFF00FFFF⟩,
  ⟨"TOI32", 0x09000000, 0xFF00FFFF⟩,
  ⟨"FROMF64", 0x0A000000, 0xFF00FFFF⟩,
  ⟨"TOF64", 0x0B000000, 0xFF00FFFF⟩,
  ⟨"ADD", 0x10000000, 0xFF000FFF⟩,
  ⟨"SUB", 0x11000000, 0xFF000FFF⟩,
  ⟨"MUL", 0x12000000, 0xFF000FFF⟩,
  ⟨"DIV", 0x13000000, 0xFF000FFF⟩,
  ⟨"MULDIV", 0x14000000, 0xFF0000FF⟩,
  ⟨"DIVINT", 0x15000000, 0xFF000FFF⟩,
  ⟨"REM", 0x16000000, 0xFF000FFF⟩,
  ⟨"DIVREM", 0x17000000, 0xFF0000FF⟩,
  ⟨"NEG", 0x18000000, 0xFF00FFFF⟩,
  ⟨"ABS", 0x19000000, 0xFF00FFFF⟩,
  ⟨"SHL", 0x1A000000, 0xFF000FFF⟩,
  ⟨"SHR", 0x1B000000, 0xFF000FFF⟩,
  ⟨"MIN", 0x1C000000, 0xFF000FFF⟩,
  ⟨"MAX", 0x1D000000, 0xFF000FFF⟩,
  ⟨"FLOOR", 0x1E000000, 0xFF00FFFF⟩,
  ⟨"ROUND", 0x1F000000, 0xFF00FFFF⟩,
  ⟨"ROUNDTO", 0x20000000, 0xFF000FFF⟩,
  ⟨"CMP", 0x28000000, 0xFF000FFF⟩,
  ⟨"EQ", 0x29000000, 0xFF000FFF⟩,
  ⟨"LT", 0x2A000000, 0xFF000FFF⟩,
  ⟨"GT", 0x2B000000, 0xFF000FFF⟩,
  ⟨"APPROX", 0x2C000000, 0xFF000F00⟩,
  ⟨"LOG2", 0x30000000, 0xFF00FFFF⟩,
  ⟨"LOG2I", 0x31000000, 0xFF00FFFF⟩,
  ⟨"POW2", 0x32000000, 0xFF00FFFF⟩,
  ⟨"POW", 0x33000000, 0xFF000FFF⟩,
  ⟨"POW10", 0x34000000, 0xFF00FFFF⟩,
  ⟨"RDCSR", 0x38000000, 0xFFFFFF00⟩,
  ⟨"CLRF", 0x39000000, 0xFFFFFFFF⟩,
  ⟨"NOP", 0x3A000000, 0xFFFFFFFF⟩]

/-! ## The host's view of the decoder -/

/-- The command the decoder reads from `nbits` bits numbered as the opcode table numbers them; a command is 32 bits and one
word (R74), so bits at or above `nbits` are 0 and there is nothing to lay out in bytes (spec/20_memory.md R52). -/
def decodeTableWord (nbits w : Nat) : Option Instr :=
  match decode (BitVec.ofNat 32 (w % 2 ^ nbits)) with
  | .ok i => some i
  | .error _ => none

end Sys2Proof
end

