-- ==== Sys2Proof/Machine/Format.lean ====
section
/-! DEFINITION. The data format and the integer notation of the spec: significand and exponent of a packed word, canonical
form, the named constants, floor shifts and `msb` (spec/00_scope.md R5 to R10, spec/10_state.md R21 to R24, spec/20_memory.md
R52). Integers are unbounded, as in the spec (R7). -/

namespace Sys2Proof.Machine

/-! ## Fields of a word (R10, R52) -/

/-- `w[63:32]`, the significand field. -/
def sigBits (w : Word) : BitVec 32 := w.extractLsb' 32 32
/-- `w[31:0]`, the exponent field. -/
def expBits (w : Word) : BitVec 32 := w.extractLsb' 0 32
/-- `sig(w)`: the significand as a signed integer (R10). -/
def sig (w : Word) : Int := (sigBits w).toInt
/-- `exp(w)`: the exponent as a signed integer (R10). -/
def expo (w : Word) : Int := (expBits w).toInt
/-- `pack(s, e)`: significand in the high half, exponent in the low half, each two's-complement (R10). -/
def pack (s e : Int) : Word := BitVec.ofInt 32 s ++ BitVec.ofInt 32 e
/-- `trunc_64(z)`: two's-complement wrap to 64 bits (R8). -/
def trunc64 (z : Int) : Word := BitVec.ofInt 64 z
/-- `sext_64(w)`: the word as a signed 64-bit integer (R8). -/
def sext64 (w : Word) : Int := w.toInt
/-- `sext_32(w[31:0])`: the low half as a signed 32-bit integer (R8, R121). -/
def sext32Low (w : Word) : Int := (w.extractLsb' 0 32).toInt

/-! ## Parameters with a fixed value (R5) -/

/-- `EXP_SENTINEL`, the exponent reserved for zero. -/
def expSentinel : Int := -2 ^ 31
/-- `EXP_MIN`, the least exponent of a non-zero value. -/
def expMin : Int := -2 ^ 31 + 1
/-- `EXP_MAX`. -/
def expMax : Int := 2 ^ 31 - 1
/-- `LOG2_BIAS`. -/
def log2Bias : Int := 30

/-! ## Named constant words (R24) -/

/-- 0: significand 0 and the sentinel exponent. -/
def ZERO : Word := 0x0000000080000000#64
/-- 1. -/
def ONE : Word := 0x40000000FFFFFFE2#64
/-- -1. -/
def MINUS_ONE : Word := 0x80000000FFFFFFE1#64
/-- 2. -/
def TWO : Word := 0x40000000FFFFFFE3#64
/-- 10. -/
def TEN : Word := 0x50000000FFFFFFE5#64

/-! ## Canonical form and value (R21 to R23) -/

/-- `IsCanon(w)`: zero with the sentinel exponent, or a significand whose two top bits are `01` or `10` with any other
exponent (R22). -/
def isCanon (w : Word) : Bool :=
  (sig w == 0 && expo w == expSentinel) ||
    ((w.extractLsb' 62 2 == 0b01#2 || w.extractLsb' 62 2 == 0b10#2) && expo w != expSentinel)

/-- `val(w)`: significand times two to the exponent, 0 when the significand is 0 (R21). No command computes it; statements
speak of it. -/
def val (w : Word) : ℚ := (sig w : ℚ) * 2 ^ expo w

/-! ## Shifts and bit positions on unbounded integers (R9). `tdiv` is `Int.tdiv`, the quotient rounded toward zero. -/

/-- `z >> n`: division by `2^n` rounded toward minus infinity. -/
def shiftFloor (z : Int) (n : Nat) : Int := z >>> n
/-- `clearlow(z, n)`: the largest multiple of `2^n` not above `z`. -/
def clearLow (z : Int) (n : Nat) : Int := shiftFloor z n * 2 ^ n
/-- The position `p` of R100: for `z > 0` the highest set bit, for `z < 0` the highest clear bit of the two's-complement
form, -1 for `z = -1`. It is not read for `z = 0`. -/
def topBit (z : Int) : Int :=
  if 0 < z then (z.toNat.log2 : Int)
  else if z = -1 then -1
  else ((-z - 1).toNat.log2 : Int)

end Sys2Proof.Machine
end

