-- ==== Sys2Proof/Machine/State.lean ====
section
/-! DEFINITION. The state of the unit (spec/10_state.md R20 to R38), the transactions of the interface
(spec/30_encoding.md R70, R71), and the reset state (spec/70_reset_and_hazards.md R310). -/

namespace Sys2Proof.Machine

/-- The causes of a fault (spec/60_exceptions.md R272). Taking one is a next state of the machine (R280), not a stop. -/
inductive Cause where
  /-- The exponent of a result leaves `EXP_MIN .. EXP_MAX`, and the other conditions of R273. -/
  | overflow
  /-- The divisor of DIV, MULDIV, DIVINT, REM or DIVREM is zero (R274). -/
  | divisionByZero
  /-- LOG2 or LOG2I of a non-positive value, two cases of POW, FROMF64 of an infinity or a NaN (R275). -/
  | domainError
  /-- TOI64 or TOI32 of a value that is no integer of the target width (R276). -/
  | rangeError
  /-- ROUNDTO (R277). -/
  | unimplemented
  /-- Reserved for the string codec; no command raises it (R272, spec/00_scope.md R4). -/
  | parseError
  /-- A scaled operand is not canonical (R278). -/
  | invalidOperand
  /-- The word is no legal command (R279). -/
  | illegalCommand
deriving DecidableEq, Repr

/-- The response of a transaction: a 4-bit status and a 64-bit data word (R70, R71). -/
structure Response where
  /-- 0 OK, 1 to 8 a cause code, 15 SKIPPED (R71). -/
  status : BitVec 4
  /-- The data word; 0 unless RDV or RDCSR sets it (R70). -/
  rdata : Word
deriving DecidableEq, Repr

/-- What the host can do between two commands (R73). -/
inductive HostEvent where
  /-- Issue a command transaction: a command word and a data word (R70). -/
  | command (cmd : CmdWord) (wdata : Word)
  /-- Assert reset (R310). -/
  | reset
deriving DecidableEq, Repr

/-- The whole state. The first five fields are the spec's, and complete (R20); the last four are the interface, which the
model holds as data because a step is a function of the state alone (DESIGN CHOICE, logs 1 and 2). -/
structure State where
  /-- The value registers `x[0]` to `x[15]`, untyped 64-bit words (R25). -/
  x : Vector Word 16
  /-- `STATUS`, CSR 0 (R32); its fields are in Machine/Flags.lean. -/
  status : BitVec 32
  /-- `FCMD`, CSR 1: the most recent faulting command word (R34). -/
  fcmd : CmdWord
  /-- `FCC`, CSR 2: the index of the most recent faulting command (R34). -/
  fcc : BitVec 64
  /-- `CC`, CSR 3: the number of transactions accepted since reset; while a command executes, its index (R31). -/
  cc : BitVec 64
  /-- The host's next events, the first one next. -/
  host : List HostEvent
  /-- The command word of the transaction in progress, afterwards of the last one. -/
  cmd : CmdWord
  /-- The data word of the transaction in progress, afterwards of the last one. -/
  wdata : Word
  /-- The response to the last answered transaction; none before the first one after reset. -/
  response : Option Response
deriving DecidableEq, Repr

/-- Why the machine stops: it never does. The step of the unit is total and every outcome is a next state
(spec/30_encoding.md R72, spec/93_implementation_defined.md row 17); a raised fault of R272 is a `Cause`, and taking it is a
next state. So there is no constructor (log 6). -/
inductive Fault
deriving DecidableEq, Repr

/-- Why an instruction has no meaning. -/
inductive Refusal where
  /-- Raised by an arm of `exec` whose instruction has no meaning yet; no arm is such. Safe: nothing is claimed of it. -/
  | notModelled (mnemonic : String)
deriving DecidableEq, Repr

/-- The outcome of a command or a step. -/
abbrev Outcome := Host.Outcome State Fault Refusal

/-- The state after reset (R38, R310): every value register ZERO, every control register 0. The interface is idle: no event
pending, no transaction latched, no response given (DESIGN CHOICE, logs 1 and 2). -/
def State.reset : State where
  x := Vector.replicate 16 ZERO
  status := 0
  fcmd := 0
  fcc := 0
  cc := 0
  host := []
  cmd := 0
  wdata := 0
  response := none

end Sys2Proof.Machine
end

