-- ==== Sys2Proof/Machine/Flags.lean ====
section
/-! DEFINITION. The unit has no status flags (spec/10_state.md R33). What this file holds is the two fields of `STATUS`
(R32), the states RUNNING and FAULTED (R37) and the cause codes (spec/60_exceptions.md R272). -/

namespace Sys2Proof.Machine

/-- The code of a cause, which is the response status and the value of `CAUSE` (R272). -/
def Cause.code : Cause → BitVec 4
  | .overflow => 1
  | .divisionByZero => 2
  | .domainError => 3
  | .rangeError => 4
  | .unimplemented => 5
  | .parseError => 6
  | .invalidOperand => 7
  | .illegalCommand => 8

/-- Bit 0 of `STATUS`, `F`. -/
def statusF (st : BitVec 32) : Bool := st.getLsbD 0
/-- Bits 7:4 of `STATUS`, `CAUSE`. -/
def statusCause (st : BitVec 32) : BitVec 4 := st.extractLsb' 4 4
/-- The implemented bits of `STATUS`: 0 and 7:4; the others are reserved (R32). -/
def statusMask : BitVec 32 := 0xF1#32
/-- `STATUS` as software reads it: reserved bits read as 0 (R32; log 9). -/
def statusRead (st : BitVec 32) : BitVec 32 := st &&& statusMask
/-- `STATUS` with `F` replaced and every other bit kept. -/
def setF (f : Bool) (st : BitVec 32) : BitVec 32 := (st &&& ~~~1#32) ||| (BitVec.ofBool f).setWidth 32
/-- `STATUS` with `CAUSE` replaced and every other bit kept. -/
def setCause (c : BitVec 4) (st : BitVec 32) : BitVec 32 := (st &&& ~~~0xF0#32) ||| (c.setWidth 32 <<< 4)

/-- The unit is FAULTED (R37). -/
def State.faulted (s : State) : Bool := statusF s.status

end Sys2Proof.Machine
end

