-- ==== Sys2Proof/Machine/Ops.lean ====
section
/-! DEFINITION. The named operations over the state: value registers, completing a command, taking a fault, returning from
one, skipping, reset, and taking the host's next event (spec/30_encoding.md R70 to R78, spec/60_exceptions.md R280 to R284,
spec/70_reset_and_hazards.md R310). -/

namespace Sys2Proof.Machine

/-! ## Value registers (spec/10_state.md R25) -/

/-- `x[r]`. -/
def State.reg (s : State) (r : Reg) : Word := s.x[r.toNat]'(by have := r.isLt; omega)

/-- `x[r] <- v`. -/
def State.setReg (s : State) (r : Reg) (v : Word) : State :=
  { s with x := s.x.set r.toNat v (by have := r.isLt; omega) }

/-! ## The end of a command (R78 steps 5 and 6, R70, R71) -/

/-- Answer with `status` and `rdata` and count the transaction: `CC <- (CC + 1) mod 2^64` (R31, R78 step 6). -/
def State.respond (s : State) (status : BitVec 4) (rdata : Word) : State :=
  { s with response := some ⟨status, rdata⟩, cc := s.cc + 1 }

/-- A command that completes: status 0 (OK). -/
def State.complete (s : State) (rdata : Word) : State := s.respond 0 rdata

/-! ## Taking a fault and returning from one (R280, R282, R284) -/

/-- Fault entry (R280): `F` set, `CAUSE`, `FCMD` and `FCC` recorded, the response is the cause code with data 0, no value
register is written. `FCC` is the index of the command, that is `CC` before it is counted. -/
def takeFault (c : Cause) (s : State) : State :=
  { s with status := setCause c.code (setF true s.status), fcmd := s.cmd, fcc := s.cc }.respond c.code 0

/-- The return from a fault (R284, spec/44_system.md R252): `F` cleared; `CAUSE`, `FCMD` and `FCC` are kept. -/
def clearFault (s : State) : State := { s with status := setF false s.status }

/-- A skipped command (R282): the response is (15, 0) and nothing else changes but `CC`. -/
def skipCommand (s : State) : State := s.respond 15 0

/-- Reset (R310): total and immediate, nothing survives it but the host's further events (log 2). -/
def hostReset (s : State) : State := { State.reset with host := s.host }

/-! ## Ending a command with the value of its semantic function, or with the fault it raises (R11, R13, R78 step 5) -/

/-- Write one result, or take the fault. -/
def finishWrite (s : State) (rd : Reg) (r : Except Cause Word) : State :=
  match r with
  | .ok w => (s.setReg rd w).complete 0
  | .error c => takeFault c s

/-- Write two results, or take the fault and write neither (R168, R280). -/
def finishWrite₂ (s : State) (rd rd2 : Reg) (r : Except Cause (Word × Word)) : State :=
  match r with
  | .ok (q, m) => ((s.setReg rd q).setReg rd2 m).complete 0
  | .error c => takeFault c s

/-- Answer with a data word, or take the fault. -/
def finishRead (s : State) (r : Except Cause Word) : State :=
  match r with
  | .ok w => s.complete w
  | .error c => takeFault c s

/-! ## The prologue up to decode (R78 steps 1 and 2) -/

/-- The commands that execute while FAULTED, by their opcode field alone: RDV, RDCSR, CLRF (R282). -/
def passesWhileFaulted (cmd : CmdWord) : Bool :=
  cmd.opcode == 0x02#8 || cmd.opcode == 0x38#8 || cmd.opcode == 0x39#8

/-- The transaction is skipped (R78 step 1). -/
def State.skips (s : State) : Bool := s.faulted && !passesWhileFaulted s.cmd

/-- The transaction of the interface, latched for execution. -/
def State.latch (s : State) (cmd : CmdWord) (wdata : Word) (rest : List HostEvent) : State :=
  { s with host := rest, cmd := cmd, wdata := wdata }

/-- What the next step does: the host's next event, taken and decoded. -/
inductive Fetched where
  /-- No event is pending: the unit is idle and keeps all its state (spec/60_exceptions.md R299). -/
  | idle
  /-- The host asserts reset. -/
  | reset (s : State)
  /-- A transaction that is skipped (R282). -/
  | skip (s : State)
  /-- A transaction whose word is no legal command (R79). -/
  | illegal (s : State)
  /-- A transaction that runs a command. -/
  | run (i : Instr) (s : State)
deriving DecidableEq, Repr

/-- Steps 1 and 2 of the prologue on a latched transaction (R78). The skip test comes before decode, so a skipped word may
be illegal (R282). -/
def classify (s : State) : Fetched :=
  if s.skips then .skip s
  else match decode s.cmd with
    | .ok i => .run i s
    | .error _ => .illegal s

/-- Take the host's next event (R73, R78). -/
def fetch (s : State) : Fetched :=
  match s.host with
  | [] => .idle
  | .reset :: rest => .reset { s with host := rest }
  | .command cmd wdata :: rest => classify (s.latch cmd wdata rest)

/-- The host presents the 32-bit command word of an instruction next, with data word 0, ahead of the events it has already
planned (logs 1 and 11). -/
def presentNext (s : State) (cmd : CmdWord) : State := { s with host := .command cmd 0 :: s.host }

end Sys2Proof.Machine
end

