-- ==== Sys2Proof/Machine/Operands.lean ====
section
/-! DEFINITION. How a command reads its registers (spec/10_state.md R26, R28, spec/30_encoding.md R78 step 4): a scaled
operand is checked to be canonical, a raw operand is not. Every operand is read before any destination is written
(spec/70_reset_and_hazards.md R316). -/

namespace Sys2Proof.Machine

/-- A scaled operand: the word, or InvalidOperand when it is not canonical (R28, R78 step 4). -/
def readScaled (s : State) (r : Reg) : Except Cause Word :=
  if isCanon (s.reg r) then .ok (s.reg r) else .error .invalidOperand

/-- A raw operand read as a signed 64-bit integer. -/
def readInt64 (s : State) (r : Reg) : Int := sext64 (s.reg r)

/-- A raw operand of which the low half is read as a signed 32-bit integer (R121). -/
def readInt32 (s : State) (r : Reg) : Int := sext32Low (s.reg r)

/-- One scaled operand, `rs1`. -/
def withScaled {α : Type} (s : State) (rs1 : Reg) (f : Word → Except Cause α) : Except Cause α := do
  let a ← readScaled s rs1
  f a

/-- Two scaled operands, checked in the order `rs1`, `rs2`. -/
def withScaled₂ {α : Type} (s : State) (rs1 rs2 : Reg) (f : Word → Word → Except Cause α) : Except Cause α := do
  let a ← readScaled s rs1
  let b ← readScaled s rs2
  f a b

/-- Three scaled operands, checked in the order `rs1`, `rs2`, `rs3`. -/
def withScaled₃ {α : Type} (s : State) (rs1 rs2 rs3 : Reg) (f : Word → Word → Word → Except Cause α) :
    Except Cause α := do
  let a ← readScaled s rs1
  let b ← readScaled s rs2
  let c ← readScaled s rs3
  f a b c

end Sys2Proof.Machine
end

