-- ==== Sys2Proof/Machine/Compare.lean ====
section
/-! DEFINITION. The comparison core (spec/42_compare.md): CMP, EQ, LT, GT, APPROX. Results are raw integers in a value
register; there is no flag (R198). -/

namespace Sys2Proof.Machine

/-- `Cmp(a, b)` (R190): the lexicographic order of (exponent, significand), which is not the numeric order for zero and
negative operands (R195, spec/90_conflicts.md C1). -/
def lexCmp (a b : Word) : Int :=
  if expo a < expo b then -1
  else if expo b < expo a then 1
  else if sig a < sig b then -1
  else if sig b < sig a then 1
  else 0

/-- A truth value as a raw word, 0 or 1 (R190). -/
def boolWord (b : Bool) : Word := if b then 1 else 0

/-- `a`'s significand brought to the scale of `o`, when the exponents differ by at most 1 (R196 `A`). -/
def approxAligned (a o : Word) : Option Int :=
  if expo a - expo o = 0 then some (sig a)
  else if expo a - expo o = 1 then some (sig a * 2)
  else if expo a - expo o = -1 then some (shiftFloor (sig a) 1)
  else none

/-- `APPROX(a, o, bits)` (R196): within half a window of width `2^(32 - bits)` around the significand of `o`, ends
included. -/
def APPROX (a o : Word) (bits : Nat) : Bool :=
  match approxAligned a o with
  | some A => (A - sig o).natAbs ≤ 2 ^ (31 - bits)
  | none => false

/-! ## Meanings -/

/-- CMP (R191). -/
def execCmp (rd rs1 rs2 : Reg) (s : State) : Outcome :=
  .next (finishWrite s rd (withScaled₂ s rs1 rs2 fun a b => .ok (trunc64 (lexCmp a b))))

/-- EQ (R192): equality of the two words. -/
def execEq (rd rs1 rs2 : Reg) (s : State) : Outcome :=
  .next (finishWrite s rd (withScaled₂ s rs1 rs2 fun a b => .ok (boolWord (a == b))))

/-- LT (R193). -/
def execLt (rd rs1 rs2 : Reg) (s : State) : Outcome :=
  .next (finishWrite s rd (withScaled₂ s rs1 rs2 fun a b => .ok (boolWord (lexCmp a b < 0))))

/-- GT (R194). -/
def execGt (rd rs1 rs2 : Reg) (s : State) : Outcome :=
  .next (finishWrite s rd (withScaled₂ s rs1 rs2 fun a b => .ok (boolWord (0 < lexCmp a b))))

/-- APPROX (R196): a bit count outside 1 to 31 is IllegalCommand, which decode has already refused. -/
def execApprox (rd rs1 rs2 : Reg) (bits : Imm8) (s : State) : Outcome :=
  .next (finishWrite s rd
    (if bits.legalBits then withScaled₂ s rs1 rs2 fun a o => .ok (boolWord (APPROX a o bits.toNat))
     else .error .illegalCommand))

end Sys2Proof.Machine
end

