-- ==== Sys2Proof/Machine/Normalize.lean ====
section
/-! DEFINITION. The normalizer, "the single choke point" every value-producing command ends in (spec/40_codec.md R100). -/

namespace Sys2Proof.Machine

/-- `sh` of R100: the right shift (left when negative) that puts the significand in canonical position. -/
def normShift (S : Int) : Int := topBit S - 30

/-- `s` of R100: the shifted significand; a right shift drops low bits toward minus infinity. -/
def normSig (S : Int) : Int :=
  if 0 ≤ normShift S then shiftFloor S (normShift S).toNat else S * 2 ^ (-normShift S).toNat

/-- `e` of R100: the adjusted exponent, in unbounded integers. -/
def normExp (S E : Int) : Int := E + normShift S

/-- The adjusted exponent is in range; zero always fits (R100, R273 a). -/
def fits (S E : Int) : Bool := S == 0 || (expMin ≤ normExp S E && normExp S E ≤ expMax)

/-- The word of R100 when the exponent is in range; ZERO for significand 0, whatever the exponent. -/
def normWord (S E : Int) : Word := if S = 0 then ZERO else pack (normSig S) (normExp S E)

/-- `Normalize(S, E)` (R100): the canonical word, or Overflow. -/
def normalize (S E : Int) : Except Cause Word :=
  if fits S E then .ok (normWord S E) else .error .overflow

end Sys2Proof.Machine
end

