-- ==== Sys2Proof/Machine/Arithmetic.lean ====
section
/-! DEFINITION. The arithmetic core (spec/41_arithmetic.md): ADD, SUB, MUL, DIV, MULDIV, DIVINT, REM, DIVREM, NEG, ABS, SHL,
SHR, FLOOR, ROUND, ROUNDTO, MIN, MAX. The semantic functions take canonical words; all arithmetic is in unbounded integers
(R180). -/

namespace Sys2Proof.Machine

/-! ## Sign (R170, R171) -/

/-- `NEG(a)` (R170). -/
def NEG (a : Word) : Except Cause Word := normalize (-sig a) (expo a)

/-- `ABS(a)` (R171). -/
def ABS (a : Word) : Except Cause Word := if sig a < 0 then NEG a else .ok a

/-! ## Add and subtract (R140, R141) -/

/-- `ADD(a, b)` (R140): an operand 32 or more binades below the other is dropped. -/
def ADD (a b : Word) : Except Cause Word :=
  let d := expo a - expo b
  if 32 ≤ d then .ok a
  else if d ≤ -32 then .ok b
  else if 0 ≤ d then normalize (sig a + shiftFloor (sig b) d.toNat) (expo a)
  else normalize (shiftFloor (sig a) (-d).toNat + sig b) (expo b)

/-- `SUB(a, b)` (R141): a zero or dropped receiver gives `NEG(b)`. -/
def SUB (a b : Word) : Except Cause Word :=
  let d := expo a - expo b
  if sig a = 0 then NEG b
  else if 32 ≤ d then .ok a
  else if d ≤ -32 then NEG b
  else if 0 ≤ d then normalize (sig a - shiftFloor (sig b) d.toNat) (expo a)
  else normalize (shiftFloor (sig a) (-d).toNat - sig b) (expo b)

/-! ## Multiply, divide, muldiv (R145, R150, R155) -/

/-- `MUL(a, b)` (R145). -/
def MUL (a b : Word) : Except Cause Word := normalize (sig a * sig b) (expo a + expo b)

/-- The significand quotient of DIV and `DivRem`, rounded toward zero (R150, R160 `Q`). -/
def quotient (a b : Word) : Int := (sig a * 2 ^ 32).tdiv (sig b)

/-- `DIV(a, b)` (R150). -/
def DIV (a b : Word) : Except Cause Word :=
  if sig b = 0 then .error .divisionByZero else normalize (quotient a b) (expo a - expo b - 32)

/-- `MULDIV(a, m, c)` (R155): one quotient of the exact product. -/
def MULDIV (a m c : Word) : Except Cause Word :=
  if sig c = 0 then .error .divisionByZero
  else normalize ((sig a * sig m).tdiv (sig c)) (expo a + expo m - expo c)

/-! ## Integral quotient and remainder (R160) -/

/-- `QI` of R160: the quotient truncated toward zero at the integral boundary, for a scale exponent `E < 0`. -/
def truncQuotient (a b : Word) : Int :=
  let k := (-(expo a - expo b - 32)).toNat
  if 64 ≤ k then 0 else (quotient a b).tdiv (2 ^ k)

/-- `R` of R160: dividend minus quotient times divisor, exact, at the scale of the lesser exponent. -/
def remainderInt (a b : Word) : Int :=
  let mn := min (expo a) (expo b)
  sig a * 2 ^ (expo a - mn).toNat - truncQuotient a b * sig b * 2 ^ (expo b - mn).toNat

/-- `DivRem(a, b)` (R160): quotient and remainder, the quotient normalized first (R285). -/
def DivRem (a b : Word) : Except Cause (Word × Word) :=
  if sig b = 0 then .error .divisionByZero
  else if 0 ≤ expo a - expo b - 32 then do
    let q ← normalize (quotient a b) (expo a - expo b - 32)
    .ok (q, ZERO)
  else if truncQuotient a b = 0 then .ok (ZERO, a)
  else do
    let q ← normalize (truncQuotient a b) 0
    let r ← normalize (remainderInt a b) (min (expo a) (expo b))
    .ok (q, r)

/-! ## Exponent shifts, floor, round (R172 to R175) -/

/-- `SHL(a, n)` (R172): only the exponent changes. -/
def SHL (a : Word) (n : Int) : Except Cause Word := normalize (sig a) (expo a + n)

/-- `SHR(a, n)` (R173). -/
def SHR (a : Word) (n : Int) : Except Cause Word := normalize (sig a) (expo a - n)

/-- `FLOOR(a)` (R174). -/
def FLOOR (a : Word) : Except Cause Word :=
  if sig a = 0 ∨ 0 ≤ expo a then .ok a
  else
    let k := (-expo a).toNat
    if 31 ≤ k then .ok (if 0 < sig a then ZERO else MINUS_ONE)
    else normalize (clearLow (sig a) k) (expo a)

/-- `ROUND(a)` (R175): floor of the value plus one half. -/
def ROUND (a : Word) : Except Cause Word :=
  if sig a = 0 ∨ 0 ≤ expo a then .ok a
  else
    let k := (-expo a).toNat
    if 32 ≤ k then .ok ZERO
    else normalize (clearLow (sig a + 2 ^ (k - 1)) k) (expo a)

/-! ## Minimum and maximum (R178, R179): by `Cmp`, the chosen operand's bits unchanged -/

/-- `MIN(a, b)` (R178). -/
def MIN (a b : Word) : Word := if lexCmp a b ≤ 0 then a else b

/-- `MAX(a, b)` (R179). -/
def MAX (a b : Word) : Word := if 0 ≤ lexCmp a b then a else b

/-! ## Meanings -/

/-- ADD (R140). -/
def execAdd (rd rs1 rs2 : Reg) (s : State) : Outcome := .next (finishWrite s rd (withScaled₂ s rs1 rs2 ADD))

/-- SUB (R141). -/
def execSub (rd rs1 rs2 : Reg) (s : State) : Outcome := .next (finishWrite s rd (withScaled₂ s rs1 rs2 SUB))

/-- MUL (R145). -/
def execMul (rd rs1 rs2 : Reg) (s : State) : Outcome := .next (finishWrite s rd (withScaled₂ s rs1 rs2 MUL))

/-- DIV (R150). -/
def execDiv (rd rs1 rs2 : Reg) (s : State) : Outcome := .next (finishWrite s rd (withScaled₂ s rs1 rs2 DIV))

/-- MULDIV (R155). -/
def execMuldiv (rd rs1 rs2 rs3 : Reg) (s : State) : Outcome :=
  .next (finishWrite s rd (withScaled₃ s rs1 rs2 rs3 MULDIV))

/-- DIVINT (R166): faults as DIVREM does, the discarded remainder included. -/
def execDivint (rd rs1 rs2 : Reg) (s : State) : Outcome :=
  .next (finishWrite s rd (withScaled₂ s rs1 rs2 fun a b => (DivRem a b).map Prod.fst))

/-- REM (R167): faults as DIVREM does, the discarded quotient included. -/
def execRem (rd rs1 rs2 : Reg) (s : State) : Outcome :=
  .next (finishWrite s rd (withScaled₂ s rs1 rs2 fun a b => (DivRem a b).map Prod.snd))

/-- DIVREM (R168): both destinations or neither; equal destinations are IllegalCommand, which decode has already refused. -/
def execDivrem (rd rd2 rs1 rs2 : Reg) (s : State) : Outcome :=
  .next (finishWrite₂ s rd rd2
    (if rd = rd2 then .error .illegalCommand else withScaled₂ s rs1 rs2 DivRem))

/-- NEG (R170). -/
def execNeg (rd rs1 : Reg) (s : State) : Outcome := .next (finishWrite s rd (withScaled s rs1 NEG))

/-- ABS (R171). -/
def execAbs (rd rs1 : Reg) (s : State) : Outcome := .next (finishWrite s rd (withScaled s rs1 ABS))

/-- SHL (R172): the count is raw. -/
def execShl (rd rs1 rs2 : Reg) (s : State) : Outcome :=
  .next (finishWrite s rd (withScaled s rs1 fun a => SHL a (readInt64 s rs2)))

/-- SHR (R173): the count is raw. -/
def execShr (rd rs1 rs2 : Reg) (s : State) : Outcome :=
  .next (finishWrite s rd (withScaled s rs1 fun a => SHR a (readInt64 s rs2)))

/-- MIN (R178). -/
def execMin (rd rs1 rs2 : Reg) (s : State) : Outcome :=
  .next (finishWrite s rd (withScaled₂ s rs1 rs2 fun a b => .ok (MIN a b)))

/-- MAX (R179). -/
def execMax (rd rs1 rs2 : Reg) (s : State) : Outcome :=
  .next (finishWrite s rd (withScaled₂ s rs1 rs2 fun a b => .ok (MAX a b)))

/-- FLOOR (R174). -/
def execFloor (rd rs1 : Reg) (s : State) : Outcome := .next (finishWrite s rd (withScaled s rs1 FLOOR))

/-- ROUND (R175). -/
def execRound (rd rs1 : Reg) (s : State) : Outcome := .next (finishWrite s rd (withScaled s rs1 ROUND))

/-- ROUNDTO (R176, R78 step 3): Unimplemented, raised before any register is read. -/
def execRoundto (_rd _rs1 _rs2 : Reg) (s : State) : Outcome := .next (takeFault .unimplemented s)

end Sys2Proof.Machine
end

