-- ==== Sys2Proof/Machine/Tables.lean ====
section
/-! DEFINITION. The power-of-ten table (spec/43_transcendental.md R232) and the constant ROM (spec/40_codec.md R114):
parameters of the unit with the values the spec fixes (spec/00_scope.md R5, R39). -/

namespace Sys2Proof.Machine

/-- `POW10_TABLE` (R232): entry `k` is 10^(2^k) cut to 31 significant bits. -/
def pow10Table : List Word := [
  0x50000000FFFFFFE5#64, 0x64000000FFFFFFE8#64, 0x4E200000FFFFFFEF#64,
  0x5F5E1000FFFFFFFC#64, 0x470DE4DF00000017#64, 0x4EE2D6D40000004C#64,
  0x613C0FA4000000B6#64, 0x49DD23E40000018B#64, 0x553F75FD00000334#64,
  0x718CD05700000686#64, 0x64BB3AC300000D2B#64, 0x4F459DAE00001A75#64,
  0x6230290100003508#64, 0x4B51D0E800006A2F#64, 0x58A42A380000D47C#64,
  0x7AC519350001A916#64, 0x75C0E78C0003524B#64, 0x6C53CA050006A4B5#64,
  0x5BAD9BC3000D4989#64, 0x41A9C4F1001A9331#64, 0x435E9A6100352680#64,
  0x46EA9F12006A4D1E#64, 0x4E94981400D49A5A#64, 0x607B8BB301A934D2#64,
  0x48B9C8CD035269C3#64, 0x52A41F1C06A4D3A4#64, 0x6AB634980D49A766#64,
  0x58F6CA7A1A934EEB#64, 0x7BAA647835269DF4#64, 0x777A5BEB6A4D3C07#64]

/-- The constants `PI`, `E` and `PHI`, cut to 31 significant bits (R114). -/
def PI : Word := 0x6487ED51FFFFFFE3#64
/-- Euler's number (R114). -/
def EULER : Word := 0x56FC2A2CFFFFFFE3#64
/-- The golden ratio (R114). -/
def PHI : Word := 0x678DDE6EFFFFFFE2#64

/-- Entries 0 to 6 of the constant ROM (R114). -/
def namedConstants : List Word := [ZERO, ONE, TWO, TEN, PI, EULER, PHI]

/-- `CONST_ROM[index]` (R114): 0 to 6 the named constants, 32 to 61 the power-of-ten table, nothing elsewhere. -/
def constRom (index : Imm8) : Option Word :=
  if index.toNat < 32 then namedConstants[index.toNat]? else pow10Table[index.toNat - 32]?

end Sys2Proof.Machine
end

