-- ==== Sys2Proof/Machine/Codec.lean ====
section
/-! DEFINITION. The bit-pattern codec (spec/40_codec.md): WRV, RDV, MOV, LDC, NORM, FROMI64, FROMI32, TOI64, TOI32, FROMF64,
TOF64. -/

namespace Sys2Proof.Machine

/-! ## Integers (R120 to R124) -/

/-- `s × 2^e` for `e ≥ 0`, with the exponent cut at 64. For `|s| ≥ 1` and a range inside 64 bits the cut changes no range
test: both products are then outside it (DEDUCED, log 12, safe). -/
def scaleUp (s e : Int) : Int := s * 2 ^ min e.toNat 64

/-- An integer of the target range, or RangeError (R124, last two lines). -/
def inRange (lo hi v : Int) : Except Cause Int := if v < lo ∨ hi < v then .error .rangeError else .ok v

/-- `ToInt(a, lo, hi)` (R124): the integer of the value, or RangeError when the value is no integer of the range. -/
def toInteger (a : Word) (lo hi : Int) : Except Cause Int :=
  if sig a = 0 then .ok 0
  else if 0 ≤ expo a then inRange lo hi (scaleUp (sig a) (expo a))
  else if 32 ≤ (-expo a).toNat then .error .rangeError
  else if sig a % 2 ^ (-expo a).toNat ≠ 0 then .error .rangeError
  else inRange lo hi (shiftFloor (sig a) (-expo a).toNat)

/-- The signed 64-bit range (R8). -/
def i64Min : Int := -2 ^ 63
/-- The signed 64-bit range (R8). -/
def i64Max : Int := 2 ^ 63 - 1
/-- The signed 32-bit range (R8). -/
def i32Min : Int := -2 ^ 31
/-- The signed 32-bit range (R8). -/
def i32Max : Int := 2 ^ 31 - 1

/-- The value of TOI64 (R122). -/
def TOI64 (a : Word) : Except Cause Word := (toInteger a i64Min i64Max).map trunc64
/-- The value of TOI32, sign-extended to the register (R123). -/
def TOI32 (a : Word) : Except Cause Word := (toInteger a i32Min i32Max).map trunc64

/-! ## Host doubles (R129 to R131) -/

/-- The biased exponent field of a binary64 pattern (R129). -/
def f64Biased (d : Word) : Nat := (d.extractLsb' 52 11).toNat
/-- The fraction field of a binary64 pattern (R129). -/
def f64Fraction (d : Word) : Nat := (d.extractLsb' 0 52).toNat
/-- The sign bit of a binary64 pattern (R129). -/
def f64Sign (d : Word) : Bool := d.getLsbD 63

/-- The signed integer significand of a finite binary64 pattern (R130 `m`). -/
def f64Mantissa (d : Word) : Int :=
  let m : Int := if f64Biased d = 0 then (f64Fraction d : Int) else 2 ^ 52 + (f64Fraction d : Int)
  if f64Sign d then -m else m

/-- The exponent that goes with it (R130 `e`). -/
def f64Exponent (d : Word) : Int := if f64Biased d = 0 then -1074 else (f64Biased d : Int) - 1075

/-- The value of FROMF64 (R130): infinities and NaNs are a DomainError. -/
def FROMF64 (d : Word) : Except Cause Word :=
  if f64Biased d = 0x7FF then .error .domainError else normalize (f64Mantissa d) (f64Exponent d)

/-- A binary64 pattern from its three fields (R129). -/
def f64Pack (sign : Bool) (biased : BitVec 11) (fraction : BitVec 52) : Word := BitVec.ofBool sign ++ biased ++ fraction

/-- The value of TOF64 (R131): exact in the normal range, infinity above it, low bits of the magnitude dropped below it. -/
def TOF64 (a : Word) : Word :=
  if sig a = 0 then 0
  else
    let sign : Bool := sig a < 0
    let mag : Nat := (sig a).natAbs
    let p : Nat := mag.log2
    let ue : Int := expo a + p
    if 1023 < ue then f64Pack sign 0x7FF 0
    else if -1022 ≤ ue then f64Pack sign (BitVec.ofInt 11 (ue + 1023)) (BitVec.ofNat 52 (mag <<< (52 - p) - 2 ^ 52))
    else
      let t : Int := expo a + 1074
      f64Pack sign 0 (BitVec.ofNat 52 (if 0 ≤ t then mag <<< t.toNat else mag >>> (-t).toNat))

/-! ## Meanings -/

/-- WRV (R110): `x[rd] <- wdata`, no check of any kind. -/
def execWrv (rd : Reg) (s : State) : Outcome := .next (finishWrite s rd (.ok s.wdata))

/-- RDV (R111): `rdata <- x[rs1]`. -/
def execRdv (rs1 : Reg) (s : State) : Outcome := .next (finishRead s (.ok (s.reg rs1)))

/-- MOV (R112): a raw copy. -/
def execMov (rd rs1 : Reg) (s : State) : Outcome := .next (finishWrite s rd (.ok (s.reg rs1)))

/-- LDC (R113): a word of the constant ROM; an index outside it is IllegalCommand (R114), which decode has already refused. -/
def execLdc (rd : Reg) (index : Imm8) (s : State) : Outcome :=
  .next (finishWrite s rd ((constRom index).elim (.error .illegalCommand) .ok))

/-- NORM (R101): the normalizer on two raw integers. -/
def execNorm (rd rs1 rs2 : Reg) (s : State) : Outcome :=
  .next (finishWrite s rd (normalize (readInt64 s rs1) (readInt64 s rs2)))

/-- FROMI64 (R120). -/
def execFromi64 (rd rs1 : Reg) (s : State) : Outcome := .next (finishWrite s rd (normalize (readInt64 s rs1) 0))

/-- FROMI32 (R121): the upper half of the register is ignored. -/
def execFromi32 (rd rs1 : Reg) (s : State) : Outcome := .next (finishWrite s rd (normalize (readInt32 s rs1) 0))

/-- TOI64 (R122). -/
def execToi64 (rd rs1 : Reg) (s : State) : Outcome := .next (finishWrite s rd (withScaled s rs1 TOI64))

/-- TOI32 (R123). -/
def execToi32 (rd rs1 : Reg) (s : State) : Outcome := .next (finishWrite s rd (withScaled s rs1 TOI32))

/-- FROMF64 (R130). -/
def execFromf64 (rd rs1 : Reg) (s : State) : Outcome := .next (finishWrite s rd (FROMF64 (s.reg rs1)))

/-- TOF64 (R131). -/
def execTof64 (rd rs1 : Reg) (s : State) : Outcome :=
  .next (finishWrite s rd (withScaled s rs1 fun a => .ok (TOF64 a)))

end Sys2Proof.Machine
end

