-- ==== Sys2Proof/Machine/System.lean ====
section
/-! DEFINITION. The system commands (spec/44_system.md): RDCSR, CLRF, NOP. -/

namespace Sys2Proof.Machine

/-- A control register as RDCSR reads it, zero-extended to 64 bits (R251, spec/10_state.md R31 to R34); none for a number
above 3. `CC` is the index of the reading command itself. -/
def State.csr (s : State) (n : Imm8) : Option Word :=
  match n.toNat with
  | 0 => some ((statusRead s.status).setWidth 64)
  | 1 => some (s.fcmd.setWidth 64)
  | 2 => some s.fcc
  | 3 => some s.cc
  | _ => none

/-- RDCSR (R251): a number above 3 is IllegalCommand, which decode has already refused. -/
def execRdcsr (n : Imm8) (s : State) : Outcome :=
  .next (finishRead s ((s.csr n).elim (.error .illegalCommand) .ok))

/-- CLRF (R252). -/
def execClrf (s : State) : Outcome := .next ((clearFault s).complete 0)

/-- NOP (R253). -/
def execNop (s : State) : Outcome := .next (s.complete 0)

end Sys2Proof.Machine
end

