-- ==== Sys2Proof/Config.lean ====
section
/-! DEFINITION. What the spec leaves to the implementation: the two fractional kernels of the transcendental core
(spec/43_transcendental.md R212, R222; spec/93_implementation_defined.md rows 1, 2). Neither has a body: nothing can
evaluate one or prove a value of one. Every other parameter of spec/00_scope.md R5 has its value fixed by the spec. -/

namespace Sys2Proof

/-- The raw word behind `LOG2_FRAC` (R212, decision D26): any function of a 32-bit significand. The machine uses it only
through `Machine.log2Frac`, which makes every choice of this function satisfy `CFG_WF_LOG2`. DESIGN CHOICE (log 3), safe. -/
opaque Config.log2FracRaw : BitVec 32 → Word

/-- The raw word behind `POW2_FRAC` (R222, decision D27): any function of a 64-bit word. The machine uses it only through
`Machine.pow2Frac`, which makes every choice of this function satisfy `CFG_WF_POW2`. DESIGN CHOICE (log 4), safe. -/
opaque Config.pow2FracRaw : Word → Word

end Sys2Proof
end

