-- ==== Sys2Proof/Machine/Kernels.lean ====
section
/-! DEFINITION. The two fractional kernels as the rules call them: the opaque functions of Config brought into the
well-formedness the spec requires of every configuration (spec/43_transcendental.md R212 `CFG_WF_LOG2`, R222
`CFG_WF_POW2`). -/

namespace Sys2Proof.Machine

/-- The canonical positive word made from the low 30 significand bits and the exponent of any word (the sentinel exponent
becomes `EXP_MIN`). It is the identity on canonical positive words, so `toPositive ∘ f` over all `f` is every function with
canonical positive values, and nothing else (DESIGN CHOICE, logs 3 and 4, safe). -/
def toPositive (w : Word) : Word :=
  0b01#2 ++ w.extractLsb' 32 30 ++ (if expBits w = 0x80000000#32 then 0x80000001#32 else expBits w)

/-- `LOG2_FRAC(s)` for a 32-bit significand (R212). -/
def log2Frac (s : BitVec 32) : Word := toPositive (Config.log2FracRaw s)

/-- `POW2_FRAC(f)` for a canonical non-zero word of magnitude below 1 (R222). -/
def pow2Frac (f : Word) : Word := toPositive (Config.pow2FracRaw f)

end Sys2Proof.Machine
end

