-- ==== Sys2Proof/Machine/Transcendental.lean ====
section
/-! DEFINITION. The transcendental core (spec/43_transcendental.md): LOG2, LOG2I, POW2, POW, POW10. Everything but the two
kernels is exact integer work. -/

namespace Sys2Proof.Machine

/-! ## Helpers (R210) -/

/-- `IsInt(e)`: the value of a canonical word is an integer (R210). -/
def isInt (e : Word) : Bool :=
  sig e == 0 || 0 ≤ expo e || ((-expo e).toNat < 32 && sig e % 2 ^ (-expo e).toNat == 0)

/-- `IsOdd(e)`: when the value is an integer, it is odd (R210). -/
def isOdd (e : Word) : Bool :=
  sig e != 0 && expo e ≤ 0 && (-expo e).toNat < 32 && (sigBits e).getLsbD (-expo e).toNat

/-! ## log2 (R213, R214) -/

/-- `LOG2(a)` (R213). -/
def LOG2 (a : Word) : Except Cause Word :=
  if sig a ≤ 0 then .error .domainError
  else do
    let i ← normalize (expo a + log2Bias) 0
    if sig a = 2 ^ 30 then .ok i else ADD i (log2Frac (sigBits a))

/-- The value of LOG2I (R214), a raw integer. -/
def LOG2I (a : Word) : Except Cause Word :=
  if sig a ≤ 0 then .error .domainError else .ok (trunc64 (expo a + log2Bias))

/-! ## pow2 (R223) -/

/-- The integer part `I` of R223, truncated toward zero, for `exp(a) ≤ 0`. -/
def intPart (a : Word) : Int :=
  if 32 ≤ (-expo a).toNat then 0 else (sig a).tdiv (2 ^ (-expo a).toNat)

/-- The significand `fs` of the fractional part of R223, at the scale of `a`. -/
def fracSig (a : Word) : Int :=
  if 32 ≤ (-expo a).toNat then sig a else sig a - intPart a * 2 ^ (-expo a).toNat

/-- `POW2(a)` (R223). -/
def POW2 (a : Word) : Except Cause Word :=
  if sig a = 0 then .ok ONE
  else if 0 < expo a then .error .overflow
  else do
    let p ← if fracSig a = 0 then .ok ONE else (normalize (fracSig a) (expo a)).map pow2Frac
    normalize (sig p) (expo p + intPart a)

/-! ## Powers of ten (R233) -/

/-- The walk of R233 from bit `k` on: for every set bit of `m` multiply in the table entry. -/
def pow10Walk (m k : Nat) (acc : Word) : List Word → Except Cause Word
  | [] => .ok acc
  | t :: ts =>
    if m.testBit k then do
      let acc' ← MUL acc t
      pow10Walk m (k + 1) acc' ts
    else pow10Walk m (k + 1) acc ts

/-- `POW10(n)` (R233): least significant bit first, starting from ONE; a negative `n` ends with a reciprocal. -/
def POW10 (n : Int) : Except Cause Word :=
  if 2 ^ 30 ≤ n.natAbs then .error .overflow
  else do
    let acc ← pow10Walk n.natAbs 0 ONE pow10Table
    if n < 0 then DIV ONE acc else .ok acc

/-! ## pow (R240) -/

/-- `T` of R240 step 2, `nb × se × 2^ee`, when it is an integer. The exponent is cut at 64 both ways: a product of magnitude
1 to 2^63 is then out of range, respectively no integer, with and without the cut (DEDUCED, log 12, safe). -/
def powTwoExponent (b e : Word) : Option Int :=
  let p := (expo b + log2Bias) * sig e
  if 0 ≤ expo e then some (scaleUp p (expo e))
  else
    let k := min (-expo e).toNat 64
    if p % 2 ^ k = 0 then some (p / 2 ^ k) else none

/-- The word `2^T` of R240 step 2, or Overflow. -/
def powTwoWord (T : Int) : Except Cause Word :=
  if T - 30 < expMin ∨ expMax < T - 30 then .error .overflow else .ok (pack (2 ^ 30) (T - 30))

/-- Step 2 of R240: a base that is an exact power of two, when the product of logarithm and exponent is an integer. -/
def powOfTwoBase (b e : Word) : Option (Except Cause Word) :=
  if sig b = 2 ^ 30 then (powTwoExponent b e).map powTwoWord else none

/-- Step 3 of R240: base ten. Every failure to get a 32-bit integer from the exponent is Overflow (spec/90_conflicts.md
C8). -/
def powOfTenBase (e : Word) : Except Cause Word :=
  match toInteger e i32Min i32Max with
  | .ok n => POW10 n
  | .error _ => .error .overflow

/-- The fast paths of R240, steps 1 to 4, in order; none when no step applies. -/
def powFast (b e : Word) : Option (Except Cause Word) :=
  if sig e = 0 then some (.ok ONE)
  else if sig b = 0 then some (if 0 < sig e then .ok ZERO else .error .domainError)
  else match powOfTwoBase b e with
    | some r => some r
    | none =>
      if b = TEN then some (powOfTenBase e)
      else if e = TWO then some (MUL b b)
      else none

/-- Step 6 of R240. -/
def powGeneral (b e : Word) : Except Cause Word := do
  let l ← LOG2 b
  let p ← MUL l e
  POW2 p

/-- R240 for a base that is not negative: the recursive call of step 5, which cannot reach step 5 again (R321). -/
def powNonNegative (b e : Word) : Except Cause Word := (powFast b e).getD (powGeneral b e)

/-- Step 5 of R240: a negative base takes an integer exponent only. -/
def powNegative (b e : Word) : Except Cause Word :=
  if isInt e then do
    let nb ← NEG b
    let r ← powNonNegative nb e
    if isOdd e then NEG r else .ok r
  else .error .domainError

/-- `POW(b, e)` (R240): the first of the six steps that applies. -/
def POW (b e : Word) : Except Cause Word :=
  (powFast b e).getD (if sig b < 0 then powNegative b e else powGeneral b e)

/-! ## Meanings -/

/-- LOG2 (R213). -/
def execLog2 (rd rs1 : Reg) (s : State) : Outcome := .next (finishWrite s rd (withScaled s rs1 LOG2))

/-- LOG2I (R214). -/
def execLog2i (rd rs1 : Reg) (s : State) : Outcome := .next (finishWrite s rd (withScaled s rs1 LOG2I))

/-- POW2 (R223). -/
def execPow2 (rd rs1 : Reg) (s : State) : Outcome := .next (finishWrite s rd (withScaled s rs1 POW2))

/-- POW (R240). -/
def execPow (rd rs1 rs2 : Reg) (s : State) : Outcome := .next (finishWrite s rd (withScaled₂ s rs1 rs2 POW))

/-- POW10 (R233): the operand is raw. -/
def execPow10 (rd rs1 : Reg) (s : State) : Outcome := .next (finishWrite s rd (POW10 (readInt64 s rs1)))

end Sys2Proof.Machine
end

