-- ==== Sys2Proof/Machine/Dispatch.lean ====
section
/-! DEFINITION. The meaning of every command: steps 3 to 6 of the common prologue (spec/30_encoding.md R78) on the latched
transaction. The skip test and decode come before (Machine/Ops.lean). -/

namespace Sys2Proof.Machine

/-- Run a decoded command. -/
def exec (i : Instr) (s : State) : Host.Outcome State Fault Refusal :=
  match i with
  | .wrv rd => Sys2Proof.Machine.execWrv rd s
  | .rdv rs1 => Sys2Proof.Machine.execRdv rs1 s
  | .mov rd rs1 => Sys2Proof.Machine.execMov rd rs1 s
  | .ldc rd index => Sys2Proof.Machine.execLdc rd index s
  | .norm rd rs1 rs2 => Sys2Proof.Machine.execNorm rd rs1 rs2 s
  | .fromi64 rd rs1 => Sys2Proof.Machine.execFromi64 rd rs1 s
  | .fromi32 rd rs1 => Sys2Proof.Machine.execFromi32 rd rs1 s
  | .toi64 rd rs1 => Sys2Proof.Machine.execToi64 rd rs1 s
  | .toi32 rd rs1 => Sys2Proof.Machine.execToi32 rd rs1 s
  | .fromf64 rd rs1 => Sys2Proof.Machine.execFromf64 rd rs1 s
  | .tof64 rd rs1 => Sys2Proof.Machine.execTof64 rd rs1 s
  | .add rd rs1 rs2 => Sys2Proof.Machine.execAdd rd rs1 rs2 s
  | .sub rd rs1 rs2 => Sys2Proof.Machine.execSub rd rs1 rs2 s
  | .mul rd rs1 rs2 => Sys2Proof.Machine.execMul rd rs1 rs2 s
  | .div rd rs1 rs2 => Sys2Proof.Machine.execDiv rd rs1 rs2 s
  | .muldiv rd rs1 rs2 rs3 => Sys2Proof.Machine.execMuldiv rd rs1 rs2 rs3 s
  | .divint rd rs1 rs2 => Sys2Proof.Machine.execDivint rd rs1 rs2 s
  | .rem rd rs1 rs2 => Sys2Proof.Machine.execRem rd rs1 rs2 s
  | .divrem rd rd2 rs1 rs2 => Sys2Proof.Machine.execDivrem rd rd2 rs1 rs2 s
  | .neg rd rs1 => Sys2Proof.Machine.execNeg rd rs1 s
  | .abs rd rs1 => Sys2Proof.Machine.execAbs rd rs1 s
  | .shl rd rs1 rs2 => Sys2Proof.Machine.execShl rd rs1 rs2 s
  | .shr rd rs1 rs2 => Sys2Proof.Machine.execShr rd rs1 rs2 s
  | .min rd rs1 rs2 => Sys2Proof.Machine.execMin rd rs1 rs2 s
  | .max rd rs1 rs2 => Sys2Proof.Machine.execMax rd rs1 rs2 s
  | .floor rd rs1 => Sys2Proof.Machine.execFloor rd rs1 s
  | .round rd rs1 => Sys2Proof.Machine.execRound rd rs1 s
  | .roundto rd rs1 rs2 => Sys2Proof.Machine.execRoundto rd rs1 rs2 s
  | .cmp rd rs1 rs2 => Sys2Proof.Machine.execCmp rd rs1 rs2 s
  | .eq rd rs1 rs2 => Sys2Proof.Machine.execEq rd rs1 rs2 s
  | .lt rd rs1 rs2 => Sys2Proof.Machine.execLt rd rs1 rs2 s
  | .gt rd rs1 rs2 => Sys2Proof.Machine.execGt rd rs1 rs2 s
  | .approx rd rs1 rs2 bits => Sys2Proof.Machine.execApprox rd rs1 rs2 bits s
  | .log2 rd rs1 => Sys2Proof.Machine.execLog2 rd rs1 s
  | .log2i rd rs1 => Sys2Proof.Machine.execLog2i rd rs1 s
  | .pow2 rd rs1 => Sys2Proof.Machine.execPow2 rd rs1 s
  | .pow rd rs1 rs2 => Sys2Proof.Machine.execPow rd rs1 rs2 s
  | .pow10 rd rs1 => Sys2Proof.Machine.execPow10 rd rs1 s
  | .rdcsr csr => Sys2Proof.Machine.execRdcsr csr s
  | .clrf => Sys2Proof.Machine.execClrf s
  | .nop => Sys2Proof.Machine.execNop s

end Sys2Proof.Machine
end

