-- ==== Sys2Proof/Machine/Step.lean ====
section
/-! DEFINITION. One step of the unit (spec/30_encoding.md R72, R78): the host's next event. -/

namespace Sys2Proof.Machine

/-- One step: idle without an event, reset, or one transaction, which is skipped, raises IllegalCommand, or runs. -/
def step (s : State) : Host.Outcome State Fault Refusal :=
  match fetch s with
  | .idle => .next s
  | .reset t => .next (hostReset t)
  | .skip t => .next (skipCommand t)
  | .illegal t => .next (takeFault .illegalCommand t)
  | .run i t => exec i t

/-- The state in which the host presents the command word `w` next, with data word 0 (log 11). A command is one 32-bit word
(R74); bits at or above `nbits` are 0. -/
def State.withFetchWord (s : State) (nbits w : Nat) : State := presentNext s (BitVec.ofNat 32 (w % 2 ^ nbits))

end Sys2Proof.Machine
end

