-- ==== Sys2Proof/Machine/Assembler.lean ====
section
/-! DEFINITION. The assembler notation as words and transactions (spec/30_encoding.md R85 to R87): the literals of the data
word, the text of a command, and the pseudo-instructions. The unit executes none of this; a host that assembles a listing
issues these transactions (decision D33). -/

namespace Sys2Proof.Machine

/-- The four spellings of a WRV data word (R86). -/
inductive Literal where
  /-- Raw hexadecimal, up to 16 digits. -/
  | hex (w : Word)
  /-- `0xHHHHHHHHPeeeeeeee`: the two halves in hexadecimal. -/
  | hexPair (significand exponent : BitVec 32)
  /-- `significandBexponent`: both signed decimal, in the 32-bit range. -/
  | decimalPair (significand exponent : Int)
  /-- `#integer`: a signed decimal in the 64-bit range. -/
  | integer (v : Int)
deriving DecidableEq, Repr

/-- The word of a literal, none when a number is outside its range (R86). Nothing is normalized. -/
def Literal.word : Literal → Option Word
  | .hex w => some w
  | .hexPair s e => some (s ++ e)
  | .decimalPair s e =>
    if -2 ^ 31 ≤ s ∧ s ≤ 2 ^ 31 - 1 ∧ -2 ^ 31 ≤ e ∧ e ≤ 2 ^ 31 - 1 then some (pack s e) else none
  | .integer v => if -2 ^ 63 ≤ v ∧ v ≤ 2 ^ 63 - 1 then some (trunc64 v) else none

/-- The transaction of a command that is not WRV: the assembler emits `wdata = 0` (R85). -/
def transaction (i : Instr) : HostEvent := .command (encode i) 0

/-- The transaction of WRV with its data word (R85). -/
def wrvTransaction (rd : Reg) (w : Word) : HostEvent := .command (encode (.wrv rd)) w

/-- The pseudo-instructions (R87). -/
inductive Pseudo where
  /-- `ldv vd, <literal>`. -/
  | ldv (rd : Reg) (l : Literal)
  /-- `li vd, <integer>`. -/
  | li (rd : Reg) (v : Int)
  /-- `ldz vd`. -/
  | ldz (rd : Reg)
  /-- `sqr vd, vs`. -/
  | sqr (rd rs : Reg)
  /-- `neg0 vd, vs`; `vd` and `vs` must differ. -/
  | neg0 (rd rs : Reg)
deriving DecidableEq, Repr

/-- The commands a pseudo-instruction stands for (R87), none where it is not allowed. -/
def Pseudo.expand : Pseudo → Option (List HostEvent)
  | .ldv rd l => l.word.map fun w => [wrvTransaction rd w]
  | .li rd v => (Literal.integer v).word.map fun w => [wrvTransaction rd w, transaction (.fromi64 rd rd)]
  | .ldz rd => some [transaction (.ldc rd 0)]
  | .sqr rd rs => some [transaction (.mul rd rs rs)]
  | .neg0 rd rs => if rd = rs then none else some [transaction (.ldc rd 0), transaction (.sub rd rd rs)]

/-- `v0` to `v15` (R85). -/
def regText (r : Reg) : String := "v" ++ toString r.toNat

/-- Operands joined as a listing writes them (R85). -/
def joinOperands : List String → String
  | [] => ""
  | [a] => a
  | a :: rest => a ++ ", " ++ joinOperands rest

/-- A command's text: mnemonic, then operands (R85). -/
def lineText (mnemonic : String) (operands : List String) : String :=
  match operands with
  | [] => mnemonic
  | _ => mnemonic ++ " " ++ joinOperands operands

/-- The name of a control register in a listing (R85). -/
def csrText (n : Imm8) : String := (["STATUS", "FCMD", "FCC", "CC"][n.toNat]?).getD (toString n.toNat)

/-- The name of a constant in a listing (R85, spec/40_codec.md R114). -/
def constText (k : Imm8) : String :=
  if k.toNat < 32 then (["ZERO", "ONE", "TWO", "TEN", "PI", "E", "PHI"][k.toNat]?).getD (toString k.toNat)
  else if k.toNat ≤ 61 then "P10_" ++ toString (k.toNat - 32)
  else toString k.toNat

/-- The text of a command (R85): lower-case mnemonic, destination first, then sources. The data word of WRV is written by
the host as its second operand (R86). -/
def asmText : Instr → String
  | .wrv rd => lineText "wrv" [regText rd]
  | .rdv rs1 => lineText "rdv" [regText rs1]
  | .mov rd rs1 => lineText "mov" [regText rd, regText rs1]
  | .ldc rd k => lineText "ldc" [regText rd, constText k]
  | .norm rd rs1 rs2 => lineText "norm" [regText rd, regText rs1, regText rs2]
  | .fromi64 rd rs1 => lineText "fromi64" [regText rd, regText rs1]
  | .fromi32 rd rs1 => lineText "fromi32" [regText rd, regText rs1]
  | .toi64 rd rs1 => lineText "toi64" [regText rd, regText rs1]
  | .toi32 rd rs1 => lineText "toi32" [regText rd, regText rs1]
  | .fromf64 rd rs1 => lineText "fromf64" [regText rd, regText rs1]
  | .tof64 rd rs1 => lineText "tof64" [regText rd, regText rs1]
  | .add rd rs1 rs2 => lineText "add" [regText rd, regText rs1, regText rs2]
  | .sub rd rs1 rs2 => lineText "sub" [regText rd, regText rs1, regText rs2]
  | .mul rd rs1 rs2 => lineText "mul" [regText rd, regText rs1, regText rs2]
  | .div rd rs1 rs2 => lineText "div" [regText rd, regText rs1, regText rs2]
  | .muldiv rd rs1 rs2 rs3 => lineText "muldiv" [regText rd, regText rs1, regText rs2, regText rs3]
  | .divint rd rs1 rs2 => lineText "divint" [regText rd, regText rs1, regText rs2]
  | .rem rd rs1 rs2 => lineText "rem" [regText rd, regText rs1, regText rs2]
  | .divrem rd rd2 rs1 rs2 => lineText "divrem" [regText rd, regText rd2, regText rs1, regText rs2]
  | .neg rd rs1 => lineText "neg" [regText rd, regText rs1]
  | .abs rd rs1 => lineText "abs" [regText rd, regText rs1]
  | .shl rd rs1 rs2 => lineText "shl" [regText rd, regText rs1, regText rs2]
  | .shr rd rs1 rs2 => lineText "shr" [regText rd, regText rs1, regText rs2]
  | .min rd rs1 rs2 => lineText "min" [regText rd, regText rs1, regText rs2]
  | .max rd rs1 rs2 => lineText "max" [regText rd, regText rs1, regText rs2]
  | .floor rd rs1 => lineText "floor" [regText rd, regText rs1]
  | .round rd rs1 => lineText "round" [regText rd, regText rs1]
  | .roundto rd rs1 rs2 => lineText "roundto" [regText rd, regText rs1, regText rs2]
  | .cmp rd rs1 rs2 => lineText "cmp" [regText rd, regText rs1, regText rs2]
  | .eq rd rs1 rs2 => lineText "eq" [regText rd, regText rs1, regText rs2]
  | .lt rd rs1 rs2 => lineText "lt" [regText rd, regText rs1, regText rs2]
  | .gt rd rs1 rs2 => lineText "gt" [regText rd, regText rs1, regText rs2]
  | .approx rd rs1 rs2 bits => lineText "approx" [regText rd, regText rs1, regText rs2, toString bits.toNat]
  | .log2 rd rs1 => lineText "log2" [regText rd, regText rs1]
  | .log2i rd rs1 => lineText "log2i" [regText rd, regText rs1]
  | .pow2 rd rs1 => lineText "pow2" [regText rd, regText rs1]
  | .pow rd rs1 rs2 => lineText "pow" [regText rd, regText rs1, regText rs2]
  | .pow10 rd rs1 => lineText "pow10" [regText rd, regText rs1]
  | .rdcsr n => lineText "rdcsr" [csrText n]
  | .clrf => lineText "clrf" []
  | .nop => lineText "nop" []

end Sys2Proof.Machine
end

