-- ==== Sys2Proof/Safety.lean ====
section
/-! DEFINITION. The terms in which statements speak of runs: which registers a command reads and writes (the table of
spec/10_state.md R26), which causes it can raise (spec/41_arithmetic.md R181, spec/60_exceptions.md R273 to R278), and what
holds of every state the unit can be in. -/

namespace Sys2Proof.Machine

/-- The registers a command reads as scaled operands, in the order they are checked (R26, R78 step 4). -/
def scaledSources : Instr → List Reg
  | .wrv _ => []
  | .rdv _ => []
  | .mov _ _ => []
  | .ldc _ _ => []
  | .norm _ _ _ => []
  | .fromi64 _ _ => []
  | .fromi32 _ _ => []
  | .toi64 _ rs1 => [rs1]
  | .toi32 _ rs1 => [rs1]
  | .fromf64 _ _ => []
  | .tof64 _ rs1 => [rs1]
  | .add _ rs1 rs2 => [rs1, rs2]
  | .sub _ rs1 rs2 => [rs1, rs2]
  | .mul _ rs1 rs2 => [rs1, rs2]
  | .div _ rs1 rs2 => [rs1, rs2]
  | .muldiv _ rs1 rs2 rs3 => [rs1, rs2, rs3]
  | .divint _ rs1 rs2 => [rs1, rs2]
  | .rem _ rs1 rs2 => [rs1, rs2]
  | .divrem _ _ rs1 rs2 => [rs1, rs2]
  | .neg _ rs1 => [rs1]
  | .abs _ rs1 => [rs1]
  | .shl _ rs1 _ => [rs1]
  | .shr _ rs1 _ => [rs1]
  | .min _ rs1 rs2 => [rs1, rs2]
  | .max _ rs1 rs2 => [rs1, rs2]
  | .floor _ rs1 => [rs1]
  | .round _ rs1 => [rs1]
  | .roundto _ _ _ => []
  | .cmp _ rs1 rs2 => [rs1, rs2]
  | .eq _ rs1 rs2 => [rs1, rs2]
  | .lt _ rs1 rs2 => [rs1, rs2]
  | .gt _ rs1 rs2 => [rs1, rs2]
  | .approx _ rs1 rs2 _ => [rs1, rs2]
  | .log2 _ rs1 => [rs1]
  | .log2i _ rs1 => [rs1]
  | .pow2 _ rs1 => [rs1]
  | .pow _ rs1 rs2 => [rs1, rs2]
  | .pow10 _ _ => []
  | .rdcsr _ => []
  | .clrf => []
  | .nop => []

/-- All the registers a command reads, scaled or raw (R26). -/
def sources : Instr → List Reg
  | .wrv _ => []
  | .rdv rs1 => [rs1]
  | .mov _ rs1 => [rs1]
  | .ldc _ _ => []
  | .norm _ rs1 rs2 => [rs1, rs2]
  | .fromi64 _ rs1 => [rs1]
  | .fromi32 _ rs1 => [rs1]
  | .toi64 _ rs1 => [rs1]
  | .toi32 _ rs1 => [rs1]
  | .fromf64 _ rs1 => [rs1]
  | .tof64 _ rs1 => [rs1]
  | .add _ rs1 rs2 => [rs1, rs2]
  | .sub _ rs1 rs2 => [rs1, rs2]
  | .mul _ rs1 rs2 => [rs1, rs2]
  | .div _ rs1 rs2 => [rs1, rs2]
  | .muldiv _ rs1 rs2 rs3 => [rs1, rs2, rs3]
  | .divint _ rs1 rs2 => [rs1, rs2]
  | .rem _ rs1 rs2 => [rs1, rs2]
  | .divrem _ _ rs1 rs2 => [rs1, rs2]
  | .neg _ rs1 => [rs1]
  | .abs _ rs1 => [rs1]
  | .shl _ rs1 rs2 => [rs1, rs2]
  | .shr _ rs1 rs2 => [rs1, rs2]
  | .min _ rs1 rs2 => [rs1, rs2]
  | .max _ rs1 rs2 => [rs1, rs2]
  | .floor _ rs1 => [rs1]
  | .round _ rs1 => [rs1]
  | .roundto _ _ _ => []
  | .cmp _ rs1 rs2 => [rs1, rs2]
  | .eq _ rs1 rs2 => [rs1, rs2]
  | .lt _ rs1 rs2 => [rs1, rs2]
  | .gt _ rs1 rs2 => [rs1, rs2]
  | .approx _ rs1 rs2 _ => [rs1, rs2]
  | .log2 _ rs1 => [rs1]
  | .log2i _ rs1 => [rs1]
  | .pow2 _ rs1 => [rs1]
  | .pow _ rs1 rs2 => [rs1, rs2]
  | .pow10 _ rs1 => [rs1]
  | .rdcsr _ => []
  | .clrf => []
  | .nop => []

/-- The registers a command writes when it completes (R26). -/
def destinations : Instr → List Reg
  | .wrv rd => [rd]
  | .rdv _ => []
  | .mov rd _ => [rd]
  | .ldc rd _ => [rd]
  | .norm rd _ _ => [rd]
  | .fromi64 rd _ => [rd]
  | .fromi32 rd _ => [rd]
  | .toi64 rd _ => [rd]
  | .toi32 rd _ => [rd]
  | .fromf64 rd _ => [rd]
  | .tof64 rd _ => [rd]
  | .add rd _ _ => [rd]
  | .sub rd _ _ => [rd]
  | .mul rd _ _ => [rd]
  | .div rd _ _ => [rd]
  | .muldiv rd _ _ _ => [rd]
  | .divint rd _ _ => [rd]
  | .rem rd _ _ => [rd]
  | .divrem rd rd2 _ _ => [rd, rd2]
  | .neg rd _ => [rd]
  | .abs rd _ => [rd]
  | .shl rd _ _ => [rd]
  | .shr rd _ _ => [rd]
  | .min rd _ _ => [rd]
  | .max rd _ _ => [rd]
  | .floor rd _ => [rd]
  | .round rd _ => [rd]
  | .roundto _ _ _ => []
  | .cmp rd _ _ => [rd]
  | .eq rd _ _ => [rd]
  | .lt rd _ _ => [rd]
  | .gt rd _ _ => [rd]
  | .approx rd _ _ _ => [rd]
  | .log2 rd _ => [rd]
  | .log2i rd _ => [rd]
  | .pow2 rd _ => [rd]
  | .pow rd _ _ => [rd]
  | .pow10 rd _ => [rd]
  | .rdcsr _ => []
  | .clrf => []
  | .nop => []

/-- The destinations that hold a scaled value, canonical when the command completes (R26, R183). -/
def scaledDestinations : Instr → List Reg
  | .wrv _ => []
  | .rdv _ => []
  | .mov _ _ => []
  | .ldc rd _ => [rd]
  | .norm rd _ _ => [rd]
  | .fromi64 rd _ => [rd]
  | .fromi32 rd _ => [rd]
  | .toi64 _ _ => []
  | .toi32 _ _ => []
  | .fromf64 rd _ => [rd]
  | .tof64 _ _ => []
  | .add rd _ _ => [rd]
  | .sub rd _ _ => [rd]
  | .mul rd _ _ => [rd]
  | .div rd _ _ => [rd]
  | .muldiv rd _ _ _ => [rd]
  | .divint rd _ _ => [rd]
  | .rem rd _ _ => [rd]
  | .divrem rd rd2 _ _ => [rd, rd2]
  | .neg rd _ => [rd]
  | .abs rd _ => [rd]
  | .shl rd _ _ => [rd]
  | .shr rd _ _ => [rd]
  | .min rd _ _ => [rd]
  | .max rd _ _ => [rd]
  | .floor rd _ => [rd]
  | .round rd _ => [rd]
  | .roundto _ _ _ => []
  | .cmp _ _ _ => []
  | .eq _ _ _ => []
  | .lt _ _ _ => []
  | .gt _ _ _ => []
  | .approx _ _ _ _ => []
  | .log2 rd _ => [rd]
  | .log2i _ _ => []
  | .pow2 rd _ => [rd]
  | .pow rd _ _ => [rd]
  | .pow10 rd _ => [rd]
  | .rdcsr _ => []
  | .clrf => []
  | .nop => []

/-- The causes a legal command can raise, IllegalCommand apart (R181, R273 to R278). -/
def mayRaise : Instr → List Cause
  | .wrv _ => []
  | .rdv _ => []
  | .mov _ _ => []
  | .ldc _ _ => []
  | .norm _ _ _ => [.overflow]
  | .fromi64 _ _ => []
  | .fromi32 _ _ => []
  | .toi64 _ _ => [.rangeError, .invalidOperand]
  | .toi32 _ _ => [.rangeError, .invalidOperand]
  | .fromf64 _ _ => [.domainError]
  | .tof64 _ _ => [.invalidOperand]
  | .add _ _ _ => [.overflow, .invalidOperand]
  | .sub _ _ _ => [.overflow, .invalidOperand]
  | .mul _ _ _ => [.overflow, .invalidOperand]
  | .div _ _ _ => [.overflow, .divisionByZero, .invalidOperand]
  | .muldiv _ _ _ _ => [.overflow, .divisionByZero, .invalidOperand]
  | .divint _ _ _ => [.overflow, .divisionByZero, .invalidOperand]
  | .rem _ _ _ => [.overflow, .divisionByZero, .invalidOperand]
  | .divrem _ _ _ _ => [.overflow, .divisionByZero, .invalidOperand]
  | .neg _ _ => [.overflow, .invalidOperand]
  | .abs _ _ => [.overflow, .invalidOperand]
  | .shl _ _ _ => [.overflow, .invalidOperand]
  | .shr _ _ _ => [.overflow, .invalidOperand]
  | .min _ _ _ => [.invalidOperand]
  | .max _ _ _ => [.invalidOperand]
  | .floor _ _ => [.invalidOperand]
  | .round _ _ => [.invalidOperand]
  | .roundto _ _ _ => [.unimplemented]
  | .cmp _ _ _ => [.invalidOperand]
  | .eq _ _ _ => [.invalidOperand]
  | .lt _ _ _ => [.invalidOperand]
  | .gt _ _ _ => [.invalidOperand]
  | .approx _ _ _ _ => [.invalidOperand]
  | .log2 _ _ => [.overflow, .domainError, .invalidOperand]
  | .log2i _ _ => [.domainError, .invalidOperand]
  | .pow2 _ _ => [.overflow, .invalidOperand]
  | .pow _ _ _ => [.overflow, .domainError, .invalidOperand]
  | .pow10 _ _ => [.overflow]
  | .rdcsr _ => []
  | .clrf => []
  | .nop => []

/-- The cause codes a fault can leave in CAUSE: all but the reserved ParseError (R272). -/
def raisable : List Cause :=
  [.overflow, .divisionByZero, .domainError, .rangeError, .unimplemented, .invalidOperand, .illegalCommand]

/-- The fault record of STATUS, FCMD and FCC is one that fault entry can have written (R272, R279, R280, R34): nothing
recorded and both registers 0; or IllegalCommand with a word that is no legal command; or a legal command's word with a
cause that command can raise. -/
def recordOk (s : State) : Prop :=
  (statusCause s.status = 0 ∧ statusF s.status = false ∧ s.fcmd = 0 ∧ s.fcc = 0) ∨
    (statusCause s.status = Cause.illegalCommand.code ∧ ∀ i, decode s.fcmd ≠ .ok i) ∨
    (∃ i c, decode s.fcmd = .ok i ∧ c ∈ mayRaise i ∧ statusCause s.status = c.code)

/-- The last response is one the unit can give: OK, SKIPPED with data 0, or a cause code with data 0 (R71, R272, R280,
R282). -/
def responseOk (s : State) : Prop :=
  ∀ r, s.response = some r →
    r.status = 0 ∨ (r.rdata = 0 ∧ (r.status = 15 ∨ ∃ c ∈ raisable, r.status = c.code))

/-- What holds of every state the unit can be in: the reserved bits of STATUS are 0 (R32), the fault record is one that
fault entry can have written, and so is the last response. -/
structure Inv (s : State) : Prop where
  /-- Reserved bits of STATUS are 0 (R32). -/
  reservedClear : statusRead s.status = s.status
  /-- The fault record is consistent (R34, R272, R279, R280). -/
  record : recordOk s
  /-- The last response is legal (R71). -/
  answer : responseOk s

/-- The state without the latched data word, for statements that say it has no effect. -/
def State.forgetData (s : State) : State := { s with wdata := 0 }

/-- The outcomes of two steps, the latched data word apart, are the same next state. -/
def sameNext (a b : Outcome) : Prop := ∃ t u : State, a = .next t ∧ b = .next u ∧ t.forgetData = u.forgetData

/-- The command's result is `Normalize(S, E)` (spec/40_codec.md R100): when the adjusted exponent fits, it completes and
writes the normalized word to `rd`; when not, it raises Overflow. -/
def writesNormalized (o : Outcome) (s : State) (rd : Reg) (S E : Int) : Prop :=
  (fits S E = true → o = .next ((s.setReg rd (normWord S E)).complete 0)) ∧
    (fits S E = false → o = .next (takeFault .overflow s))

/-- The command ends as the semantic function `r` says: it completes and writes the word to `rd`, or it raises the cause
(R11, R78 step 5). -/
def endsAs (o : Outcome) (s : State) (rd : Reg) (r : Except Cause Word) : Prop :=
  match r with
  | .ok w => o = .next ((s.setReg rd w).complete 0)
  | .error c => o = .next (takeFault c s)

/-- The lexicographic order on (exponent, significand), written out (spec/42_compare.md R190). -/
def lexBelow (a b : Word) : Prop := expo a < expo b ∨ (expo a = expo b ∧ sig a < sig b)

end Sys2Proof.Machine
end

