-- ==== Sys2Proof/Certificates/Slice0/Obligations.lean ====
section
/-! DEFINITION. The statements for the provers. Each formalises numbered rules of spec/; `takeFault`, `setReg` and `complete`
are pinned down field by field by `FaultEntryRecordsTheFault` and `CompletingWritesOneRegister`. A statement about `exec`
says what a command does that is not skipped: `exec` does not look at `STATUS.F` (log 8), and `FaultedUnitSkips` says what
the step does while FAULTED. -/

open Sys2Proof Sys2Proof.Machine

/-! ## Encoding -/

/-- R74, R75, R77: the word of a well-formed command decodes to that command. -/
def Obligations.DecodeOfEncodeIsTheCommand : Prop :=
  ∀ i : Instr, WellFormed i = true → decode (encode i) = .ok i

/-- R77, R79: a word that decodes is the encoding of the command it decodes to, which is well-formed; so every bit of a
legal word is read, and no two words decode to one command. -/
def Obligations.EncodeOfDecodeIsTheWord : Prop :=
  ∀ (c : CmdWord) (i : Instr), decode c = .ok i → WellFormed i = true ∧ encode i = c

/-- R77, R79, R88: the legal words are those that fit a row of the opcode map and pass the checks on `imm8` and on the two
destinations of DIVREM; and no word fits two rows. -/
def Obligations.LegalWordsAreTheRowsOfTheMap : Prop :=
  (∀ c : CmdWord, (∃ i, decode c = .ok i) ↔
    (∃ r ∈ opcodeMap, r.fits c = true) ∧
      (c.opcode = 0x04#8 → c.imm8.toNat ≤ 6 ∨ (32 ≤ c.imm8.toNat ∧ c.imm8.toNat ≤ 61)) ∧
      (c.opcode = 0x2C#8 → 1 ≤ c.imm8.toNat ∧ c.imm8.toNat ≤ 31) ∧
      (c.opcode = 0x38#8 → c.imm8.toNat ≤ 3) ∧
      (c.opcode = 0x17#8 → CmdWord.rd c ≠ CmdWord.rs3 c)) ∧
  (∀ (c : CmdWord) (r r' : OpcodeRow), r ∈ opcodeMap → r' ∈ opcodeMap → r.fits c = true → r'.fits c = true → r = r')

/-- R77: words written out from the encodings, one or two of each family, decode to the commands they stand for. -/
def Obligations.SampleWordsDecode : Prop :=
  decode 0x01100000#32 = .ok (.wrv 1) ∧ decode 0x0410003D#32 = .ok (.ldc 1 61) ∧
    decode 0x10312000#32 = .ok (.add 3 1 2) ∧ decode 0x17312400#32 = .ok (.divrem 3 4 1 2) ∧
    decode 0x2C31201F#32 = .ok (.approx 3 1 2 31) ∧ decode 0x33534000#32 = .ok (.pow 5 3 4) ∧
    decode 0x38000003#32 = .ok (.rdcsr 3) ∧ decode 0x3A000000#32 = .ok .nop

/-! ## The step and the common prologue -/

/-- R78: when the host's next event is a transaction whose word decodes and which is not skipped, the step is that command
on the state with the transaction latched. -/
def Obligations.StepRunsTheDecodedCommand : Prop :=
  ∀ (s : State) (cmd : CmdWord) (w : Word) (rest : List HostEvent) (i : Instr),
    s.host = .command cmd w :: rest →
    (s.faulted = false ∨ cmd.opcode = 0x02#8 ∨ cmd.opcode = 0x38#8 ∨ cmd.opcode = 0x39#8) →
    decode cmd = .ok i →
    step s = exec i { s with host := rest, cmd := cmd, wdata := w }

/-- R282: while FAULTED every command but RDV, RDCSR and CLRF is skipped, legal or not: the response is (15, 0) and nothing
of the unit changes but `CC`. -/
def Obligations.FaultedUnitSkips : Prop :=
  ∀ (s : State) (cmd : CmdWord) (w : Word) (rest : List HostEvent),
    s.host = .command cmd w :: rest → s.faulted = true →
    cmd.opcode ≠ 0x02#8 → cmd.opcode ≠ 0x38#8 → cmd.opcode ≠ 0x39#8 →
    step s = .next { s with host := rest, cmd := cmd, wdata := w, response := some ⟨15, 0⟩, cc := s.cc + 1 }

/-- R79, R279, R283: a word that is no legal command and is not skipped raises IllegalCommand, in either state of the unit:
the record is written, no value register changes. -/
def Obligations.IllegalWordRaisesIllegalCommand : Prop :=
  ∀ (s : State) (cmd : CmdWord) (w : Word) (rest : List HostEvent),
    s.host = .command cmd w :: rest →
    (s.faulted = false ∨ cmd.opcode = 0x02#8 ∨ cmd.opcode = 0x38#8 ∨ cmd.opcode = 0x39#8) →
    (∀ i, decode cmd ≠ .ok i) →
    ∃ t, step s = .next t ∧ t.x = s.x ∧ statusF t.status = true ∧ statusCause t.status = 8 ∧ t.fcmd = cmd ∧
      t.fcc = s.cc ∧ t.cc = s.cc + 1 ∧ t.response = some ⟨8, 0⟩ ∧ t.host = rest

/-- R38, R310: the reset state, and the state after the host asserts reset in any state: every value register ZERO, every
control register 0. -/
def Obligations.ResetRestoresEveryRegister : Prop :=
  (∀ r, State.reset.reg r = 0x0000000080000000#64) ∧ State.reset.status = 0 ∧ State.reset.fcmd = 0 ∧
    State.reset.fcc = 0 ∧ State.reset.cc = 0 ∧ State.reset.faulted = false ∧
  ∀ (s : State) (rest : List HostEvent), s.host = .reset :: rest →
    ∃ t, step s = .next t ∧ (∀ r, t.reg r = 0x0000000080000000#64) ∧ t.status = 0 ∧ t.fcmd = 0 ∧ t.fcc = 0 ∧
      t.cc = 0 ∧ t.host = rest

/-- R31, R57, R72: every transaction, whatever its words and the state, is answered with a next state, is counted once and
gets a response, and leaves the host's further events alone; and without an event the unit keeps all its state (R299; that
this is a step of its own is the model's choice, log 1). -/
def Obligations.EveryTransactionIsAnsweredAndCounted : Prop :=
  (∀ (s : State) (cmd : CmdWord) (w : Word) (rest : List HostEvent), s.host = .command cmd w :: rest →
    ∃ t r, step s = .next t ∧ t.cc = s.cc + 1 ∧ t.response = some r ∧ t.host = rest) ∧
  (∀ s : State, s.host = [] → step s = .next s)

/-- R280: whatever command answers with a status other than OK has done fault entry and nothing else: no value register is
written; F, CAUSE, FCMD and FCC record the status, the word and the index; the data word is 0. -/
def Obligations.FaultsArePrecise : Prop :=
  ∀ (i : Instr) (s t : State) (r : Response), exec i s = .next t → t.response = some r → r.status ≠ 0 →
    t = { s with status := setCause r.status (setF true s.status), fcmd := s.cmd, fcc := s.cc,
                 response := some ⟨r.status, 0⟩, cc := s.cc + 1 }

/-- R26, R34, R70, R198, R252: what a command that completes leaves unchanged: every register that is not a destination of
it, FCMD and FCC, STATUS (but for CLRF), the interface; and its data word is 0 unless it is RDV or RDCSR. -/
def Obligations.CompletedCommandsWriteOnlyTheirDestinations : Prop :=
  ∀ (i : Instr) (s t : State) (r : Response), exec i s = .next t → t.response = some r → r.status = 0 →
    (∀ q, q ∉ destinations i → t.reg q = s.reg q) ∧ t.fcmd = s.fcmd ∧ t.fcc = s.fcc ∧ t.cc = s.cc + 1 ∧
      (i ≠ .clrf → t.status = s.status) ∧ t.host = s.host ∧ t.cmd = s.cmd ∧ t.wdata = s.wdata ∧
      ((∀ q, i ≠ .rdv q) → (∀ n, i ≠ .rdcsr n) → r.rdata = 0)

/-- R252, R282, R284: only CLRF, correctly encoded, and reset leave the FAULTED state. -/
def Obligations.OnlyClrfOrResetLeavesFaulted : Prop :=
  ∀ s t : State, s.faulted = true → step s = .next t → t.faulted = false →
    (∃ rest, s.host = .reset :: rest) ∨ (∃ w rest, s.host = .command 0x39000000#32 w :: rest)

/-- R70: the data word of a transaction whose opcode is not that of WRV has no effect. -/
def Obligations.DataWordMattersToWrvOnly : Prop :=
  ∀ (s : State) (cmd : CmdWord) (w w' : Word) (rest : List HostEvent), cmd.opcode ≠ 0x01#8 →
    sameNext (step { s with host := .command cmd w :: rest }) (step { s with host := .command cmd w' :: rest })

/-- R36: the response and the results of a command are a function of its word, the data word and the registers it reads
(RDCSR apart, which reads a control register): no other state, no history. -/
def Obligations.ResultsDependOnTheOperandsOnly : Prop :=
  ∀ (i : Instr) (s u t v : State), (∀ r ∈ sources i, s.reg r = u.reg r) → s.wdata = u.wdata →
    (∀ n, i ≠ .rdcsr n) → exec i s = .next t → exec i u = .next v →
    t.response = v.response ∧
      (t.response = some ⟨0, 0⟩ → ∀ r ∈ destinations i, t.reg r = v.reg r)

/-! ## Faults -/

/-- R280: what fault entry leaves in every part of the state. -/
def Obligations.FaultEntryRecordsTheFault : Prop :=
  ∀ (c : Cause) (s : State),
    (∀ r, (takeFault c s).reg r = s.reg r) ∧ statusF (takeFault c s).status = true ∧
      statusCause (takeFault c s).status = c.code ∧
      (∀ n, n ≠ 0 → n < 4 ∨ 8 ≤ n → (takeFault c s).status.getLsbD n = s.status.getLsbD n) ∧
      (takeFault c s).fcmd = s.cmd ∧ (takeFault c s).fcc = s.cc ∧ (takeFault c s).cc = s.cc + 1 ∧
      (takeFault c s).response = some ⟨c.code, 0⟩ ∧ (takeFault c s).host = s.host

/-- R31, R70, R78: what writing a register and completing leaves in every part of the state. -/
def Obligations.CompletingWritesOneRegister : Prop :=
  ∀ (s : State) (rd : Reg) (w d : Word),
    (∀ r, ((s.setReg rd w).complete d).reg r = if r = rd then w else s.reg r) ∧
      (∀ r, (s.complete d).reg r = s.reg r) ∧
      (s.setReg rd w).complete d =
        { s with x := (s.setReg rd w).x, response := some ⟨0, d⟩, cc := s.cc + 1 } ∧
      s.complete d = { s with response := some ⟨0, d⟩, cc := s.cc + 1 }

/-- R181, R273 to R278: a legal command raises only the causes the spec gives it. -/
def Obligations.RaisedCauseBelongsToTheCommand : Prop :=
  ∀ (i : Instr) (s t : State) (c : Cause) (d : Word), WellFormed i = true → exec i s = .next t →
    t.response = some ⟨c.code, d⟩ → c ∈ mayRaise i

/-- R26, R28, R78, R278, R285: a command with a scaled operand that is not canonical raises InvalidOperand, before any fault of
its own; and with canonical operands it never does. -/
def Obligations.NonCanonicalOperandRaisesInvalidOperand : Prop :=
  ∀ (i : Instr) (s : State), WellFormed i = true →
    ((∃ r ∈ scaledSources i, isCanon (s.reg r) = false) → exec i s = .next (takeFault .invalidOperand s)) ∧
    ((∀ r ∈ scaledSources i, isCanon (s.reg r) = true) →
      ∀ t d, exec i s = .next t → t.response ≠ some ⟨7, d⟩)

/-- R32, R38: the reset state has the invariant. -/
def Obligations.InvariantHoldsAtReset : Prop := Inv State.reset

/-- R32, R34, R71, R272, R279, R280: every step keeps the invariant: the reserved bits of STATUS stay 0, the fault record is
always one fault entry can have written, with a cause the recorded command can raise, and every response is legal. -/
def Obligations.EveryStepKeepsTheInvariant : Prop :=
  ∀ s t : State, Inv s → step s = .next t → Inv t

/-- R183: the result of every command with a scaled destination is canonical. -/
def Obligations.ScaledResultsAreCanonical : Prop :=
  ∀ (i : Instr) (s t : State) (d : Word), exec i s = .next t → t.response = some ⟨0, d⟩ →
    ∀ r ∈ scaledDestinations i, isCanon (t.reg r) = true

/-! ## System commands -/

/-- R251, R252, R253: RDCSR answers with the control register as it stands before the command is counted, reserved bits of
STATUS as 0; CLRF clears F and keeps everything else; NOP does nothing. This is `exec`, which ignores F (log 8): NOP is
skipped while FAULTED. That the term of a number above 3, which no word decodes to, takes IllegalCommand is the model's
choice (log 7). -/
def Obligations.SystemCommandsComplete : Prop :=
  ∀ s : State,
    exec (.rdcsr 0) s = .next (s.complete ((s.status &&& 0xF1#32).setWidth 64)) ∧
    exec (.rdcsr 1) s = .next (s.complete (s.fcmd.setWidth 64)) ∧
    exec (.rdcsr 2) s = .next (s.complete s.fcc) ∧
    exec (.rdcsr 3) s = .next (s.complete s.cc) ∧
    (∀ n : Imm8, 3 < n.toNat → exec (.rdcsr n) s = .next (takeFault .illegalCommand s)) ∧
    (∃ st, exec .clrf s = .next ({ s with status := st }.complete 0) ∧ statusF st = false ∧
      ∀ n, n ≠ 0 → st.getLsbD n = s.status.getLsbD n) ∧
    exec .nop s = .next (s.complete 0)

/-! ## Codec -/

/-- R110, R111, R112: WRV stores the data word, RDV answers with the register, MOV copies; no word is checked. This is
`exec`, which ignores F (log 8): WRV and MOV are skipped while FAULTED. -/
def Obligations.WordMovesComplete : Prop :=
  ∀ (s : State) (rd rs1 : Reg),
    exec (.wrv rd) s = .next ((s.setReg rd s.wdata).complete 0) ∧
    exec (.rdv rs1) s = .next (s.complete (s.reg rs1)) ∧
    exec (.mov rd rs1) s = .next ((s.setReg rd (s.reg rs1)).complete 0)

/-- R113, R114, R232: the words of the constants as the spec tabulates them; LDC loads the word of its index, which is
canonical. That the term of any other index, which no word decodes to, takes IllegalCommand is the model's choice (log 7). -/
def Obligations.LdcLoadsTheConstant : Prop :=
  namedConstants = [
    0x0000000080000000#64, 0x40000000FFFFFFE2#64, 0x40000000FFFFFFE3#64, 0x50000000FFFFFFE5#64, 0x6487ED51FFFFFFE3#64,
    0x56FC2A2CFFFFFFE3#64, 0x678DDE6EFFFFFFE2#64] ∧
  pow10Table = [
    0x50000000FFFFFFE5#64, 0x64000000FFFFFFE8#64, 0x4E200000FFFFFFEF#64, 0x5F5E1000FFFFFFFC#64, 0x470DE4DF00000017#64,
    0x4EE2D6D40000004C#64, 0x613C0FA4000000B6#64, 0x49DD23E40000018B#64, 0x553F75FD00000334#64, 0x718CD05700000686#64,
    0x64BB3AC300000D2B#64, 0x4F459DAE00001A75#64, 0x6230290100003508#64, 0x4B51D0E800006A2F#64, 0x58A42A380000D47C#64,
    0x7AC519350001A916#64, 0x75C0E78C0003524B#64, 0x6C53CA050006A4B5#64, 0x5BAD9BC3000D4989#64, 0x41A9C4F1001A9331#64,
    0x435E9A6100352680#64, 0x46EA9F12006A4D1E#64, 0x4E94981400D49A5A#64, 0x607B8BB301A934D2#64, 0x48B9C8CD035269C3#64,
    0x52A41F1C06A4D3A4#64, 0x6AB634980D49A766#64, 0x58F6CA7A1A934EEB#64, 0x7BAA647835269DF4#64, 0x777A5BEB6A4D3C07#64] ∧
  ∀ (s : State) (rd : Reg) (k : Imm8),
    (k.toNat ≤ 6 → ∃ w, namedConstants[k.toNat]? = some w ∧ isCanon w = true ∧
      exec (.ldc rd k) s = .next ((s.setReg rd w).complete 0)) ∧
    (32 ≤ k.toNat → k.toNat ≤ 61 → ∃ w, pow10Table[k.toNat - 32]? = some w ∧ isCanon w = true ∧
      exec (.ldc rd k) s = .next ((s.setReg rd w).complete 0)) ∧
    (6 < k.toNat → k.toNat < 32 ∨ 61 < k.toNat → exec (.ldc rd k) s = .next (takeFault .illegalCommand s))

/-- R100, R101: NORM writes the normalized word of its two raw integers, or raises Overflow. -/
def Obligations.NormCompletesOrOverflows : Prop :=
  ∀ (s : State) (rd rs1 rs2 : Reg),
    writesNormalized (exec (.norm rd rs1 rs2) s) s rd (s.reg rs1).toInt (s.reg rs2).toInt

/-- R100, R102: a normalized word is the canonical word of the value, low bits dropped toward minus infinity, and is zero for
significand 0 only; and Overflow means that no canonical word other than zero has the value within one unit of its last place. -/
def Obligations.NormalizeIsTheCanonicalFloor : Prop :=
  ∀ S E : Int,
    (∀ w, normalize S E = .ok w → isCanon w = true ∧ (S = 0 → w = 0x0000000080000000#64) ∧
      (S ≠ 0 → sig w ≠ 0 ∧ val w ≤ (S : ℚ) * 2 ^ E ∧ (S : ℚ) * 2 ^ E < val w + 2 ^ expo w)) ∧
    (∀ c, normalize S E = .error c → c = .overflow ∧
      ∀ w, isCanon w = true → sig w ≠ 0 → ¬ (val w ≤ (S : ℚ) * 2 ^ E ∧ (S : ℚ) * 2 ^ E < val w + 2 ^ expo w))

/-- R102 items 2 and 4: normalizing a canonical pair gives the pair, and depends on the value of the pair alone. -/
def Obligations.NormalizeDependsOnTheValue : Prop :=
  (∀ w, isCanon w = true → normalize (sig w) (expo w) = .ok w) ∧
    ∀ (S E : Int) (j : Nat), normalize (S * 2 ^ j) (E - j) = normalize S E

/-- R120, R121: both conversions from integers complete for every register content; FROMI64 cuts low bits toward minus
infinity, FROMI32 uses the low half of the register and is exact. -/
def Obligations.FromIntegersComplete : Prop :=
  ∀ (s : State) (rd rs1 : Reg),
    (∃ w, exec (.fromi64 rd rs1) s = .next ((s.setReg rd w).complete 0) ∧ isCanon w = true ∧
      val w ≤ ((s.reg rs1).toInt : ℚ) ∧ ((s.reg rs1).toInt : ℚ) < val w + 2 ^ expo w ∧
      ((s.reg rs1).toInt ≠ 0 → -31 ≤ expo w ∧ expo w ≤ 32)) ∧
    (∃ w, exec (.fromi32 rd rs1) s = .next ((s.setReg rd w).complete 0) ∧ isCanon w = true ∧
      val w = (((s.reg rs1).setWidth 32).toInt : ℚ))

/-- R122, R123, R124, R276: the conversions to integers complete exactly when the value is an integer of the target range,
and write it, sign-extended; otherwise they raise RangeError. -/
def Obligations.ToIntegersAreExactOrRangeError : Prop :=
  ∀ (s : State) (rd rs1 : Reg), isCanon (s.reg rs1) = true →
    (∀ v : Int, val (s.reg rs1) = v → -2 ^ 63 ≤ v → v ≤ 2 ^ 63 - 1 →
      exec (.toi64 rd rs1) s = .next ((s.setReg rd (BitVec.ofInt 64 v)).complete 0)) ∧
    ((∀ v : Int, val (s.reg rs1) = v → ¬ (-2 ^ 63 ≤ v ∧ v ≤ 2 ^ 63 - 1)) →
      exec (.toi64 rd rs1) s = .next (takeFault .rangeError s)) ∧
    (∀ v : Int, val (s.reg rs1) = v → -2 ^ 31 ≤ v → v ≤ 2 ^ 31 - 1 →
      exec (.toi32 rd rs1) s = .next ((s.setReg rd (BitVec.ofInt 64 v)).complete 0)) ∧
    ((∀ v : Int, val (s.reg rs1) = v → ¬ (-2 ^ 31 ≤ v ∧ v ≤ 2 ^ 31 - 1)) →
      exec (.toi32 rd rs1) s = .next (takeFault .rangeError s))

/-- R129, R130, R275: FROMF64 completes for every finite double, zero and subnormals included, with the canonical floor of
its value, and raises DomainError for infinities and NaNs. -/
def Obligations.FromDoubleCompletesOnFiniteDoubles : Prop :=
  ∀ (s : State) (rd rs1 : Reg),
    (f64Biased (s.reg rs1) ≠ 0x7FF → ∃ w, exec (.fromf64 rd rs1) s = .next ((s.setReg rd w).complete 0) ∧
      isCanon w = true ∧ val w ≤ (f64Mantissa (s.reg rs1) : ℚ) * 2 ^ f64Exponent (s.reg rs1) ∧
      (f64Mantissa (s.reg rs1) : ℚ) * 2 ^ f64Exponent (s.reg rs1) < val w + 2 ^ expo w) ∧
    (f64Biased (s.reg rs1) = 0x7FF → exec (.fromf64 rd rs1) s = .next (takeFault .domainError s))

/-- R131: TOF64 completes for every canonical operand. Zero is +0.0; above the range the result is infinity with the sign;
in the normal range the result has the exponent of the value, and exactly its value;
below the normal range the fraction is the magnitude in units of 2^-1074, low bits dropped, with the sign kept. -/
def Obligations.ToDoubleSaturatesAndTruncates : Prop :=
  ∀ (s : State) (rd rs1 : Reg), isCanon (s.reg rs1) = true →
    ∃ d, exec (.tof64 rd rs1) s = .next ((s.setReg rd d).complete 0) ∧
      (sig (s.reg rs1) = 0 → d = 0) ∧
      (sig (s.reg rs1) ≠ 0 → f64Sign d = decide (sig (s.reg rs1) < 0)) ∧
      (1024 ≤ expo (s.reg rs1) + (sig (s.reg rs1)).natAbs.log2 → f64Biased d = 0x7FF ∧ f64Fraction d = 0) ∧
      (sig (s.reg rs1) ≠ 0 → -1022 ≤ expo (s.reg rs1) + (sig (s.reg rs1)).natAbs.log2 →
        expo (s.reg rs1) + (sig (s.reg rs1)).natAbs.log2 ≤ 1023 →
        (f64Biased d : ℤ) = expo (s.reg rs1) + (sig (s.reg rs1)).natAbs.log2 + 1023 ∧
        (f64Mantissa d : ℚ) * 2 ^ f64Exponent d = val (s.reg rs1)) ∧
      (sig (s.reg rs1) ≠ 0 → expo (s.reg rs1) + (sig (s.reg rs1)).natAbs.log2 ≤ -1023 →
        f64Biased d = 0 ∧ (f64Fraction d : ℚ) ≤ |val (s.reg rs1)| * 2 ^ 1074 ∧
        |val (s.reg rs1)| * 2 ^ 1074 < (f64Fraction d : ℚ) + 1)

/-- R130, R131: in the normal range of doubles converting there and back gives the same word. -/
def Obligations.DoublesRoundTripInTheNormalRange : Prop :=
  ∀ a : Word, isCanon a = true → sig a ≠ 0 → -1022 ≤ expo a + (sig a).natAbs.log2 →
    expo a + (sig a).natAbs.log2 ≤ 1023 → FROMF64 (TOF64 a) = .ok a

/-! ## Arithmetic -/

/-- R140: ADD. An operand 32 or more binades below the other is dropped; otherwise the lesser significand is shifted down,
toward minus infinity, and the sum normalized at the greater exponent. -/
def Obligations.AddCompletesOrOverflows : Prop :=
  ∀ (s : State) (rd rs1 rs2 : Reg) (a b : Word), s.reg rs1 = a → s.reg rs2 = b →
    isCanon a = true → isCanon b = true →
    (32 ≤ expo a - expo b → exec (.add rd rs1 rs2) s = .next ((s.setReg rd a).complete 0)) ∧
    (expo a - expo b ≤ -32 → exec (.add rd rs1 rs2) s = .next ((s.setReg rd b).complete 0)) ∧
    (0 ≤ expo a - expo b → expo a - expo b < 32 →
      writesNormalized (exec (.add rd rs1 rs2) s) s rd (sig a + sig b / 2 ^ (expo a - expo b).toNat) (expo a)) ∧
    (-32 < expo a - expo b → expo a - expo b < 0 →
      writesNormalized (exec (.add rd rs1 rs2) s) s rd (sig a / 2 ^ (expo b - expo a).toNat + sig b) (expo b))

/-- R140 corner case 5: ADD is commutative bit for bit, faults included. -/
def Obligations.AddIsCommutative : Prop := ∀ a b : Word, ADD a b = ADD b a

/-- R141: SUB. A zero or dropped receiver gives the negation of the other operand. -/
def Obligations.SubCompletesOrOverflows : Prop :=
  ∀ (s : State) (rd rs1 rs2 : Reg) (a b : Word), s.reg rs1 = a → s.reg rs2 = b →
    isCanon a = true → isCanon b = true →
    (sig a = 0 → writesNormalized (exec (.sub rd rs1 rs2) s) s rd (-sig b) (expo b)) ∧
    (sig a ≠ 0 → 32 ≤ expo a - expo b → exec (.sub rd rs1 rs2) s = .next ((s.setReg rd a).complete 0)) ∧
    (expo a - expo b ≤ -32 → writesNormalized (exec (.sub rd rs1 rs2) s) s rd (-sig b) (expo b)) ∧
    (sig a ≠ 0 → 0 ≤ expo a - expo b → expo a - expo b < 32 →
      writesNormalized (exec (.sub rd rs1 rs2) s) s rd (sig a - sig b / 2 ^ (expo a - expo b).toNat) (expo a)) ∧
    (sig a ≠ 0 → -32 < expo a - expo b → expo a - expo b < 0 →
      writesNormalized (exec (.sub rd rs1 rs2) s) s rd (sig a / 2 ^ (expo b - expo a).toNat - sig b) (expo b))

/-- R141 corner cases 1 and 2: subtracting zero gives the operand, subtracting a value from itself gives zero. -/
def Obligations.SubtractingZeroOrItself : Prop :=
  ∀ a : Word, isCanon a = true → SUB a ZERO = .ok a ∧ SUB a a = .ok ZERO

/-- R143: for `offset = 2^k`, the word `(0x40000000, k - 30)`, adding it to itself gives `2 × offset` and subtracting it
again restores the original word, for every `k` for which both words exist. -/
def Obligations.AddThenSubRestoresTheOffset : Prop :=
  ∀ k : Int, expMin ≤ k - 30 → k - 29 ≤ expMax →
    ADD (pack 0x40000000 (k - 30)) (pack 0x40000000 (k - 30)) = .ok (pack 0x40000000 (k - 29)) ∧
      val (pack 0x40000000 (k - 29)) = 2 * val (pack 0x40000000 (k - 30)) ∧
      SUB (pack 0x40000000 (k - 29)) (pack 0x40000000 (k - 30)) = .ok (pack 0x40000000 (k - 30))

/-- R145, R150, R155, R274: MUL, DIV and MULDIV. Products are exact, quotients rounded toward zero, and the result is
normalized; a zero divisor is DivisionByZero whatever the other operands are. -/
def Obligations.ProductsAndQuotientsComplete : Prop :=
  ∀ (s : State) (rd rs1 rs2 rs3 : Reg) (a b c : Word), s.reg rs1 = a → s.reg rs2 = b → s.reg rs3 = c →
    isCanon a = true → isCanon b = true →
    writesNormalized (exec (.mul rd rs1 rs2) s) s rd (sig a * sig b) (expo a + expo b) ∧
    (sig b ≠ 0 → writesNormalized (exec (.div rd rs1 rs2) s) s rd ((sig a * 2 ^ 32).tdiv (sig b))
      (expo a - expo b - 32)) ∧
    (sig b = 0 → exec (.div rd rs1 rs2) s = .next (takeFault .divisionByZero s)) ∧
    (isCanon c = true → sig c ≠ 0 → writesNormalized (exec (.muldiv rd rs1 rs2 rs3) s) s rd
      ((sig a * sig b).tdiv (sig c)) (expo a + expo b - expo c)) ∧
    (isCanon c = true → sig c = 0 → exec (.muldiv rd rs1 rs2 rs3) s = .next (takeFault .divisionByZero s))

/-- R145 corner cases 1, 4 and 5, R150 corner cases 1 and 4: zero, one and the operand itself in products and quotients. -/
def Obligations.MultiplicativeIdentities : Prop :=
  ∀ a b : Word, isCanon a = true →
    MUL a b = MUL b a ∧ MUL a ONE = .ok a ∧ MUL ZERO a = .ok ZERO ∧ DIV a ONE = .ok a ∧
      (sig a ≠ 0 → DIV a a = .ok ONE ∧ DIV ZERO a = .ok ZERO)

/-- R160, R161 items 1 to 3: the truncated quotient is zero exactly when the dividend is smaller in magnitude than the
divisor. When it is not zero, dividend = quotient × divisor + remainder exactly, the remainder is smaller in magnitude than
the divisor and zero or of the dividend's sign, the quotient is at most 2^32 in magnitude, and normalizing the remainder
loses nothing. -/
def Obligations.DivRemIsTruncatedDivision : Prop :=
  ∀ a b : Word, isCanon a = true → isCanon b = true → sig b ≠ 0 → expo a - expo b < 32 →
    (truncQuotient a b = 0 ↔ |val a| < |val b|) ∧
    (truncQuotient a b ≠ 0 →
      val a = (truncQuotient a b : ℚ) * val b + (remainderInt a b : ℚ) * 2 ^ min (expo a) (expo b) ∧
        |(remainderInt a b : ℚ) * 2 ^ min (expo a) (expo b)| < |val b| ∧
        (remainderInt a b = 0 ∨ (0 < remainderInt a b ↔ 0 < sig a)) ∧ (truncQuotient a b).natAbs ≤ 2 ^ 32 ∧
        (fits (remainderInt a b) (min (expo a) (expo b)) = true →
          val (normWord (remainderInt a b) (min (expo a) (expo b))) =
            (remainderInt a b : ℚ) * 2 ^ min (expo a) (expo b)))

/-- R160, R166, R167, R168, R274: DIVINT, REM and DIVREM write quotient and remainder of one shared division: a quotient
without fractional bits and remainder zero; quotient zero and the dividend itself; or the truncated quotient and the exact
remainder. They overflow together, and a zero divisor is DivisionByZero. -/
def Obligations.IntegralDivisionCompletes : Prop :=
  ∀ (s : State) (rd rd2 rs1 rs2 : Reg) (a b : Word), s.reg rs1 = a → s.reg rs2 = b → rd ≠ rd2 →
    isCanon a = true → isCanon b = true →
    (∀ q r : Word,
      (sig b ≠ 0 ∧ 32 ≤ expo a - expo b ∧
          fits ((sig a * 2 ^ 32).tdiv (sig b)) (expo a - expo b - 32) = true ∧
          q = normWord ((sig a * 2 ^ 32).tdiv (sig b)) (expo a - expo b - 32) ∧ r = ZERO) ∨
        (sig b ≠ 0 ∧ expo a - expo b < 32 ∧ truncQuotient a b = 0 ∧ q = ZERO ∧ r = a) ∨
        (sig b ≠ 0 ∧ expo a - expo b < 32 ∧ truncQuotient a b ≠ 0 ∧
          fits (remainderInt a b) (min (expo a) (expo b)) = true ∧ q = normWord (truncQuotient a b) 0 ∧
          r = normWord (remainderInt a b) (min (expo a) (expo b))) →
      exec (.divint rd rs1 rs2) s = .next ((s.setReg rd q).complete 0) ∧
        exec (.rem rd rs1 rs2) s = .next ((s.setReg rd r).complete 0) ∧
        exec (.divrem rd rd2 rs1 rs2) s = .next (((s.setReg rd q).setReg rd2 r).complete 0)) ∧
    (sig b ≠ 0 →
      (32 ≤ expo a - expo b ∧ fits ((sig a * 2 ^ 32).tdiv (sig b)) (expo a - expo b - 32) = false) ∨
        (expo a - expo b < 32 ∧ truncQuotient a b ≠ 0 ∧
          fits (remainderInt a b) (min (expo a) (expo b)) = false) →
      exec (.divint rd rs1 rs2) s = .next (takeFault .overflow s) ∧
        exec (.rem rd rs1 rs2) s = .next (takeFault .overflow s) ∧
        exec (.divrem rd rd2 rs1 rs2) s = .next (takeFault .overflow s)) ∧
    (sig b = 0 →
      exec (.divint rd rs1 rs2) s = .next (takeFault .divisionByZero s) ∧
        exec (.rem rd rs1 rs2) s = .next (takeFault .divisionByZero s) ∧
        exec (.divrem rd rd2 rs1 rs2) s = .next (takeFault .divisionByZero s))

/-- R170, R171: NEG and ABS are exact, and overflow only at the named ends of the exponent range. -/
def Obligations.NegateAndAbsAreExact : Prop :=
  ∀ (s : State) (rd rs1 : Reg) (a : Word), s.reg rs1 = a → isCanon a = true →
    (¬ (sig a = -2 ^ 31 ∧ expo a = expMax) → ¬ (sig a = 2 ^ 30 ∧ expo a = expMin) →
      ∃ w, exec (.neg rd rs1) s = .next ((s.setReg rd w).complete 0) ∧ isCanon w = true ∧ val w = -val a) ∧
    ((sig a = -2 ^ 31 ∧ expo a = expMax) ∨ (sig a = 2 ^ 30 ∧ expo a = expMin) →
      exec (.neg rd rs1) s = .next (takeFault .overflow s)) ∧
    (¬ (sig a = -2 ^ 31 ∧ expo a = expMax) →
      ∃ w, exec (.abs rd rs1) s = .next ((s.setReg rd w).complete 0) ∧ isCanon w = true ∧ val w = |val a|) ∧
    (sig a = -2 ^ 31 ∧ expo a = expMax → exec (.abs rd rs1) s = .next (takeFault .overflow s))

/-- R170 corner case 5: negating twice restores the word. -/
def Obligations.NegationIsAnInvolution : Prop :=
  ∀ a b : Word, isCanon a = true → NEG a = .ok b → NEG b = .ok a

/-- R172, R173: SHL and SHR change only the exponent, by the raw signed count; zero stays zero for every count. -/
def Obligations.ExponentShiftsComplete : Prop :=
  ∀ (s : State) (rd rs1 rs2 : Reg) (a : Word) (n : Int), s.reg rs1 = a → (s.reg rs2).toInt = n → isCanon a = true →
    (sig a = 0 → exec (.shl rd rs1 rs2) s = .next ((s.setReg rd ZERO).complete 0) ∧
      exec (.shr rd rs1 rs2) s = .next ((s.setReg rd ZERO).complete 0)) ∧
    (sig a ≠ 0 → expMin ≤ expo a + n → expo a + n ≤ expMax →
      exec (.shl rd rs1 rs2) s = .next ((s.setReg rd (pack (sig a) (expo a + n))).complete 0)) ∧
    (sig a ≠ 0 → expo a + n < expMin ∨ expMax < expo a + n →
      exec (.shl rd rs1 rs2) s = .next (takeFault .overflow s)) ∧
    (sig a ≠ 0 → expMin ≤ expo a - n → expo a - n ≤ expMax →
      exec (.shr rd rs1 rs2) s = .next ((s.setReg rd (pack (sig a) (expo a - n))).complete 0)) ∧
    (sig a ≠ 0 → expo a - n < expMin ∨ expMax < expo a - n →
      exec (.shr rd rs1 rs2) s = .next (takeFault .overflow s))

/-- R174, R175: FLOOR is the mathematical floor and ROUND the floor of the value plus one half, for every canonical
operand; neither can fault. -/
def Obligations.FloorAndRoundAreMathematical : Prop :=
  ∀ (s : State) (rd rs1 : Reg), isCanon (s.reg rs1) = true →
    (∃ w, exec (.floor rd rs1) s = .next ((s.setReg rd w).complete 0) ∧ isCanon w = true ∧
      val w = ⌊val (s.reg rs1)⌋) ∧
    (∃ w, exec (.round rd rs1) s = .next ((s.setReg rd w).complete 0) ∧ isCanon w = true ∧
      val w = ⌊val (s.reg rs1) + 1 / 2⌋)

/-- R176, R277, R78 step 3: ROUNDTO raises Unimplemented whatever the registers hold, before it looks at one. This is `exec`,
which ignores F (log 8): ROUNDTO is skipped while FAULTED. -/
def Obligations.RoundtoIsUnimplemented : Prop :=
  ∀ (s : State) (rd rs1 rs2 : Reg), ∃ t, exec (.roundto rd rs1 rs2) s = .next t ∧ t.x = s.x ∧
    statusF t.status = true ∧ statusCause t.status = 5 ∧ t.fcmd = s.cmd ∧ t.fcc = s.cc ∧ t.cc = s.cc + 1 ∧
    t.response = some ⟨5, 0⟩

/-- R178, R179: MIN and MAX write the chosen operand's bits, by the lexicographic order. -/
def Obligations.MinimumAndMaximumComplete : Prop :=
  ∀ (s : State) (rd rs1 rs2 : Reg) (a b : Word), s.reg rs1 = a → s.reg rs2 = b →
    isCanon a = true → isCanon b = true →
    (¬ lexBelow b a → exec (.min rd rs1 rs2) s = .next ((s.setReg rd a).complete 0) ∧
      exec (.max rd rs1 rs2) s = .next ((s.setReg rd b).complete 0)) ∧
    (lexBelow b a → exec (.min rd rs1 rs2) s = .next ((s.setReg rd b).complete 0) ∧
      exec (.max rd rs1 rs2) s = .next ((s.setReg rd a).complete 0))

/-! ## Comparison -/

/-- R190 to R194: CMP, EQ, LT and GT write their answer as a raw integer, by the lexicographic order of exponent and
significand; EQ compares the words. -/
def Obligations.ComparisonsComplete : Prop :=
  ∀ (s : State) (rd rs1 rs2 : Reg) (a b : Word), s.reg rs1 = a → s.reg rs2 = b →
    isCanon a = true → isCanon b = true →
    (lexBelow a b → exec (.cmp rd rs1 rs2) s = .next ((s.setReg rd 0xFFFFFFFFFFFFFFFF#64).complete 0) ∧
      exec (.lt rd rs1 rs2) s = .next ((s.setReg rd 1).complete 0)) ∧
    (lexBelow b a → exec (.cmp rd rs1 rs2) s = .next ((s.setReg rd 1).complete 0) ∧
      exec (.gt rd rs1 rs2) s = .next ((s.setReg rd 1).complete 0)) ∧
    (a = b → exec (.cmp rd rs1 rs2) s = .next ((s.setReg rd 0).complete 0) ∧
      exec (.eq rd rs1 rs2) s = .next ((s.setReg rd 1).complete 0)) ∧
    (a ≠ b → exec (.eq rd rs1 rs2) s = .next ((s.setReg rd 0).complete 0)) ∧
    (¬ lexBelow a b → exec (.lt rd rs1 rs2) s = .next ((s.setReg rd 0).complete 0)) ∧
    (¬ lexBelow b a → exec (.gt rd rs1 rs2) s = .next ((s.setReg rd 0).complete 0))

/-- R197: for canonical operands exactly one of LT, EQ, GT answers 1, and each answers 1 exactly when CMP answers -1, 0,
+1. -/
def Obligations.ComparisonsAreConsistent : Prop :=
  ∀ (s c l e g : State) (rd rs1 rs2 : Reg), isCanon (s.reg rs1) = true → isCanon (s.reg rs2) = true →
    exec (.cmp rd rs1 rs2) s = .next c → exec (.lt rd rs1 rs2) s = .next l → exec (.eq rd rs1 rs2) s = .next e →
    exec (.gt rd rs1 rs2) s = .next g →
    ((l.reg rd = 1 ∧ e.reg rd = 0 ∧ g.reg rd = 0) ∨ (l.reg rd = 0 ∧ e.reg rd = 1 ∧ g.reg rd = 0) ∨
        (l.reg rd = 0 ∧ e.reg rd = 0 ∧ g.reg rd = 1)) ∧
      (l.reg rd = 1 ↔ (c.reg rd).toInt = -1) ∧ (e.reg rd = 1 ↔ (c.reg rd).toInt = 0) ∧
      (g.reg rd = 1 ↔ (c.reg rd).toInt = 1)

/-- R23, R192: two canonical words have the same value only if they are the same word, and that is when `Cmp` is 0. -/
def Obligations.CanonicalWordsAreUnique : Prop :=
  ∀ a b : Word, isCanon a = true → isCanon b = true →
    (val a = val b ↔ a = b) ∧ (lexCmp a b = 0 ↔ a = b) ∧ lexCmp b a = -lexCmp a b

/-- R195: the range of the values of one exponent, either sign; where the lexicographic order is the order of the values and
where it never is, row by row. -/
def Obligations.WhereTheOrderIsNumeric : Prop :=
  ∀ a b : Word, isCanon a = true → isCanon b = true →
    (0 < sig a → 2 ^ (expo a + 30) ≤ val a ∧ val a < 2 ^ (expo a + 31)) ∧
    (sig a < 0 → -2 ^ (expo a + 31) ≤ val a ∧ val a < -2 ^ (expo a + 30)) ∧
    (0 ≤ sig a → 0 ≤ sig b → (lexCmp a b < 0 ↔ val a < val b)) ∧
    (sig a < 0 → sig b < 0 → expo a = expo b → (lexCmp a b < 0 ↔ val a < val b)) ∧
    (0 < sig a → sig b < 0 → expo b ≤ expo a → lexCmp a b = 1 ∧ val b < val a) ∧
    (sig a = 0 → sig b < 0 → lexCmp a b = -1 ∧ val b < val a) ∧
    (sig a < 0 → sig b < 0 → expo a < expo b → lexCmp a b = -1 ∧ val b < val a) ∧
    (0 < sig a → sig b < 0 → expo a < expo b → lexCmp a b = -1 ∧ val b < val a)

/-- R196: APPROX writes 1 when the significands, the first brought to the second's scale, are within `2^(31 - bits)`, ends
included, and 0 otherwise; never for exponents more than 1 apart, nor for non-zero operands of opposite signs. -/
def Obligations.ApproxCompletes : Prop :=
  ∀ (s : State) (rd rs1 rs2 : Reg) (bits : Imm8) (a o : Word), s.reg rs1 = a → s.reg rs2 = o →
    isCanon a = true → isCanon o = true → 1 ≤ bits.toNat → bits.toNat ≤ 31 →
    ∃ w, exec (.approx rd rs1 rs2 bits) s = .next ((s.setReg rd w).complete 0) ∧ (w = 0 ∨ w = 1) ∧
      (expo a = expo o → (w = 1 ↔ |sig a - sig o| ≤ 2 ^ (31 - bits.toNat))) ∧
      (expo a = expo o + 1 → (w = 1 ↔ |sig a * 2 - sig o| ≤ 2 ^ (31 - bits.toNat))) ∧
      (expo a = expo o - 1 → (w = 1 ↔ |sig a / 2 - sig o| ≤ 2 ^ (31 - bits.toNat))) ∧
      (1 < |expo a - expo o| → w = 0) ∧
      ((sig a < 0 ∧ 0 < sig o) ∨ (0 < sig a ∧ sig o < 0) → w = 0)

/-! ## Transcendental -/

/-- R212, R222: both kernels answer canonical positive words. The spec requires it on the kernels' domains; that it holds of
every other argument too is the model's totality (log 5). The projection that makes the kernels so changes no canonical
positive word, so every well-formed kernel is one of them (logs 3 and 4). -/
def Obligations.KernelsAreWellFormed : Prop :=
  (∀ g : BitVec 32, isCanon (log2Frac g) = true ∧ 0 < sig (log2Frac g)) ∧
    (∀ f : Word, isCanon (pow2Frac f) = true ∧ 0 < sig (pow2Frac f)) ∧
    ∀ w : Word, isCanon w = true → 0 < sig w → toPositive w = w

/-- R213, R214, R275: LOG2 writes the value of the function `LOG2`, or takes its fault. LOG2 and LOG2I raise DomainError for
zero and negative operands; LOG2I answers the integer logarithm; LOG2 of a power of two is the normalized integer, exact below 2^31 in magnitude; between 1 and 2 it is the kernel's word
itself, and otherwise the sum of both parts, with the faults of ADD. -/
def Obligations.LogarithmsComplete : Prop :=
  ∀ (s : State) (rd rs1 : Reg) (a : Word), s.reg rs1 = a → isCanon a = true →
    endsAs (exec (.log2 rd rs1) s) s rd (LOG2 a) ∧
    (sig a ≤ 0 → exec (.log2 rd rs1) s = .next (takeFault .domainError s) ∧
      exec (.log2i rd rs1) s = .next (takeFault .domainError s)) ∧
    (0 < sig a → exec (.log2i rd rs1) s = .next ((s.setReg rd (BitVec.ofInt 64 (expo a + 30))).complete 0) ∧
      (2 : ℚ) ^ (expo a + 30) ≤ val a ∧ val a < 2 ^ (expo a + 30 + 1)) ∧
    (sig a = 2 ^ 30 → ∃ w, normalize (expo a + 30) 0 = .ok w ∧
      exec (.log2 rd rs1) s = .next ((s.setReg rd w).complete 0) ∧
      (|expo a + 30| < 2 ^ 31 → val w = (expo a + 30 : ℤ))) ∧
    (0 < sig a → sig a ≠ 2 ^ 30 → expo a = -30 →
      exec (.log2 rd rs1) s = .next ((s.setReg rd (log2Frac (sigBits a))).complete 0)) ∧
    (0 < sig a → sig a ≠ 2 ^ 30 → ∃ i, normalize (expo a + 30) 0 = .ok i ∧
      endsAs (exec (.log2 rd rs1) s) s rd (ADD i (log2Frac (sigBits a))))

/-- R223: POW2 writes the value of the function `POW2`, or takes its fault. Zero gives 1; an exponent field above 0 is
Overflow; an integer gives the exact power of two or Overflow, for every kernel; any other operand is split at the binary point, toward zero, and the integer part is added to the exponent of
the kernel's word for the fraction. -/
def Obligations.PowersOfTwoComplete : Prop :=
  ∀ (s : State) (rd rs1 : Reg) (a : Word), s.reg rs1 = a → isCanon a = true →
    endsAs (exec (.pow2 rd rs1) s) s rd (POW2 a) ∧
    (sig a = 0 → exec (.pow2 rd rs1) s = .next ((s.setReg rd ONE).complete 0)) ∧
    (0 < expo a → exec (.pow2 rd rs1) s = .next (takeFault .overflow s)) ∧
    (∀ n : Int, val a = n → expo a ≤ 0 → -2 ^ 31 + 31 ≤ n →
      exec (.pow2 rd rs1) s = .next ((s.setReg rd (pack (2 ^ 30) (n - 30))).complete 0)) ∧
    (∀ n : Int, val a = n → expo a ≤ 0 → n < -2 ^ 31 + 31 →
      exec (.pow2 rd rs1) s = .next (takeFault .overflow s)) ∧
    ((∀ n : Int, val a ≠ n) → expo a ≤ 0 → ∃ f, isCanon f = true ∧ val a = intPart a + val f ∧ |val f| < 1 ∧
      (0 < sig f ↔ 0 < sig a) ∧
      writesNormalized (exec (.pow2 rd rs1) s) s rd (sig (pow2Frac f)) (expo (pow2Frac f) + intPart a))

/-- R224: for every kernel, POW2 undoes LOG2 on the powers of two whose logarithm has an exponent of at most 0, and on no
other power of two; and LOG2 undoes POW2 on the integers whose power of two exists. -/
def Obligations.Log2AndPow2AreInverse : Prop :=
  (∀ e : Int, expMin ≤ e → e ≤ expMax → |e + 30| < 2 ^ 31 →
    ∃ w, LOG2 (pack (2 ^ 30) e) = .ok w ∧ expo w ≤ 0 ∧ POW2 w = .ok (pack (2 ^ 30) e)) ∧
  (∀ e : Int, expMin ≤ e → e ≤ expMax → 2 ^ 31 ≤ |e + 30| →
    ∃ w, LOG2 (pack (2 ^ 30) e) = .ok w ∧ 0 < expo w ∧ POW2 w = .error .overflow) ∧
  (∀ (a : Word) (n : Int), isCanon a = true → val a = n → expo a ≤ 0 → -2 ^ 31 + 31 ≤ n →
    ∃ w, POW2 a = .ok w ∧ LOG2 w = .ok a)

/-- R233: POW10 writes the value of the function `POW10`, or takes its fault. Magnitudes of 2^30 and above overflow; below, a
non-negative exponent gives the product of the table entries of its set bits, multiplied into ONE one by one from the least
significant bit up, with the fault of the first multiplication that overflows; a power of two selects its table entry; 0 to
13 are exact; a negative exponent is the reciprocal of the positive power, with the faults of both. -/
def Obligations.PowersOfTenComplete : Prop :=
  ∀ (s : State) (rd rs1 : Reg) (n : Int), (s.reg rs1).toInt = n →
    endsAs (exec (.pow10 rd rs1) s) s rd (POW10 n) ∧
    (0 ≤ n → n < 2 ^ 30 → POW10 n =
      ((List.range 30).filter n.toNat.testBit).foldlM (fun acc k => MUL acc (pow10Table.getD k ZERO)) ONE) ∧
    (2 ^ 30 ≤ |n| → exec (.pow10 rd rs1) s = .next (takeFault .overflow s)) ∧
    (∀ (k : Nat) (w : Word), pow10Table[k]? = some w → n = 2 ^ k →
      exec (.pow10 rd rs1) s = .next ((s.setReg rd w).complete 0)) ∧
    (0 ≤ n → n ≤ 13 → ∃ w, exec (.pow10 rd rs1) s = .next ((s.setReg rd w).complete 0) ∧ val w = 10 ^ n.toNat) ∧
    (n < 0 → endsAs (exec (.pow10 rd rs1) s) s rd (POW10 (-n) >>= DIV ONE))

/-- R240: POW writes the value of the function `POW`, or takes its fault. Steps 1, 3, 4 and 6: POW by zero is 1 for every
base; zero to a positive power is zero and to a negative power a DomainError; base ten with an exponent that is no 32-bit
integer is Overflow; the square is one multiplication; and a positive base on no fast path is POW2 of the product of its
logarithm and the exponent, with the faults of the three. The other steps are `PowFastPathsMatch` and
`PowOfANegativeBase`. -/
def Obligations.PowStepsInOrder : Prop :=
  ∀ (s : State) (rd rs1 rs2 : Reg) (b e : Word), s.reg rs1 = b → s.reg rs2 = e →
    isCanon b = true → isCanon e = true →
    endsAs (exec (.pow rd rs1 rs2) s) s rd (POW b e) ∧
    (sig e = 0 → exec (.pow rd rs1 rs2) s = .next ((s.setReg rd ONE).complete 0)) ∧
    (sig b = 0 → 0 < sig e → exec (.pow rd rs1 rs2) s = .next ((s.setReg rd ZERO).complete 0)) ∧
    (sig b = 0 → sig e < 0 → exec (.pow rd rs1 rs2) s = .next (takeFault .domainError s)) ∧
    (b = TEN → (∀ m : Int, val e = m → ¬ (-2 ^ 31 ≤ m ∧ m ≤ 2 ^ 31 - 1)) →
      exec (.pow rd rs1 rs2) s = .next (takeFault .overflow s)) ∧
    (e = TWO → writesNormalized (exec (.pow rd rs1 rs2) s) s rd (sig b * sig b) (expo b + expo b)) ∧
    (0 < sig b → (sig b = 2 ^ 30 → ∀ T : Int, ((expo b : ℚ) + 30) * val e ≠ T) → b ≠ TEN → sig e ≠ 0 → e ≠ TWO →
      endsAs (exec (.pow rd rs1 rs2) s) s rd (LOG2 b >>= fun l => MUL l e >>= POW2))

/-- R240 step 5: a negative base takes an integer exponent only; its power is that of the negated base, negated again when
the exponent is odd. The faults of the three are faults of POW; corner case 7: the first overflows at one base. -/
def Obligations.PowOfANegativeBase : Prop :=
  ∀ b e : Word, isCanon b = true → isCanon e = true → sig b < 0 → sig e ≠ 0 → e ≠ TWO →
    ((∀ m : Int, val e ≠ m) → POW b e = .error .domainError) ∧
    (∀ m : Int, val e = m →
      POW b e = (NEG b >>= fun n => POW n e >>= fun r => if m % 2 = 1 then NEG r else .ok r)) ∧
    (∀ m : Int, val e = m → sig b = -2 ^ 31 → expo b = expMax → POW b e = .error .overflow)

/-- R241, R240 steps 2 to 4: `x.pow(2)` is `x.multiply(x)` for every canonical `x`; an integer power of a power of two is the
exponent shift or Overflow, and so is a power by any other exponent whose product with the base's logarithm is an integer;
an integer power of ten is POW10, faults included. -/
def Obligations.PowFastPathsMatch : Prop :=
  (∀ x : Word, isCanon x = true → POW x TWO = MUL x x) ∧
  (∀ (n m : Int) (e : Word), expMin ≤ n - 30 → n - 30 ≤ expMax → isCanon e = true → val e = m →
    (expMin ≤ n * m - 30 → n * m - 30 ≤ expMax → POW (pack (2 ^ 30) (n - 30)) e = .ok (pack (2 ^ 30) (n * m - 30))) ∧
    (n * m - 30 < expMin ∨ expMax < n * m - 30 → POW (pack (2 ^ 30) (n - 30)) e = .error .overflow)) ∧
  (∀ (b e : Word) (T : Int), isCanon b = true → isCanon e = true → sig b = 2 ^ 30 →
    ((expo b : ℚ) + 30) * val e = T →
    (expMin ≤ T - 30 → T - 30 ≤ expMax → POW b e = .ok (pack (2 ^ 30) (T - 30))) ∧
    (T - 30 < expMin ∨ expMax < T - 30 → POW b e = .error .overflow)) ∧
  (∀ (m : Int) (e : Word), isCanon e = true → val e = m → -2 ^ 31 ≤ m → m ≤ 2 ^ 31 - 1 → POW TEN e = POW10 m)
end

