-- ==== Sys2Proof/Laws/Decode.lean ====
section
/-! SUPPORT. The fields of an assembled command word (spec/30_encoding.md R74), and a word from its fields. -/

namespace Sys2Proof

section Fields
variable (op : BitVec 8) (a b c d : Reg) (k : Imm8)

@[simp] theorem opcode_assemble : (assemble op a b c d k).opcode = op := by
  apply BitVec.eq_of_getLsbD_eq
  intro i hi
  simp only [CmdWord.opcode, assemble, BitVec.getLsbD_extractLsb', BitVec.getLsbD_append]
  simp [hi, show ¬ (24 + i < 8) by omega, show ¬ (24 + i - 8 < 4) by omega, show ¬ (24 + i - 8 - 4 < 4) by omega,
    show ¬ (24 + i - 8 - 4 - 4 < 4) by omega, show ¬ (24 + i - 8 - 4 - 4 - 4 < 4) by omega,
    show 24 + i - 8 - 4 - 4 - 4 - 4 = i by omega]

@[simp] theorem rd_assemble : CmdWord.rd (assemble op a b c d k) = a := by
  apply BitVec.eq_of_getLsbD_eq
  intro i hi
  simp only [CmdWord.rd, assemble, BitVec.getLsbD_extractLsb', BitVec.getLsbD_append]
  simp [hi, show ¬ (20 + i < 8) by omega, show ¬ (20 + i - 8 < 4) by omega, show ¬ (20 + i - 8 - 4 < 4) by omega,
    show ¬ (20 + i - 8 - 4 - 4 < 4) by omega, show 20 + i - 8 - 4 - 4 - 4 = i by omega]

@[simp] theorem rs1_assemble : CmdWord.rs1 (assemble op a b c d k) = b := by
  apply BitVec.eq_of_getLsbD_eq
  intro i hi
  simp only [CmdWord.rs1, assemble, BitVec.getLsbD_extractLsb', BitVec.getLsbD_append]
  simp [hi, show ¬ (16 + i < 8) by omega, show ¬ (16 + i - 8 < 4) by omega, show ¬ (16 + i - 8 - 4 < 4) by omega,
    show 16 + i - 8 - 4 - 4 = i by omega]

@[simp] theorem rs2_assemble : CmdWord.rs2 (assemble op a b c d k) = c := by
  apply BitVec.eq_of_getLsbD_eq
  intro i hi
  simp only [CmdWord.rs2, assemble, BitVec.getLsbD_extractLsb', BitVec.getLsbD_append]
  simp [hi, show ¬ (12 + i < 8) by omega, show ¬ (12 + i - 8 < 4) by omega, show 12 + i - 8 - 4 = i by omega]

@[simp] theorem rs3_assemble : CmdWord.rs3 (assemble op a b c d k) = d := by
  apply BitVec.eq_of_getLsbD_eq
  intro i hi
  simp only [CmdWord.rs3, assemble, BitVec.getLsbD_extractLsb', BitVec.getLsbD_append]
  simp [hi, show ¬ (8 + i < 8) by omega, show 8 + i - 8 = i by omega]

@[simp] theorem imm8_assemble : CmdWord.imm8 (assemble op a b c d k) = k := by
  apply BitVec.eq_of_getLsbD_eq
  intro i hi
  simp only [CmdWord.imm8, assemble, BitVec.getLsbD_extractLsb', BitVec.getLsbD_append]
  simp [hi]

end Fields

/-- A command word is the assembly of its fields. -/
theorem assemble_fields (w : CmdWord) : assemble w.opcode w.rd w.rs1 w.rs2 w.rs3 w.imm8 = w := by
  apply BitVec.eq_of_getLsbD_eq
  intro i hi
  simp only [assemble, CmdWord.opcode, CmdWord.rd, CmdWord.rs1, CmdWord.rs2, CmdWord.rs3, CmdWord.imm8,
    BitVec.getLsbD_append, BitVec.getLsbD_extractLsb']
  split
  · simp_all
  split
  · simp_all [show 8 + (i - 8) = i by omega]
  split
  · simp_all [show 12 + (i - 8 - 4) = i by omega]
  split
  · simp_all [show 16 + (i - 8 - 4 - 4) = i by omega]
  split
  · simp_all [show 20 + (i - 8 - 4 - 4 - 4) = i by omega]
  · simp [show i - 8 - 4 - 4 - 4 - 4 < 8 by omega, show 24 + (i - 8 - 4 - 4 - 4 - 4) = i by omega]

/-- The check of the unused fields answers the command exactly when they are 0. -/
@[simp] theorem useFields_true (i : Instr) : useFields true i = .ok i := rfl
@[simp] theorem useFields_false (i : Instr) : useFields false i = .error .nonzeroUnusedField := rfl

theorem useFields_eq_ok {ok : Bool} {i j : Instr} : useFields ok i = .ok j ↔ ok = true ∧ i = j := by
  cases ok <;> simp

@[simp] theorem ok_bind_requireLegal (why : Reject) (i : Instr) :
    ((Except.ok i : Except Reject Instr) >>= requireLegal why) = if WellFormed i then .ok i else .error why := rfl

theorem requireLegal_eq_ok {why : Reject} {i j : Instr} :
    requireLegal why i = .ok j ↔ WellFormed i = true ∧ i = j := by
  cases h : WellFormed i <;> simp [requireLegal, h]

end Sys2Proof
end

