-- ==== Sys2Proof/Laws/Format.lean ====
section
/-! SUPPORT. The fields of a packed word and the ranges of canonical words (spec/00_scope.md R10, spec/10_state.md R22 to
R24, R27). -/

namespace Sys2Proof.Machine

variable (w : Word)

/-! ## Packing and unpacking (R10) -/

@[simp] theorem sigBits_append (a b : BitVec 32) : sigBits (a ++ b) = a := by
  simp only [sigBits]; exact BitVec.extractLsb'_append_eq_left

@[simp] theorem expBits_append (a b : BitVec 32) : expBits (a ++ b) = b := by
  simp only [expBits]; exact BitVec.extractLsb'_append_eq_right

theorem append_fields : sigBits w ++ expBits w = w := by
  apply BitVec.eq_of_getLsbD_eq
  intro i hi
  simp only [sigBits, expBits, BitVec.getLsbD_append, BitVec.getLsbD_extractLsb']
  by_cases h : i < 32
  · simp [h]
  · simp [h, show i - 32 < 32 by omega, show 32 + (i - 32) = i by omega]

theorem toInt_ofInt32 {z : Int} (h₁ : -2 ^ 31 ≤ z) (h₂ : z < 2 ^ 31) : (BitVec.ofInt 32 z).toInt = z := by
  rw [BitVec.toInt_ofInt, Int.bmod_eq_of_le] <;> omega

theorem sig_pack {s e : Int} (h₁ : -2 ^ 31 ≤ s) (h₂ : s < 2 ^ 31) : sig (pack s e) = s := by
  rw [sig, pack, sigBits_append, toInt_ofInt32 h₁ h₂]

theorem expo_pack {s e : Int} (h₁ : -2 ^ 31 ≤ e) (h₂ : e < 2 ^ 31) : expo (pack s e) = e := by
  rw [expo, pack, expBits_append, toInt_ofInt32 h₁ h₂]

@[simp] theorem pack_sig_expo : pack (sig w) (expo w) = w := by
  rw [pack, sig, expo, BitVec.ofInt_toInt, BitVec.ofInt_toInt, append_fields]

/-- A word is its significand and its exponent. -/
theorem word_ext {a b : Word} (hs : sig a = sig b) (he : expo a = expo b) : a = b := by
  rw [← pack_sig_expo a, ← pack_sig_expo b, hs, he]

theorem sig_ge : -2 ^ 31 ≤ sig w := by have := BitVec.le_toInt (sigBits w); simpa [sig] using this
theorem sig_lt : sig w < 2 ^ 31 := by have := BitVec.toInt_lt (x := sigBits w); simpa [sig] using this
theorem expo_ge : -2 ^ 31 ≤ expo w := by have := BitVec.le_toInt (expBits w); simpa [expo] using this
theorem expo_lt : expo w < 2 ^ 31 := by have := BitVec.toInt_lt (x := expBits w); simpa [expo] using this

/-! ## Canonical form (R22) -/

/-- The two top bits of the significand are its range. -/
theorem topBits_toNat : (w.extractLsb' 62 2).toNat = (sigBits w).toNat / 2 ^ 30 := by
  simp only [sigBits, BitVec.extractLsb'_toNat, Nat.shiftRight_eq_div_pow]
  have := w.isLt
  omega

theorem topBits_pos : w.extractLsb' 62 2 = 0b01#2 ↔ 2 ^ 30 ≤ sig w := by
  rw [BitVec.toNat_eq, topBits_toNat, sig, BitVec.toInt_eq_toNat_cond]
  have := (sigBits w).isLt
  simp only [BitVec.toNat_ofNat]
  split <;> omega

theorem topBits_neg : w.extractLsb' 62 2 = 0b10#2 ↔ sig w < -2 ^ 30 := by
  rw [BitVec.toNat_eq, topBits_toNat, sig, BitVec.toInt_eq_toNat_cond]
  have := (sigBits w).isLt
  simp only [BitVec.toNat_ofNat]
  split <;> omega

/-- Canonical form as ranges of significand and exponent (R22, R27). -/
theorem isCanon_iff : isCanon w = true ↔
    (sig w = 0 ∧ expo w = expSentinel) ∨ ((2 ^ 30 ≤ sig w ∨ sig w < -2 ^ 30) ∧ expo w ≠ expSentinel) := by
  simp only [isCanon, Bool.or_eq_true, Bool.and_eq_true, beq_iff_eq, bne_iff_ne, topBits_pos, topBits_neg]

/-- A canonical word with significand 0 is ZERO. -/
theorem eq_zero_of_canon {w : Word} (h : isCanon w = true) (hs : sig w = 0) : w = ZERO := by
  rcases (isCanon_iff w).mp h with ⟨_, he⟩ | ⟨h', _⟩
  · exact word_ext (by rw [hs]; decide) (by rw [he]; decide)
  · omega

/-- The ranges of a canonical word with a non-zero significand. -/
theorem canon_ranges {w : Word} (h : isCanon w = true) (hs : sig w ≠ 0) :
    (2 ^ 30 ≤ sig w ∨ sig w < -2 ^ 30) ∧ expMin ≤ expo w ∧ expo w ≤ expMax := by
  have h1 := expo_ge w
  have h2 := expo_lt w
  rcases (isCanon_iff w).mp h with ⟨h', _⟩ | ⟨h', he⟩
  · exact absurd h' hs
  · simp only [expSentinel] at he
    refine ⟨h', ?_, ?_⟩ <;> simp only [expMin, expMax] <;> omega

/-- A packed pair in the canonical ranges is canonical. -/
theorem isCanon_pack {s e : Int} (hs : (2 ^ 30 ≤ s ∧ s < 2 ^ 31) ∨ (-2 ^ 31 ≤ s ∧ s < -2 ^ 30)) (h₁ : expMin ≤ e)
    (h₂ : e ≤ expMax) : isCanon (pack s e) = true := by
  simp only [expMin, expMax] at h₁ h₂
  rw [isCanon_iff, sig_pack (by omega) (by omega), expo_pack (by omega) (by omega)]
  refine .inr ⟨by omega, ?_⟩
  simp only [expSentinel]; omega

/-! ## The named constants (R24) -/

@[simp] theorem sig_ZERO : sig ZERO = 0 := by decide
@[simp] theorem expo_ZERO : expo ZERO = -2 ^ 31 := by decide
@[simp] theorem isCanon_ZERO : isCanon ZERO = true := by decide
@[simp] theorem sig_ONE : sig ONE = 2 ^ 30 := by decide
@[simp] theorem expo_ONE : expo ONE = -30 := by decide
@[simp] theorem isCanon_ONE : isCanon ONE = true := by decide
@[simp] theorem sig_TWO : sig TWO = 2 ^ 30 := by decide
@[simp] theorem expo_TWO : expo TWO = -29 := by decide
@[simp] theorem isCanon_TWO : isCanon TWO = true := by decide
@[simp] theorem sig_TEN : sig TEN = 0x50000000 := by decide
@[simp] theorem expo_TEN : expo TEN = -27 := by decide
@[simp] theorem isCanon_TEN : isCanon TEN = true := by decide
@[simp] theorem sig_MINUS_ONE : sig MINUS_ONE = -2 ^ 31 := by decide
@[simp] theorem expo_MINUS_ONE : expo MINUS_ONE = -31 := by decide
@[simp] theorem isCanon_MINUS_ONE : isCanon MINUS_ONE = true := by decide

/-! ## Values (R21) -/

@[simp] theorem val_ZERO : val ZERO = 0 := by simp [val]

theorem val_eq_zero_iff : val w = 0 ↔ sig w = 0 := by
  simp [val, zpow_ne_zero]

/-- A packed pair has the value the format gives it. -/
theorem val_pack {s e : Int} (h₁ : -2 ^ 31 ≤ s) (h₂ : s < 2 ^ 31) (h₃ : -2 ^ 31 ≤ e) (h₄ : e < 2 ^ 31) :
    val (pack s e) = (s : ℚ) * 2 ^ e := by
  rw [val, sig_pack h₁ h₂, expo_pack h₃ h₄]

end Sys2Proof.Machine
end

