-- ==== Sys2Proof/Laws/Normalize.lean ====
section
/-! SUPPORT. The normalizer (spec/40_codec.md R100, R102): where the significand lands, when the exponent fits, and what
normalizing leaves unchanged. -/

namespace Sys2Proof.Machine

variable {S E : Int}

/-! ## The top bit (R100 `p`) -/

theorem shiftFloor_eq_div (z : Int) (n : Nat) : shiftFloor z n = z / 2 ^ n := by
  rw [shiftFloor, Int.shiftRight_eq_div_pow]; norm_num

theorem topBit_of_pos (h : 0 < S) : ∃ p : Nat, topBit S = p ∧ 2 ^ p ≤ S ∧ S < 2 ^ (p + 1) := by
  obtain ⟨n, rfl⟩ : ∃ n : Nat, S = n := ⟨S.toNat, by omega⟩
  have hn : n ≠ 0 := by omega
  refine ⟨n.log2, by rw [topBit, if_pos h, Int.toNat_natCast], ?_, ?_⟩
  · exact_mod_cast Nat.log2_self_le hn
  · exact_mod_cast Nat.lt_log2_self (n := n)

theorem topBit_neg_one : topBit (-1) = -1 := by decide

theorem topBit_of_lt_neg_one (h : S < -1) : ∃ p : Nat, topBit S = p ∧ -2 ^ (p + 1) ≤ S ∧ S < -2 ^ p := by
  obtain ⟨n, hn⟩ : ∃ n : Nat, S = -n - 1 := ⟨(-S - 1).toNat, by omega⟩
  subst hn
  have h0 : n ≠ 0 := by omega
  have e : ((-(-(n : Int) - 1) - 1)).toNat = n := by omega
  refine ⟨n.log2, ?_, ?_, ?_⟩
  · rw [topBit, if_neg (by omega), if_neg (by omega), e]
  · have : (n : Int) < 2 ^ (n.log2 + 1) := by exact_mod_cast Nat.lt_log2_self (n := n)
    omega
  · have : (2 : Int) ^ n.log2 ≤ n := by exact_mod_cast Nat.log2_self_le h0
    omega

/-! ## The shifted significand is in canonical position (R102 item 1) -/

theorem normSig_of_pos (h : 0 < S) : 2 ^ 30 ≤ normSig S ∧ normSig S < 2 ^ 31 := by
  obtain ⟨p, hp, hlo, hhi⟩ := topBit_of_pos h
  rw [normSig, normShift, hp]
  split
  · rename_i hs
    obtain ⟨k, rfl⟩ : ∃ k : Nat, p = 30 + k := ⟨p - 30, by omega⟩
    have e : (((30 + k : Nat) : Int) - 30).toNat = k := by omega
    rw [e, shiftFloor_eq_div]
    have hk : (0 : Int) < 2 ^ k := by positivity
    constructor
    · rw [Int.le_ediv_iff_mul_le hk, ← pow_add]; exact hlo
    · rw [Int.ediv_lt_iff_lt_mul hk, ← pow_add]
      rwa [show 31 + k = 30 + k + 1 by omega]
  · rename_i hs
    obtain ⟨k, hk⟩ : ∃ k : Nat, p + k = 30 := ⟨30 - p, by omega⟩
    have e : (-((p : Int) - 30)).toNat = k := by omega
    rw [e]
    have hk0 : (0 : Int) < 2 ^ k := by positivity
    constructor
    · rw [← hk, pow_add]; exact mul_le_mul_of_nonneg_right hlo hk0.le
    · rw [show 31 = (p + 1) + k by omega, pow_add]; exact mul_lt_mul_of_pos_right hhi hk0

theorem normSig_of_neg (h : S < 0) : -2 ^ 31 ≤ normSig S ∧ normSig S < -2 ^ 30 := by
  by_cases h1 : S = -1
  · subst h1; decide
  obtain ⟨p, hp, hlo, hhi⟩ := topBit_of_lt_neg_one (S := S) (by omega)
  rw [normSig, normShift, hp]
  split
  · rename_i hs
    obtain ⟨k, rfl⟩ : ∃ k : Nat, p = 30 + k := ⟨p - 30, by omega⟩
    have e : (((30 + k : Nat) : Int) - 30).toNat = k := by omega
    rw [e, shiftFloor_eq_div]
    have hk : (0 : Int) < 2 ^ k := by positivity
    constructor
    · rw [Int.le_ediv_iff_mul_le hk, neg_mul, ← pow_add]
      rwa [show 31 + k = 30 + k + 1 by omega]
    · rw [Int.ediv_lt_iff_lt_mul hk, neg_mul, ← pow_add]; exact hhi
  · rename_i hs
    obtain ⟨k, hk⟩ : ∃ k : Nat, p + k = 30 := ⟨30 - p, by omega⟩
    have e : (-((p : Int) - 30)).toNat = k := by omega
    rw [e]
    have hk0 : (0 : Int) < 2 ^ k := by positivity
    constructor
    · rw [show 31 = (p + 1) + k by omega, pow_add, ← neg_mul]; exact mul_le_mul_of_nonneg_right hlo hk0.le
    · rw [← hk, pow_add, ← neg_mul]; exact mul_lt_mul_of_pos_right hhi hk0

/-! ## Normalizing: when it answers a word, and which -/

theorem fits_zero (E : Int) : fits 0 E = true := by simp [fits]

theorem fits_iff (h : S ≠ 0) : fits S E = true ↔ expMin ≤ normExp S E ∧ normExp S E ≤ expMax := by
  simp [fits, h]

@[simp] theorem normWord_zero (E : Int) : normWord 0 E = ZERO := by simp [normWord]
@[simp] theorem normalize_zero (E : Int) : normalize 0 E = .ok ZERO := by simp [normalize, fits]

theorem normalize_of_fits (h : fits S E = true) : normalize S E = .ok (normWord S E) := by simp [normalize, h]
theorem normalize_of_not_fits (h : fits S E = false) : normalize S E = .error .overflow := by simp [normalize, h]

/-- Everything `normalize` can answer. -/
theorem normalize_cases (S E : Int) :
    (fits S E = true ∧ normalize S E = .ok (normWord S E)) ∨
      (fits S E = false ∧ normalize S E = .error .overflow) := by
  cases h : fits S E with
  | true => exact .inl ⟨rfl, normalize_of_fits h⟩
  | false => exact .inr ⟨rfl, normalize_of_not_fits h⟩

theorem normalize_eq_ok {w : Word} (h : normalize S E = .ok w) : fits S E = true ∧ w = normWord S E := by
  rcases normalize_cases S E with ⟨hf, e⟩ | ⟨_, e⟩
  · rw [e] at h; exact ⟨hf, (Except.ok.inj h).symm⟩
  · rw [e] at h; cases h

theorem normalize_eq_error {c : Cause} (h : normalize S E = .error c) : fits S E = false ∧ c = .overflow := by
  rcases normalize_cases S E with ⟨_, e⟩ | ⟨hf, e⟩
  · rw [e] at h; cases h
  · rw [e] at h; exact ⟨hf, (Except.error.inj h).symm⟩

/-- The range of the shifted significand, either sign. -/
theorem normSig_range (h : S ≠ 0) :
    (2 ^ 30 ≤ normSig S ∧ normSig S < 2 ^ 31) ∨ (-2 ^ 31 ≤ normSig S ∧ normSig S < -2 ^ 30) := by
  rcases lt_or_gt_of_ne h with h | h
  · exact .inr (normSig_of_neg h)
  · exact .inl (normSig_of_pos h)

theorem isCanon_normWord (h : fits S E = true) : isCanon (normWord S E) = true := by
  by_cases h0 : S = 0
  · subst h0; simp
  · rw [normWord, if_neg h0]
    obtain ⟨h1, h2⟩ := (fits_iff h0).mp h
    exact isCanon_pack (normSig_range h0) h1 h2

theorem sig_normWord (h0 : S ≠ 0) : sig (normWord S E) = normSig S := by
  rw [normWord, if_neg h0]
  have := normSig_range h0
  exact sig_pack (by omega) (by omega)

theorem expo_normWord (h0 : S ≠ 0) (h : fits S E = true) : expo (normWord S E) = normExp S E := by
  rw [normWord, if_neg h0]
  have := (fits_iff h0).mp h
  simp only [expMin, expMax] at this
  exact expo_pack (by omega) (by omega)

/-! ## A significand already in canonical position is left alone (R102 item 2) -/

theorem normShift_of_canonical (h : (2 ^ 30 ≤ S ∧ S < 2 ^ 31) ∨ (-2 ^ 31 ≤ S ∧ S < -2 ^ 30)) : normShift S = 0 := by
  rcases h with ⟨h1, h2⟩ | ⟨h1, h2⟩
  · obtain ⟨p, hp, hlo, hhi⟩ := topBit_of_pos (S := S) (by omega)
    have a : p < 31 := by
      by_contra hc
      have : (2 : Int) ^ 31 ≤ 2 ^ p := pow_le_pow_right₀ (by norm_num) (by omega)
      omega
    have b : 30 < p + 1 := by
      by_contra hc
      have : (2 : Int) ^ (p + 1) ≤ 2 ^ 30 := pow_le_pow_right₀ (by norm_num) (by omega)
      omega
    rw [normShift, hp]; omega
  · obtain ⟨p, hp, hlo, hhi⟩ := topBit_of_lt_neg_one (S := S) (by omega)
    have a : p < 31 := by
      by_contra hc
      have : (2 : Int) ^ 31 ≤ 2 ^ p := pow_le_pow_right₀ (by norm_num) (by omega)
      omega
    have b : 30 < p + 1 := by
      by_contra hc
      have : (2 : Int) ^ (p + 1) ≤ 2 ^ 30 := pow_le_pow_right₀ (by norm_num) (by omega)
      omega
    rw [normShift, hp]; omega

theorem normSig_of_canonical (h : (2 ^ 30 ≤ S ∧ S < 2 ^ 31) ∨ (-2 ^ 31 ≤ S ∧ S < -2 ^ 30)) : normSig S = S := by
  rw [normSig, normShift_of_canonical h]; simp [shiftFloor]

theorem normExp_of_canonical (h : (2 ^ 30 ≤ S ∧ S < 2 ^ 31) ∨ (-2 ^ 31 ≤ S ∧ S < -2 ^ 30)) : normExp S E = E := by
  rw [normExp, normShift_of_canonical h]; simp

/-- The significand of a non-zero canonical word is in canonical position. -/
theorem canonical_sig {w : Word} (h : isCanon w = true) (hs : sig w ≠ 0) :
    (2 ^ 30 ≤ sig w ∧ sig w < 2 ^ 31) ∨ (-2 ^ 31 ≤ sig w ∧ sig w < -2 ^ 30) := by
  have h1 := sig_ge w
  have h2 := sig_lt w
  rcases (canon_ranges h hs).1 with h | h
  · exact .inl ⟨h, h2⟩
  · exact .inr ⟨h1, h⟩

/-! ## Where the shift goes: bounds by magnitude (R102 item 5) -/

theorem normShift_le {n : Nat} (h₁ : -2 ^ n ≤ S) (h₂ : S < 2 ^ n) (hn : 0 < n) : normShift S ≤ (n : Int) - 31 := by
  rw [normShift]
  by_cases h0 : 0 < S
  · obtain ⟨p, hp, hlo, hhi⟩ := topBit_of_pos h0
    have : p < n := by
      by_contra hc
      have : (2 : Int) ^ n ≤ 2 ^ p := pow_le_pow_right₀ (by norm_num) (by omega)
      omega
    rw [hp]; omega
  · by_cases h1 : S < -1
    · obtain ⟨p, hp, hlo, hhi⟩ := topBit_of_lt_neg_one h1
      have : p < n := by
        by_contra hc
        have : (2 : Int) ^ n ≤ 2 ^ p := pow_le_pow_right₀ (by norm_num) (by omega)
        omega
      rw [hp]; omega
    · rcases (show S = 0 ∨ S = -1 by omega) with rfl | rfl
      · have : topBit 0 = 0 := by decide
        omega
      · rw [topBit_neg_one]; omega

theorem normShift_ge (S : Int) : -31 ≤ normShift S := by
  rw [normShift]
  by_cases h0 : 0 < S
  · obtain ⟨p, hp, _⟩ := topBit_of_pos h0
    rw [hp]; omega
  · by_cases h1 : S < -1
    · obtain ⟨p, hp, _⟩ := topBit_of_lt_neg_one h1
      rw [hp]; omega
    · rcases (show S = 0 ∨ S = -1 by omega) with rfl | rfl
      · have : topBit 0 = 0 := by decide
        omega
      · rw [topBit_neg_one]; omega

end Sys2Proof.Machine
end

