-- ==== Sys2Proof/Laws/Functions.lean ====
section
/-! SUPPORT. One lemma per semantic function: everything it can answer, so that later proofs do not unfold it
(spec/40_codec.md R124, R131, spec/41_arithmetic.md R140 to R175, spec/42_compare.md R190, spec/43_transcendental.md R210 to
R240). -/

namespace Sys2Proof.Machine

variable (a b e : Word)

/-! ## Conversion to an integer (R124), and the cut of its exponent at 64 (log 12) -/

theorem inRange_cases (lo hi v : Int) :
    (lo ≤ v ∧ v ≤ hi ∧ inRange lo hi v = .ok v) ∨ ((v < lo ∨ hi < v) ∧ inRange lo hi v = .error .rangeError) := by
  rw [inRange]
  split
  · exact .inr ⟨by assumption, rfl⟩
  · exact .inl ⟨by omega, by omega, rfl⟩

/-- Up to the cut, `scaleUp` is the product. -/
theorem scaleUp_of_le {s z : Int} (h : z.toNat ≤ 64) : scaleUp s z = s * 2 ^ z.toNat := by
  rw [scaleUp, min_eq_left h]

/-- From the cut on, `scaleUp` and the product are both at least `2^64` in magnitude. -/
theorem scaleUp_of_ge {s z : Int} (hs : s ≠ 0) (h : 64 ≤ z.toNat) :
    2 ^ 64 ≤ |scaleUp s z| ∧ (2 : Int) ^ 64 ≤ |s * 2 ^ z.toNat| := by
  have h1 : 1 ≤ |s| := Int.one_le_abs hs
  have h2 : (2 : Int) ^ 64 ≤ 2 ^ z.toNat := pow_le_pow_right₀ (by norm_num) h
  rw [scaleUp, min_eq_right h, abs_mul, abs_mul, abs_of_pos (show (0 : Int) < 2 ^ 64 by norm_num),
    abs_of_pos (show (0 : Int) < 2 ^ z.toNat by positivity)]
  constructor <;> nlinarith

/-- Everything `toInteger` can do, step by step. -/
theorem toInteger_cases (lo hi : Int) :
    (sig a = 0 ∧ toInteger a lo hi = .ok 0) ∨
      (sig a ≠ 0 ∧ 0 ≤ expo a ∧ toInteger a lo hi = inRange lo hi (scaleUp (sig a) (expo a))) ∨
      (sig a ≠ 0 ∧ expo a < 0 ∧ (32 ≤ (-expo a).toNat ∨ sig a % 2 ^ (-expo a).toNat ≠ 0) ∧
        toInteger a lo hi = .error .rangeError) ∨
      (sig a ≠ 0 ∧ expo a < 0 ∧ (-expo a).toNat < 32 ∧ sig a % 2 ^ (-expo a).toNat = 0 ∧
        toInteger a lo hi = inRange lo hi (shiftFloor (sig a) (-expo a).toNat)) := by
  rw [toInteger]
  split
  · exact .inl ⟨by assumption, rfl⟩
  split
  · exact .inr (.inl ⟨by assumption, by assumption, rfl⟩)
  split
  · exact .inr (.inr (.inl ⟨by assumption, by omega, .inl (by assumption), rfl⟩))
  split
  · exact .inr (.inr (.inl ⟨by assumption, by omega, .inr (by assumption), rfl⟩))
  · exact .inr (.inr (.inr ⟨by assumption, by omega, by omega, by omega, rfl⟩))

/-- `toInteger` raises no cause but RangeError. -/
theorem toInteger_error {lo hi : Int} {c : Cause} (h : toInteger a lo hi = .error c) : c = .rangeError := by
  rcases toInteger_cases a lo hi with ⟨_, e⟩ | ⟨_, _, e⟩ | ⟨_, _, _, e⟩ | ⟨_, _, _, _, e⟩ <;> rw [e] at h
  · cases h
  · rcases inRange_cases lo hi (scaleUp (sig a) (expo a)) with ⟨_, _, e⟩ | ⟨_, e⟩ <;> rw [e] at h <;> cases h; rfl
  · cases h; rfl
  · rcases inRange_cases lo hi (shiftFloor (sig a) (-expo a).toNat) with ⟨_, _, e⟩ | ⟨_, e⟩ <;> rw [e] at h <;> cases h; rfl

/-! ## Comparison (R190) -/

/-- Everything `lexCmp` can answer. -/
theorem lexCmp_cases :
    (lexCmp a b = -1 ∧ (expo a < expo b ∨ (expo a = expo b ∧ sig a < sig b))) ∨
      (lexCmp a b = 1 ∧ (expo b < expo a ∨ (expo a = expo b ∧ sig b < sig a))) ∨ (lexCmp a b = 0 ∧ a = b) := by
  rw [lexCmp]
  split
  · exact .inl ⟨rfl, .inl (by assumption)⟩
  split
  · exact .inr (.inl ⟨rfl, .inl (by assumption)⟩)
  split
  · exact .inl ⟨rfl, .inr ⟨by omega, by assumption⟩⟩
  split
  · exact .inr (.inl ⟨rfl, .inr ⟨by omega, by assumption⟩⟩)
  · exact .inr (.inr ⟨rfl, word_ext (by omega) (by omega)⟩)

/-! ## Arithmetic (R140, R141, R160, R171, R174, R175) -/

/-- Everything ADD can do: drop the lesser operand, or normalize the aligned sum. -/
theorem ADD_cases :
    (32 ≤ expo a - expo b ∧ ADD a b = .ok a) ∨ (expo a - expo b ≤ -32 ∧ ADD a b = .ok b) ∨
      (0 ≤ expo a - expo b ∧ expo a - expo b < 32 ∧
        ADD a b = normalize (sig a + shiftFloor (sig b) (expo a - expo b).toNat) (expo a)) ∨
      (-32 < expo a - expo b ∧ expo a - expo b < 0 ∧
        ADD a b = normalize (shiftFloor (sig a) (-(expo a - expo b)).toNat + sig b) (expo b)) := by
  rw [ADD]
  split
  · exact .inl ⟨by assumption, rfl⟩
  split
  · exact .inr (.inl ⟨by assumption, rfl⟩)
  split
  · exact .inr (.inr (.inl ⟨by assumption, by omega, rfl⟩))
  · exact .inr (.inr (.inr ⟨by omega, by omega, rfl⟩))

/-- Everything SUB can do. -/
theorem SUB_cases :
    ((sig a = 0 ∨ expo a - expo b ≤ -32) ∧ SUB a b = NEG b) ∨ (sig a ≠ 0 ∧ 32 ≤ expo a - expo b ∧ SUB a b = .ok a) ∨
      (sig a ≠ 0 ∧ 0 ≤ expo a - expo b ∧ expo a - expo b < 32 ∧
        SUB a b = normalize (sig a - shiftFloor (sig b) (expo a - expo b).toNat) (expo a)) ∨
      (sig a ≠ 0 ∧ -32 < expo a - expo b ∧ expo a - expo b < 0 ∧
        SUB a b = normalize (shiftFloor (sig a) (-(expo a - expo b)).toNat - sig b) (expo b)) := by
  rw [SUB]
  split
  · exact .inl ⟨.inl (by assumption), rfl⟩
  split
  · exact .inr (.inl ⟨by assumption, by assumption, rfl⟩)
  split
  · exact .inl ⟨.inr (by assumption), rfl⟩
  split
  · exact .inr (.inr (.inl ⟨by assumption, by assumption, by omega, rfl⟩))
  · exact .inr (.inr (.inr ⟨by assumption, by omega, by omega, rfl⟩))

/-- Everything `DivRem` can do. -/
theorem DivRem_cases :
    (sig b = 0 ∧ DivRem a b = .error .divisionByZero) ∨
      (sig b ≠ 0 ∧ 32 ≤ expo a - expo b ∧
        DivRem a b = (normalize (quotient a b) (expo a - expo b - 32)).map fun q => (q, ZERO)) ∨
      (sig b ≠ 0 ∧ expo a - expo b < 32 ∧ truncQuotient a b = 0 ∧ DivRem a b = .ok (ZERO, a)) ∨
      (sig b ≠ 0 ∧ expo a - expo b < 32 ∧ truncQuotient a b ≠ 0 ∧
        DivRem a b = (normalize (truncQuotient a b) 0).bind fun q =>
          (normalize (remainderInt a b) (min (expo a) (expo b))).map fun r => (q, r)) := by
  rw [DivRem]
  split
  · exact .inl ⟨by assumption, rfl⟩
  split
  · refine .inr (.inl ⟨by assumption, by omega, ?_⟩)
    cases normalize (quotient a b) (expo a - expo b - 32) <;> rfl
  split
  · exact .inr (.inr (.inl ⟨by assumption, by omega, by assumption, rfl⟩))
  · refine .inr (.inr (.inr ⟨by assumption, by omega, by assumption, ?_⟩))
    cases normalize (truncQuotient a b) 0 <;> cases normalize (remainderInt a b) (min (expo a) (expo b)) <;> rfl

/-- Everything FLOOR can do. -/
theorem FLOOR_cases :
    ((sig a = 0 ∨ 0 ≤ expo a) ∧ FLOOR a = .ok a) ∨
      (sig a ≠ 0 ∧ expo a ≤ -31 ∧ FLOOR a = .ok (if 0 < sig a then ZERO else MINUS_ONE)) ∨
      (sig a ≠ 0 ∧ -31 < expo a ∧ expo a < 0 ∧
        FLOOR a = normalize (clearLow (sig a) (-expo a).toNat) (expo a)) := by
  rw [FLOOR]
  dsimp only
  split
  · exact .inl ⟨by assumption, rfl⟩
  split
  · exact .inr (.inl ⟨by omega, by omega, rfl⟩)
  · exact .inr (.inr ⟨by omega, by omega, by omega, rfl⟩)

/-- Everything ROUND can do. -/
theorem ROUND_cases :
    ((sig a = 0 ∨ 0 ≤ expo a) ∧ ROUND a = .ok a) ∨ (sig a ≠ 0 ∧ expo a ≤ -32 ∧ ROUND a = .ok ZERO) ∨
      (sig a ≠ 0 ∧ -32 < expo a ∧ expo a < 0 ∧
        ROUND a = normalize (clearLow (sig a + 2 ^ ((-expo a).toNat - 1)) (-expo a).toNat) (expo a)) := by
  rw [ROUND]
  dsimp only
  split
  · exact .inl ⟨by assumption, rfl⟩
  split
  · exact .inr (.inl ⟨by omega, by omega, rfl⟩)
  · exact .inr (.inr ⟨by omega, by omega, by omega, rfl⟩)

/-! ## Transcendental (R210, R213, R223, R233, R240) -/

theorem isInt_iff : isInt e = true ↔
    sig e = 0 ∨ 0 ≤ expo e ∨ ((-expo e).toNat < 32 ∧ sig e % 2 ^ (-expo e).toNat = 0) := by
  simp [isInt, or_assoc]

/-- LOG2 of a power of two. -/
theorem LOG2_of_power (h0 : ¬ sig a ≤ 0) (h : sig a = 2 ^ 30) : LOG2 a = normalize (expo a + log2Bias) 0 := by
  simp only [LOG2, if_neg h0, if_pos h]
  cases normalize (expo a + log2Bias) 0 <;> rfl

/-- LOG2 of any other positive word. -/
theorem LOG2_of_other (h0 : ¬ sig a ≤ 0) (h : sig a ≠ 2 ^ 30) :
    LOG2 a = (normalize (expo a + log2Bias) 0).bind fun i => ADD i (log2Frac (sigBits a)) := by
  simp only [LOG2, if_neg h0, if_neg h]
  rfl

/-- Everything LOG2 can do. -/
theorem LOG2_cases :
    (sig a ≤ 0 ∧ LOG2 a = .error .domainError) ∨
      (sig a = 2 ^ 30 ∧ LOG2 a = normalize (expo a + log2Bias) 0) ∨
      (0 < sig a ∧ sig a ≠ 2 ^ 30 ∧
        LOG2 a = (normalize (expo a + log2Bias) 0).bind fun i => ADD i (log2Frac (sigBits a))) := by
  by_cases h0 : sig a ≤ 0
  · exact .inl ⟨h0, by rw [LOG2, if_pos h0]⟩
  by_cases h : sig a = 2 ^ 30
  · exact .inr (.inl ⟨h, LOG2_of_power a h0 h⟩)
  · exact .inr (.inr ⟨lt_of_not_ge h0, h, LOG2_of_other a h0 h⟩)

/-- POW2 of an integer other than zero. -/
theorem POW2_of_integer (h0 : sig a ≠ 0) (h1 : ¬ 0 < expo a) (h : fracSig a = 0) :
    POW2 a = normalize (sig ONE) (expo ONE + intPart a) := by
  simp only [POW2, if_neg h0, if_neg h1, if_pos h, bind, Except.bind]

/-- POW2 of a word with a fractional part. -/
theorem POW2_of_fraction (h0 : sig a ≠ 0) (h1 : ¬ 0 < expo a) (h : fracSig a ≠ 0) :
    POW2 a = (normalize (fracSig a) (expo a)).bind fun f =>
      normalize (sig (pow2Frac f)) (expo (pow2Frac f) + intPart a) := by
  simp only [POW2, if_neg h0, if_neg h1, if_neg h, bind, Except.bind]
  cases normalize (fracSig a) (expo a) <;> simp only [Except.map]

/-- Everything POW2 can do. -/
theorem POW2_cases :
    (sig a = 0 ∧ POW2 a = .ok ONE) ∨ (sig a ≠ 0 ∧ 0 < expo a ∧ POW2 a = .error .overflow) ∨
      (sig a ≠ 0 ∧ expo a ≤ 0 ∧ fracSig a = 0 ∧ POW2 a = normalize (sig ONE) (expo ONE + intPart a)) ∨
      (sig a ≠ 0 ∧ expo a ≤ 0 ∧ fracSig a ≠ 0 ∧
        POW2 a = (normalize (fracSig a) (expo a)).bind fun f =>
          normalize (sig (pow2Frac f)) (expo (pow2Frac f) + intPart a)) := by
  by_cases h0 : sig a = 0
  · exact .inl ⟨h0, by rw [POW2, if_pos h0]⟩
  by_cases h1 : 0 < expo a
  · exact .inr (.inl ⟨h0, h1, by rw [POW2, if_neg h0, if_pos h1]⟩)
  by_cases h : fracSig a = 0
  · exact .inr (.inr (.inl ⟨h0, le_of_not_gt h1, h, POW2_of_integer a h0 h1 h⟩))
  · exact .inr (.inr (.inr ⟨h0, le_of_not_gt h1, h, POW2_of_fraction a h0 h1 h⟩))

@[simp] theorem pow10Walk_nil (m k : Nat) (acc : Word) : pow10Walk m k acc [] = .ok acc := rfl

theorem pow10Walk_cons (m k : Nat) (acc t : Word) (ts : List Word) :
    pow10Walk m k acc (t :: ts) =
      if m.testBit k then (MUL acc t).bind fun acc' => pow10Walk m (k + 1) acc' ts
      else pow10Walk m (k + 1) acc ts := rfl

/-- Everything POW can do: a fast path, step 5 or step 6 of R240. -/
theorem POW_cases :
    (∃ r, powFast a e = some r ∧ POW a e = r) ∨
      (powFast a e = none ∧ sig a < 0 ∧ POW a e = powNegative a e) ∨
      (powFast a e = none ∧ 0 ≤ sig a ∧ POW a e = powGeneral a e) := by
  rw [POW]
  cases h : powFast a e with
  | some r => exact .inl ⟨r, rfl, rfl⟩
  | none =>
    by_cases hs : sig a < 0
    · exact .inr (.inl ⟨rfl, hs, by simp [hs]⟩)
    · exact .inr (.inr ⟨rfl, by omega, by simp [hs]⟩)

/-- The recursive call of step 5 of R240 is POW itself: on a base that is not negative they are equal. -/
theorem powNonNegative_eq_POW (h : 0 ≤ sig a) : powNonNegative a e = POW a e := by
  rw [powNonNegative, POW, if_neg (by omega)]

end Sys2Proof.Machine
end

