-- ==== Sys2Proof/Laws/PerInstr.lean ====
section
/-! SUPPORT. The per-instruction family RoundTrip: decoding the word of a well-formed command gives the command back, one
lemma per constructor (spec/30_encoding.md R74 to R77). -/

namespace Sys2Proof.Laws.RoundTrip

/-- A well-formed command survives encoding and decoding. -/
def Statement (i : Instr) : Prop := WellFormed i = true → decode (encode i) = .ok i

theorem wrv (rd : Reg) : Statement (.wrv rd) := by
  intro _; simp only [encode, decode, opcode_assemble]; simp [formD]

theorem rdv (rs1 : Reg) : Statement (.rdv rs1) := by
  intro _; simp only [encode, decode, opcode_assemble]; simp [formS]

theorem mov (rd rs1 : Reg) : Statement (.mov rd rs1) := by
  intro _; simp only [encode, decode, opcode_assemble]; simp [formDS]

theorem ldc (rd : Reg) (index : Imm8) : Statement (.ldc rd index) := by
  intro h; simp only [encode, decode, opcode_assemble]; simp [formDI, h]

theorem norm (rd rs1 rs2 : Reg) : Statement (.norm rd rs1 rs2) := by
  intro _; simp only [encode, decode, opcode_assemble]; simp [formDSS]

theorem fromi64 (rd rs1 : Reg) : Statement (.fromi64 rd rs1) := by
  intro _; simp only [encode, decode, opcode_assemble]; simp [formDS]

theorem fromi32 (rd rs1 : Reg) : Statement (.fromi32 rd rs1) := by
  intro _; simp only [encode, decode, opcode_assemble]; simp [formDS]

theorem toi64 (rd rs1 : Reg) : Statement (.toi64 rd rs1) := by
  intro _; simp only [encode, decode, opcode_assemble]; simp [formDS]

theorem toi32 (rd rs1 : Reg) : Statement (.toi32 rd rs1) := by
  intro _; simp only [encode, decode, opcode_assemble]; simp [formDS]

theorem fromf64 (rd rs1 : Reg) : Statement (.fromf64 rd rs1) := by
  intro _; simp only [encode, decode, opcode_assemble]; simp [formDS]

theorem tof64 (rd rs1 : Reg) : Statement (.tof64 rd rs1) := by
  intro _; simp only [encode, decode, opcode_assemble]; simp [formDS]

theorem add (rd rs1 rs2 : Reg) : Statement (.add rd rs1 rs2) := by
  intro _; simp only [encode, decode, opcode_assemble]; simp [formDSS]

theorem sub (rd rs1 rs2 : Reg) : Statement (.sub rd rs1 rs2) := by
  intro _; simp only [encode, decode, opcode_assemble]; simp [formDSS]

theorem mul (rd rs1 rs2 : Reg) : Statement (.mul rd rs1 rs2) := by
  intro _; simp only [encode, decode, opcode_assemble]; simp [formDSS]

theorem div (rd rs1 rs2 : Reg) : Statement (.div rd rs1 rs2) := by
  intro _; simp only [encode, decode, opcode_assemble]; simp [formDSS]

theorem muldiv (rd rs1 rs2 rs3 : Reg) : Statement (.muldiv rd rs1 rs2 rs3) := by
  intro _; simp only [encode, decode, opcode_assemble]; simp [formDSSS]

theorem divint (rd rs1 rs2 : Reg) : Statement (.divint rd rs1 rs2) := by
  intro _; simp only [encode, decode, opcode_assemble]; simp [formDSS]

theorem rem (rd rs1 rs2 : Reg) : Statement (.rem rd rs1 rs2) := by
  intro _; simp only [encode, decode, opcode_assemble]; simp [formDSS]

theorem divrem (rd rd2 rs1 rs2 : Reg) : Statement (.divrem rd rd2 rs1 rs2) := by
  intro h; simp only [encode, decode, opcode_assemble]; simp [formDDSS, h]

theorem neg (rd rs1 : Reg) : Statement (.neg rd rs1) := by
  intro _; simp only [encode, decode, opcode_assemble]; simp [formDS]

theorem abs (rd rs1 : Reg) : Statement (.abs rd rs1) := by
  intro _; simp only [encode, decode, opcode_assemble]; simp [formDS]

theorem shl (rd rs1 rs2 : Reg) : Statement (.shl rd rs1 rs2) := by
  intro _; simp only [encode, decode, opcode_assemble]; simp [formDSS]

theorem shr (rd rs1 rs2 : Reg) : Statement (.shr rd rs1 rs2) := by
  intro _; simp only [encode, decode, opcode_assemble]; simp [formDSS]

theorem min (rd rs1 rs2 : Reg) : Statement (.min rd rs1 rs2) := by
  intro _; simp only [encode, decode, opcode_assemble]; simp [formDSS]

theorem max (rd rs1 rs2 : Reg) : Statement (.max rd rs1 rs2) := by
  intro _; simp only [encode, decode, opcode_assemble]; simp [formDSS]

theorem floor (rd rs1 : Reg) : Statement (.floor rd rs1) := by
  intro _; simp only [encode, decode, opcode_assemble]; simp [formDS]

theorem round (rd rs1 : Reg) : Statement (.round rd rs1) := by
  intro _; simp only [encode, decode, opcode_assemble]; simp [formDS]

theorem roundto (rd rs1 rs2 : Reg) : Statement (.roundto rd rs1 rs2) := by
  intro _; simp only [encode, decode, opcode_assemble]; simp [formDSS]

theorem cmp (rd rs1 rs2 : Reg) : Statement (.cmp rd rs1 rs2) := by
  intro _; simp only [encode, decode, opcode_assemble]; simp [formDSS]

theorem eq (rd rs1 rs2 : Reg) : Statement (.eq rd rs1 rs2) := by
  intro _; simp only [encode, decode, opcode_assemble]; simp [formDSS]

theorem lt (rd rs1 rs2 : Reg) : Statement (.lt rd rs1 rs2) := by
  intro _; simp only [encode, decode, opcode_assemble]; simp [formDSS]

theorem gt (rd rs1 rs2 : Reg) : Statement (.gt rd rs1 rs2) := by
  intro _; simp only [encode, decode, opcode_assemble]; simp [formDSS]

theorem approx (rd rs1 rs2 : Reg) (bits : Imm8) : Statement (.approx rd rs1 rs2 bits) := by
  intro h; simp only [encode, decode, opcode_assemble]; simp [formDSSI, h]

theorem log2 (rd rs1 : Reg) : Statement (.log2 rd rs1) := by
  intro _; simp only [encode, decode, opcode_assemble]; simp [formDS]

theorem log2i (rd rs1 : Reg) : Statement (.log2i rd rs1) := by
  intro _; simp only [encode, decode, opcode_assemble]; simp [formDS]

theorem pow2 (rd rs1 : Reg) : Statement (.pow2 rd rs1) := by
  intro _; simp only [encode, decode, opcode_assemble]; simp [formDS]

theorem pow (rd rs1 rs2 : Reg) : Statement (.pow rd rs1 rs2) := by
  intro _; simp only [encode, decode, opcode_assemble]; simp [formDSS]

theorem pow10 (rd rs1 : Reg) : Statement (.pow10 rd rs1) := by
  intro _; simp only [encode, decode, opcode_assemble]; simp [formDS]

theorem rdcsr (csr : Imm8) : Statement (.rdcsr csr) := by
  intro h; simp only [encode, decode, opcode_assemble]; simp [formI, h]

theorem clrf : Statement (.clrf) := by
  intro _; simp only [encode, decode, opcode_assemble]; simp [formN]

theorem nop : Statement (.nop) := by
  intro _; simp only [encode, decode, opcode_assemble]; simp [formN]

end Sys2Proof.Laws.RoundTrip
end

