-- ==== Sys2Proof/Laws/State.lean ====
section
/-! SUPPORT. What each named operation of Machine/Ops.lean leaves in each field of the state, so that no later proof unfolds
a record update, and what an operand read answers. -/

namespace Sys2Proof.Machine

variable (s : State) (r rd rd2 : Reg) (v w : Word) (st : BitVec 4) (c : Cause)

/-! ## Reading after writing a value register -/

theorem reg_setReg : (s.setReg rd v).reg r = if r = rd then v else s.reg r := by
  simp only [State.reg, State.setReg, Vector.getElem_set, BitVec.toNat_eq, eq_comm]

@[simp] theorem reg_setReg_same : (s.setReg rd v).reg rd = v := by simp [reg_setReg]

theorem reg_setReg_of_ne (h : r ≠ rd) : (s.setReg rd v).reg r = s.reg r := by simp [reg_setReg, h]

@[simp] theorem setReg_status : (s.setReg rd v).status = s.status := rfl
@[simp] theorem setReg_fcmd : (s.setReg rd v).fcmd = s.fcmd := rfl
@[simp] theorem setReg_fcc : (s.setReg rd v).fcc = s.fcc := rfl
@[simp] theorem setReg_cc : (s.setReg rd v).cc = s.cc := rfl
@[simp] theorem setReg_host : (s.setReg rd v).host = s.host := rfl
@[simp] theorem setReg_cmd : (s.setReg rd v).cmd = s.cmd := rfl
@[simp] theorem setReg_wdata : (s.setReg rd v).wdata = s.wdata := rfl
@[simp] theorem setReg_response : (s.setReg rd v).response = s.response := rfl
@[simp] theorem setReg_faulted : (s.setReg rd v).faulted = s.faulted := rfl

/-! ## Responding -/

@[simp] theorem respond_x : (s.respond st v).x = s.x := rfl
@[simp] theorem respond_reg : (s.respond st v).reg r = s.reg r := rfl
@[simp] theorem respond_status : (s.respond st v).status = s.status := rfl
@[simp] theorem respond_fcmd : (s.respond st v).fcmd = s.fcmd := rfl
@[simp] theorem respond_fcc : (s.respond st v).fcc = s.fcc := rfl
@[simp] theorem respond_cc : (s.respond st v).cc = s.cc + 1 := rfl
@[simp] theorem respond_host : (s.respond st v).host = s.host := rfl
@[simp] theorem respond_cmd : (s.respond st v).cmd = s.cmd := rfl
@[simp] theorem respond_wdata : (s.respond st v).wdata = s.wdata := rfl
@[simp] theorem respond_response : (s.respond st v).response = some ⟨st, v⟩ := rfl

@[simp] theorem complete_x : (s.complete v).x = s.x := rfl
@[simp] theorem complete_reg : (s.complete v).reg r = s.reg r := rfl
@[simp] theorem complete_status : (s.complete v).status = s.status := rfl
@[simp] theorem complete_fcmd : (s.complete v).fcmd = s.fcmd := rfl
@[simp] theorem complete_fcc : (s.complete v).fcc = s.fcc := rfl
@[simp] theorem complete_cc : (s.complete v).cc = s.cc + 1 := rfl
@[simp] theorem complete_host : (s.complete v).host = s.host := rfl
@[simp] theorem complete_cmd : (s.complete v).cmd = s.cmd := rfl
@[simp] theorem complete_wdata : (s.complete v).wdata = s.wdata := rfl
@[simp] theorem complete_response : (s.complete v).response = some ⟨0, v⟩ := rfl

/-! ## Taking a fault, returning from one, skipping, latching -/

@[simp] theorem takeFault_x : (takeFault c s).x = s.x := rfl
@[simp] theorem takeFault_reg : (takeFault c s).reg r = s.reg r := rfl
@[simp] theorem takeFault_status : (takeFault c s).status = setCause c.code (setF true s.status) := rfl
@[simp] theorem takeFault_fcmd : (takeFault c s).fcmd = s.cmd := rfl
@[simp] theorem takeFault_fcc : (takeFault c s).fcc = s.cc := rfl
@[simp] theorem takeFault_cc : (takeFault c s).cc = s.cc + 1 := rfl
@[simp] theorem takeFault_host : (takeFault c s).host = s.host := rfl
@[simp] theorem takeFault_cmd : (takeFault c s).cmd = s.cmd := rfl
@[simp] theorem takeFault_wdata : (takeFault c s).wdata = s.wdata := rfl
@[simp] theorem takeFault_response : (takeFault c s).response = some ⟨c.code, 0⟩ := rfl

@[simp] theorem clearFault_x : (clearFault s).x = s.x := rfl
@[simp] theorem clearFault_reg : (clearFault s).reg r = s.reg r := rfl
@[simp] theorem clearFault_status : (clearFault s).status = setF false s.status := rfl
@[simp] theorem clearFault_fcmd : (clearFault s).fcmd = s.fcmd := rfl
@[simp] theorem clearFault_fcc : (clearFault s).fcc = s.fcc := rfl
@[simp] theorem clearFault_cc : (clearFault s).cc = s.cc := rfl
@[simp] theorem clearFault_host : (clearFault s).host = s.host := rfl
@[simp] theorem clearFault_cmd : (clearFault s).cmd = s.cmd := rfl
@[simp] theorem clearFault_wdata : (clearFault s).wdata = s.wdata := rfl
@[simp] theorem clearFault_response : (clearFault s).response = s.response := rfl

@[simp] theorem skipCommand_x : (skipCommand s).x = s.x := rfl
@[simp] theorem skipCommand_reg : (skipCommand s).reg r = s.reg r := rfl
@[simp] theorem skipCommand_status : (skipCommand s).status = s.status := rfl
@[simp] theorem skipCommand_fcmd : (skipCommand s).fcmd = s.fcmd := rfl
@[simp] theorem skipCommand_fcc : (skipCommand s).fcc = s.fcc := rfl
@[simp] theorem skipCommand_cc : (skipCommand s).cc = s.cc + 1 := rfl
@[simp] theorem skipCommand_host : (skipCommand s).host = s.host := rfl
@[simp] theorem skipCommand_cmd : (skipCommand s).cmd = s.cmd := rfl
@[simp] theorem skipCommand_wdata : (skipCommand s).wdata = s.wdata := rfl
@[simp] theorem skipCommand_response : (skipCommand s).response = some ⟨15, 0⟩ := rfl

section Latch
variable (cmd : CmdWord) (rest : List HostEvent)

@[simp] theorem latch_x : (s.latch cmd v rest).x = s.x := rfl
@[simp] theorem latch_reg : (s.latch cmd v rest).reg r = s.reg r := rfl
@[simp] theorem latch_status : (s.latch cmd v rest).status = s.status := rfl
@[simp] theorem latch_fcmd : (s.latch cmd v rest).fcmd = s.fcmd := rfl
@[simp] theorem latch_fcc : (s.latch cmd v rest).fcc = s.fcc := rfl
@[simp] theorem latch_cc : (s.latch cmd v rest).cc = s.cc := rfl
@[simp] theorem latch_host : (s.latch cmd v rest).host = rest := rfl
@[simp] theorem latch_cmd : (s.latch cmd v rest).cmd = cmd := rfl
@[simp] theorem latch_wdata : (s.latch cmd v rest).wdata = v := rfl
@[simp] theorem latch_response : (s.latch cmd v rest).response = s.response := rfl
@[simp] theorem latch_faulted : (s.latch cmd v rest).faulted = s.faulted := rfl

end Latch

@[simp] theorem hostReset_host : (hostReset s).host = s.host := rfl
@[simp] theorem reset_reg : State.reset.reg r = ZERO := by simp [State.reg, State.reset]

/-! ## Ending a command: it completes with its write, or takes the fault -/

@[simp] theorem finishWrite_ok : finishWrite s rd (.ok w) = (s.setReg rd w).complete 0 := rfl
@[simp] theorem finishWrite_error : finishWrite s rd (.error c) = takeFault c s := rfl
@[simp] theorem finishRead_ok : finishRead s (.ok w) = s.complete w := rfl
@[simp] theorem finishRead_error : finishRead s (.error c) = takeFault c s := rfl
@[simp] theorem finishWrite₂_ok :
    finishWrite₂ s rd rd2 (.ok (v, w)) = ((s.setReg rd v).setReg rd2 w).complete 0 := rfl
@[simp] theorem finishWrite₂_error : finishWrite₂ s rd rd2 (.error c) = takeFault c s := rfl

/-- Everything `finishWrite` can do. -/
theorem finishWrite_cases (x : Except Cause Word) :
    (∃ w, x = .ok w ∧ finishWrite s rd x = (s.setReg rd w).complete 0) ∨
      (∃ c, x = .error c ∧ finishWrite s rd x = takeFault c s) := by
  cases x with
  | ok w => exact .inl ⟨w, rfl, rfl⟩
  | error c => exact .inr ⟨c, rfl, rfl⟩

/-- Everything `finishWrite₂` can do. -/
theorem finishWrite₂_cases (x : Except Cause (Word × Word)) :
    (∃ q m, x = .ok (q, m) ∧ finishWrite₂ s rd rd2 x = ((s.setReg rd q).setReg rd2 m).complete 0) ∨
      (∃ c, x = .error c ∧ finishWrite₂ s rd rd2 x = takeFault c s) := by
  cases x with
  | ok p => exact .inl ⟨p.1, p.2, rfl, rfl⟩
  | error c => exact .inr ⟨c, rfl, rfl⟩

/-- Everything `finishRead` can do. -/
theorem finishRead_cases (x : Except Cause Word) :
    (∃ w, x = .ok w ∧ finishRead s x = s.complete w) ∨ (∃ c, x = .error c ∧ finishRead s x = takeFault c s) := by
  cases x with
  | ok w => exact .inl ⟨w, rfl, rfl⟩
  | error c => exact .inr ⟨c, rfl, rfl⟩

/-! ## Operand reads -/

theorem readScaled_of_canon (h : isCanon (s.reg r)) : readScaled s r = .ok (s.reg r) := by simp [readScaled, h]

theorem readScaled_of_not_canon (h : isCanon (s.reg r) = false) : readScaled s r = .error .invalidOperand := by
  simp [readScaled, h]

/-- Everything a scaled read can answer. -/
theorem readScaled_cases :
    (isCanon (s.reg r) = true ∧ readScaled s r = .ok (s.reg r)) ∨
      (isCanon (s.reg r) = false ∧ readScaled s r = .error .invalidOperand) := by
  cases h : isCanon (s.reg r) with
  | true => exact .inl ⟨rfl, readScaled_of_canon s r h⟩
  | false => exact .inr ⟨rfl, readScaled_of_not_canon s r h⟩

section Operands
variable {α : Type} (rs1 rs2 rs3 : Reg)

theorem withScaled_of_canon (f : Word → Except Cause α) (h : isCanon (s.reg rs1)) :
    withScaled s rs1 f = f (s.reg rs1) := by
  simp [withScaled, readScaled_of_canon s rs1 h, bind, Except.bind]

theorem withScaled₂_of_canon (f : Word → Word → Except Cause α) (h₁ : isCanon (s.reg rs1))
    (h₂ : isCanon (s.reg rs2)) : withScaled₂ s rs1 rs2 f = f (s.reg rs1) (s.reg rs2) := by
  simp [withScaled₂, readScaled_of_canon s _ h₁, readScaled_of_canon s _ h₂, bind, Except.bind]

theorem withScaled₃_of_canon (f : Word → Word → Word → Except Cause α) (h₁ : isCanon (s.reg rs1))
    (h₂ : isCanon (s.reg rs2)) (h₃ : isCanon (s.reg rs3)) :
    withScaled₃ s rs1 rs2 rs3 f = f (s.reg rs1) (s.reg rs2) (s.reg rs3) := by
  simp [withScaled₃, readScaled_of_canon s _ h₁, readScaled_of_canon s _ h₂, readScaled_of_canon s _ h₃, bind,
    Except.bind]

/-- Everything a command with one scaled operand can do: run on a canonical word, or raise InvalidOperand. -/
theorem withScaled_cases (f : Word → Except Cause α) :
    (isCanon (s.reg rs1) = true ∧ withScaled s rs1 f = f (s.reg rs1)) ∨
      (isCanon (s.reg rs1) = false ∧ withScaled s rs1 f = .error .invalidOperand) := by
  rcases readScaled_cases s rs1 with ⟨h, e⟩ | ⟨h, e⟩ <;> simp [withScaled, e, h, bind, Except.bind]

/-- Everything a command with two scaled operands can do. -/
theorem withScaled₂_cases (f : Word → Word → Except Cause α) :
    (isCanon (s.reg rs1) = true ∧ isCanon (s.reg rs2) = true ∧
        withScaled₂ s rs1 rs2 f = f (s.reg rs1) (s.reg rs2)) ∨
      ((isCanon (s.reg rs1) = false ∨ isCanon (s.reg rs2) = false) ∧
        withScaled₂ s rs1 rs2 f = .error .invalidOperand) := by
  rcases readScaled_cases s rs1 with ⟨h₁, e₁⟩ | ⟨h₁, e₁⟩ <;>
    rcases readScaled_cases s rs2 with ⟨h₂, e₂⟩ | ⟨h₂, e₂⟩ <;>
    simp [withScaled₂, e₁, e₂, h₁, h₂, bind, Except.bind]

/-- Everything a command with three scaled operands can do. -/
theorem withScaled₃_cases (f : Word → Word → Word → Except Cause α) :
    (isCanon (s.reg rs1) = true ∧ isCanon (s.reg rs2) = true ∧ isCanon (s.reg rs3) = true ∧
        withScaled₃ s rs1 rs2 rs3 f = f (s.reg rs1) (s.reg rs2) (s.reg rs3)) ∨
      ((isCanon (s.reg rs1) = false ∨ isCanon (s.reg rs2) = false ∨ isCanon (s.reg rs3) = false) ∧
        withScaled₃ s rs1 rs2 rs3 f = .error .invalidOperand) := by
  rcases readScaled_cases s rs1 with ⟨h₁, e₁⟩ | ⟨h₁, e₁⟩ <;>
    rcases readScaled_cases s rs2 with ⟨h₂, e₂⟩ | ⟨h₂, e₂⟩ <;>
    rcases readScaled_cases s rs3 with ⟨h₃, e₃⟩ | ⟨h₃, e₃⟩ <;>
    simp [withScaled₃, e₁, e₂, e₃, h₁, h₂, h₃, bind, Except.bind]

end Operands

end Sys2Proof.Machine
end

