-- ==== Sys2Proof/Laws/Safety.lean ====
section
/-! SUPPORT. How a command that ends in `finishWrite` meets the terms of the statements, `endsAs` and `writesNormalized`
(Sys2Proof/Safety.lean). -/

namespace Sys2Proof.Machine

variable (o : Outcome) (s : State) (rd : Reg) (w : Word) (c : Cause)

@[simp] theorem endsAs_ok : endsAs o s rd (.ok w) ↔ o = .next ((s.setReg rd w).complete 0) := Iff.rfl
@[simp] theorem endsAs_error : endsAs o s rd (.error c) ↔ o = .next (takeFault c s) := Iff.rfl

/-- A command whose end is `finishWrite` ends as the value it is given. -/
theorem endsAs_finishWrite (r : Except Cause Word) : endsAs (.next (finishWrite s rd r)) s rd r := by
  cases r <;> rfl

/-- A command whose end is the normalizer's answer writes the normalized word or overflows. -/
theorem writesNormalized_finishWrite (S E : Int) :
    writesNormalized (.next (finishWrite s rd (normalize S E))) s rd S E :=
  ⟨fun h => by rw [normalize_of_fits h, finishWrite_ok], fun h => by rw [normalize_of_not_fits h, finishWrite_error]⟩

end Sys2Proof.Machine
end

