-- ==== Sys2Proof/Laws/Status.lean ====
section
/-! SUPPORT. The fields of STATUS after an update of one of them (spec/10_state.md R32), and the cause codes. -/

namespace Sys2Proof.Machine

variable (st : BitVec 32) (f : Bool) (c : BitVec 4)

@[simp] theorem statusF_setF : statusF (setF f st) = f := by
  cases f <;> simp [statusF, setF]

@[simp] theorem statusF_setCause : statusF (setCause c st) = statusF st := by
  simp [statusF, setCause]

@[simp] theorem statusCause_setCause : statusCause (setCause c st) = c := by
  apply BitVec.eq_of_getLsbD_eq
  intro i hi
  have : i = 0 ∨ i = 1 ∨ i = 2 ∨ i = 3 := by omega
  rcases this with rfl | rfl | rfl | rfl <;> simp [statusCause, setCause]

@[simp] theorem statusCause_setF : statusCause (setF f st) = statusCause st := by
  apply BitVec.eq_of_getLsbD_eq
  intro i hi
  have : i = 0 ∨ i = 1 ∨ i = 2 ∨ i = 3 := by omega
  rcases this with rfl | rfl | rfl | rfl <;> cases f <;> simp [statusCause, setF]

/-- The reserved bits of STATUS are 0. -/
theorem statusRead_eq_iff : statusRead st = st ↔ st &&& ~~~statusMask = 0 := by
  constructor
  · intro h
    rw [statusRead] at h
    rw [← h, BitVec.and_assoc]
    simp [statusMask]
  · intro h
    apply BitVec.eq_of_getLsbD_eq
    intro i hi
    have := congrArg (fun b => b.getLsbD i) h
    simp only [BitVec.getLsbD_and, BitVec.getLsbD_not] at this
    simp only [statusRead, BitVec.getLsbD_and]
    cases hs : st.getLsbD i <;> cases hm : statusMask.getLsbD i <;> simp_all

theorem statusRead_setF (h : statusRead st = st) : statusRead (setF f st) = setF f st := by
  rw [statusRead_eq_iff] at h ⊢
  apply BitVec.eq_of_getLsbD_eq
  intro i hi
  have hb := congrArg (fun b => b.getLsbD i) h
  simp only [BitVec.getLsbD_and, BitVec.getLsbD_not] at hb
  by_cases h0 : i = 0
  · subst h0; simp [statusMask]
  · simp only [setF, BitVec.getLsbD_and, BitVec.getLsbD_or, BitVec.getLsbD_not, BitVec.getLsbD_setWidth,
      BitVec.getLsbD_ofBool, BitVec.getLsbD_one]
    simp only [h0, decide_false, Bool.false_and, Bool.and_false, Bool.or_false]
    cases hs : st.getLsbD i <;> simp_all

theorem statusRead_setCause (h : statusRead st = st) : statusRead (setCause c st) = setCause c st := by
  rw [statusRead_eq_iff] at h ⊢
  apply BitVec.eq_of_getLsbD_eq
  intro i hi
  have hb := congrArg (fun b => b.getLsbD i) h
  simp only [BitVec.getLsbD_and, BitVec.getLsbD_not] at hb
  by_cases h4 : i < 8
  · have : i = 0 ∨ i = 1 ∨ i = 2 ∨ i = 3 ∨ i = 4 ∨ i = 5 ∨ i = 6 ∨ i = 7 := by omega
    rcases this with rfl | rfl | rfl | rfl | rfl | rfl | rfl | rfl <;>
      simp_all [setCause, statusMask]
  · simp only [setCause, BitVec.getLsbD_and, BitVec.getLsbD_or, BitVec.getLsbD_not, BitVec.getLsbD_shiftLeft,
      BitVec.getLsbD_setWidth]
    have : c.getLsbD (i - 4) = false := BitVec.getLsbD_of_ge _ _ (by omega)
    cases hs : st.getLsbD i <;> simp_all

@[simp] theorem code_ne_zero (c : Cause) : c.code ≠ 0 := by cases c <;> decide

theorem code_injective {c d : Cause} (h : c.code = d.code) : c = d := by
  cases c <;> cases d <;> first | rfl | (exact absurd h (by decide))

end Sys2Proof.Machine
end

