-- ==== Sys2Proof/Laws/Step.lean ====
section
/-! SUPPORT. Everything one step can do (spec/30_encoding.md R72, R78): what fetching answers, and the outcome of each. -/

namespace Sys2Proof.Machine

variable (s t : State)

/-! ## Fetching the host's next event -/

theorem fetch_nil (h : s.host = []) : fetch s = .idle := by simp [fetch, h]

theorem fetch_reset {rest : List HostEvent} (h : s.host = .reset :: rest) :
    fetch s = .reset { s with host := rest } := by simp [fetch, h]

theorem fetch_command {cmd : CmdWord} {w : Word} {rest : List HostEvent} (h : s.host = .command cmd w :: rest) :
    fetch s = classify (s.latch cmd w rest) := by simp [fetch, h]

/-- Everything `classify` can answer. -/
theorem classify_cases :
    (s.skips = true ∧ classify s = .skip s) ∨
      (s.skips = false ∧ ∃ i, decode s.cmd = .ok i ∧ classify s = .run i s) ∨
      (s.skips = false ∧ ∃ e, decode s.cmd = .error e ∧ classify s = .illegal s) := by
  cases hs : s.skips with
  | true => exact .inl ⟨rfl, by simp [classify, hs]⟩
  | false =>
    cases hd : decode s.cmd with
    | ok i => exact .inr (.inl ⟨rfl, i, rfl, by simp [classify, hs, hd]⟩)
    | error e => exact .inr (.inr ⟨rfl, e, rfl, by simp [classify, hs, hd]⟩)

/-! ## The outcome of each -/

theorem step_of_idle (h : fetch s = .idle) : step s = .next s := by simp [step, h]
theorem step_of_reset (h : fetch s = .reset t) : step s = .next (hostReset t) := by simp [step, h]
theorem step_of_skip (h : fetch s = .skip t) : step s = .next (skipCommand t) := by simp [step, h]
theorem step_of_illegal (h : fetch s = .illegal t) : step s = .next (takeFault .illegalCommand t) := by simp [step, h]
theorem step_of_run {i : Instr} (h : fetch s = .run i t) : step s = exec i t := by simp [step, h]

/-- Everything one step can do. -/
theorem step_cases :
    (s.host = [] ∧ step s = .next s) ∨
      (∃ rest, s.host = .reset :: rest ∧ step s = .next (hostReset { s with host := rest })) ∨
      (∃ cmd w rest, s.host = .command cmd w :: rest ∧
        (((s.latch cmd w rest).skips = true ∧ step s = .next (skipCommand (s.latch cmd w rest))) ∨
          ((s.latch cmd w rest).skips = false ∧ ∃ i, decode cmd = .ok i ∧ step s = exec i (s.latch cmd w rest)) ∨
          ((s.latch cmd w rest).skips = false ∧ (∃ e, decode cmd = .error e) ∧
            step s = .next (takeFault .illegalCommand (s.latch cmd w rest))))) := by
  cases h : s.host with
  | nil => exact .inl ⟨rfl, step_of_idle s (fetch_nil s h)⟩
  | cons e rest =>
    cases e with
    | reset => exact .inr (.inl ⟨rest, rfl, step_of_reset s _ (fetch_reset s h)⟩)
    | command cmd w =>
      refine .inr (.inr ⟨cmd, w, rest, rfl, ?_⟩)
      have hf := fetch_command s h
      rcases classify_cases (s.latch cmd w rest) with ⟨hs, hc⟩ | ⟨hs, i, hd, hc⟩ | ⟨hs, e, hd, hc⟩
      · exact .inl ⟨hs, step_of_skip s _ (hf.trans hc)⟩
      · exact .inr (.inl ⟨hs, i, hd, step_of_run s _ (hf.trans hc)⟩)
      · exact .inr (.inr ⟨hs, ⟨e, hd⟩, step_of_illegal s _ (hf.trans hc)⟩)

end Sys2Proof.Machine
end

