-- ==== Sys2Proof/Tests/Slice0.lean ====
section
/-! SUPPORT. Tests. Expected values come from the spec: words from the encodings of spec/30_encoding.md R74 to R77, results
from the vectors of spec/95_test_vectors.md. A theorem `witness_<Name>` shows operands and a state that meet the hypotheses
of `Obligations.<Name>`, each clause at an end of its range where it has one. -/

namespace Sys2Proof.Tests.Slice0

open Sys2Proof.Machine

/-! ## WellFormed refuses each ill-formed command (R76, R79) -/

theorem test_ldc_between_the_two_ranges_is_ill_formed : WellFormed (.ldc 1 7) = false := by decide
theorem test_ldc_below_the_table_is_ill_formed : WellFormed (.ldc 1 31) = false := by decide
theorem test_ldc_past_the_table_is_ill_formed : WellFormed (.ldc 1 62) = false := by decide
theorem test_approx_of_no_bits_is_ill_formed : WellFormed (.approx 3 1 2 0) = false := by decide
theorem test_approx_of_32_bits_is_ill_formed : WellFormed (.approx 3 1 2 32) = false := by decide
theorem test_rdcsr_of_a_missing_register_is_ill_formed : WellFormed (.rdcsr 4) = false := by decide
theorem test_divrem_to_one_register_is_ill_formed : WellFormed (.divrem 3 3 1 2) = false := by decide

/-! ## Decoding words written out from the encodings (R74, R75, R77): opcode, rd, rs1, rs2, rs3, imm8 -/

theorem test_decode_wrv : decode 0x01100000#32 = .ok (.wrv 1) := by decide
theorem test_decode_rdv : decode 0x02010000#32 = .ok (.rdv 1) := by decide
theorem test_decode_mov : decode 0x03310000#32 = .ok (.mov 3 1) := by decide
theorem test_decode_ldc : decode 0x0410003D#32 = .ok (.ldc 1 61) := by decide
theorem test_decode_norm : decode 0x05312000#32 = .ok (.norm 3 1 2) := by decide
theorem test_decode_fromi64 : decode 0x06310000#32 = .ok (.fromi64 3 1) := by decide
theorem test_decode_fromi32 : decode 0x07310000#32 = .ok (.fromi32 3 1) := by decide
theorem test_decode_toi64 : decode 0x08740000#32 = .ok (.toi64 7 4) := by decide
theorem test_decode_toi32 : decode 0x09740000#32 = .ok (.toi32 7 4) := by decide
theorem test_decode_fromf64 : decode 0x0A310000#32 = .ok (.fromf64 3 1) := by decide
theorem test_decode_tof64 : decode 0x0B310000#32 = .ok (.tof64 3 1) := by decide
theorem test_decode_add : decode 0x10312000#32 = .ok (.add 3 1 2) := by decide
theorem test_decode_sub : decode 0x11655000#32 = .ok (.sub 6 5 5) := by decide
theorem test_decode_mul : decode 0x12412000#32 = .ok (.mul 4 1 2) := by decide
theorem test_decode_div : decode 0x13512000#32 = .ok (.div 5 1 2) := by decide
theorem test_decode_muldiv : decode 0x14312400#32 = .ok (.muldiv 3 1 2 4) := by decide
theorem test_decode_divint : decode 0x15312000#32 = .ok (.divint 3 1 2) := by decide
theorem test_decode_rem : decode 0x16312000#32 = .ok (.rem 3 1 2) := by decide
theorem test_decode_divrem : decode 0x17312400#32 = .ok (.divrem 3 4 1 2) := by decide
theorem test_decode_neg : decode 0x18310000#32 = .ok (.neg 3 1) := by decide
theorem test_decode_abs : decode 0x19310000#32 = .ok (.abs 3 1) := by decide
theorem test_decode_shl : decode 0x1A312000#32 = .ok (.shl 3 1 2) := by decide
theorem test_decode_shr : decode 0x1B312000#32 = .ok (.shr 3 1 2) := by decide
theorem test_decode_min : decode 0x1C312000#32 = .ok (.min 3 1 2) := by decide
theorem test_decode_max : decode 0x1D312000#32 = .ok (.max 3 1 2) := by decide
theorem test_decode_floor : decode 0x1E310000#32 = .ok (.floor 3 1) := by decide
theorem test_decode_round : decode 0x1F310000#32 = .ok (.round 3 1) := by decide
theorem test_decode_roundto : decode 0x20311000#32 = .ok (.roundto 3 1 1) := by decide
theorem test_decode_cmp : decode 0x28312000#32 = .ok (.cmp 3 1 2) := by decide
theorem test_decode_eq : decode 0x29312000#32 = .ok (.eq 3 1 2) := by decide
theorem test_decode_lt : decode 0x2A312000#32 = .ok (.lt 3 1 2) := by decide
theorem test_decode_gt : decode 0x2B312000#32 = .ok (.gt 3 1 2) := by decide
theorem test_decode_approx : decode 0x2C31201F#32 = .ok (.approx 3 1 2 31) := by decide
theorem test_decode_log2 : decode 0x30320000#32 = .ok (.log2 3 2) := by decide
theorem test_decode_log2i : decode 0x31320000#32 = .ok (.log2i 3 2) := by decide
theorem test_decode_pow2 : decode 0x32310000#32 = .ok (.pow2 3 1) := by decide
theorem test_decode_pow : decode 0x33534000#32 = .ok (.pow 5 3 4) := by decide
theorem test_decode_pow10 : decode 0x34310000#32 = .ok (.pow10 3 1) := by decide
theorem test_decode_rdcsr : decode 0x38000003#32 = .ok (.rdcsr 3) := by decide
theorem test_decode_clrf : decode 0x39000000#32 = .ok (.clrf) := by decide
theorem test_decode_nop : decode 0x3A000000#32 = .ok (.nop) := by decide

/-! ## Words that are no command (R79, spec/95_test_vectors.md section 2.9) -/

theorem test_all_zero_word_is_illegal : decode 0x00000000#32 = .error .unassignedOpcode := by decide
theorem test_all_ones_word_is_illegal : decode 0xFFFFFFFF#32 = .error .unassignedOpcode := by decide
theorem test_nop_with_an_immediate_is_illegal : decode 0x3A000001#32 = .error .nonzeroUnusedField := by decide
theorem test_add_with_an_immediate_is_illegal : decode 0x10312001#32 = .error .nonzeroUnusedField := by decide
theorem test_fromi64_with_rs3_is_illegal : decode 0x06110100#32 = .error .nonzeroUnusedField := by decide
theorem test_ldc_7_is_illegal : decode 0x04100007#32 = .error .illegalImmediate := by decide
theorem test_approx_32_is_illegal : decode 0x2C312020#32 = .error .illegalImmediate := by decide
theorem test_divrem_to_one_register_is_illegal : decode 0x17312300#32 = .error .equalDestinations := by decide

/-! ## The host's view -/

theorem test_table_word : decodeTableWord 32 0x10312000 = some (.add 3 1 2) := by decide
theorem test_fetch_of_a_table_word_runs_it :
    step (State.reset.withFetchWord 32 0x3A000000) =
      exec .nop (State.reset.latch 0x3A000000#32 0 []) := by rfl

/-! ## One step of each command (spec/95_test_vectors.md section 2) -/

/-- Reset, with three value registers loaded. -/
def ops (a b c : Word) : State := ((State.reset.setReg 1 a).setReg 2 b).setReg 4 c

/-- The status of the response, and a value register. -/
def result (o : Outcome) (r : Reg) : Option (BitVec 4 × Word) :=
  match o with
  | .next t => t.response.map fun p => (p.status, t.reg r)
  | .fault _ => none
  | .refused _ => none

/-- The response. -/
def answer (o : Outcome) : Option (BitVec 4 × Word) :=
  match o with
  | .next t => t.response.map fun p => (p.status, p.rdata)
  | .fault _ => none
  | .refused _ => none

theorem test_norm_floors_a_negative_significand :
    result (exec (.norm 3 1 2) (ops 0x8000000000000001#64 0 0)) 3 = some (0, 0x8000000000000020#64) := by decide
theorem test_norm_overflows_at_the_sentinel :
    result (exec (.norm 3 1 2) (ops 0x0000000000000001#64 0xFFFFFFFF8000001E#64 0)) 3 = some (1, 0x0000000080000000#64) := by decide
theorem test_fromi64_of_minus_five :
    result (exec (.fromi64 3 1) (ops 0xFFFFFFFFFFFFFFFB#64 0 0)) 3 = some (0, 0xB0000000FFFFFFE4#64) := by decide
theorem test_fromi64_of_the_greatest_integer :
    result (exec (.fromi64 3 1) (ops 0x7FFFFFFFFFFFFFFF#64 0 0)) 3 = some (0, 0x7FFFFFFF00000020#64) := by decide
theorem test_fromi32_ignores_the_upper_half :
    result (exec (.fromi32 3 1) (ops 0xDEADBEEF00000005#64 0 0)) 3 = some (0, 0x50000000FFFFFFE4#64) := by decide
theorem test_fromi32_is_signed :
    result (exec (.fromi32 3 1) (ops 0x0000000080000000#64 0 0)) 3 = some (0, 0x8000000000000000#64) := by decide
theorem test_toi64_of_the_least_integer :
    result (exec (.toi64 3 1) (ops 0x8000000000000020#64 0 0)) 3 = some (0, 0x8000000000000000#64) := by decide
theorem test_toi64_of_a_fraction :
    result (exec (.toi64 3 1) (ops 0x60000000FFFFFFE2#64 0 0)) 3 = some (4, 0x0000000080000000#64) := by decide
theorem test_toi32_sign_extends :
    result (exec (.toi32 3 1) (ops 0x8000000000000000#64 0 0)) 3 = some (0, 0xFFFFFFFF80000000#64) := by decide
theorem test_toi32_out_of_range :
    result (exec (.toi32 3 1) (ops 0x4000000000000001#64 0 0)) 3 = some (4, 0x0000000080000000#64) := by decide
theorem test_fromf64_floors :
    result (exec (.fromf64 3 1) (ops 0xBFB999999999999A#64 0 0)) 3 = some (0, 0x99999999FFFFFFDE#64) := by decide
theorem test_fromf64_of_a_nan :
    result (exec (.fromf64 3 1) (ops 0x7FF8000000000000#64 0 0)) 3 = some (3, 0x0000000080000000#64) := by decide
theorem test_tof64_keeps_the_sign_of_a_lost_value :
    result (exec (.tof64 3 1) (ops 0x80000000FFFFFBAE#64 0 0)) 3 = some (0, 0x8000000000000000#64) := by decide
theorem test_tof64_of_a_subnormal :
    result (exec (.tof64 3 1) (ops 0x7FFFFFFFFFFFFBE3#64 0 0)) 3 = some (0, 0x000FFFFFFFE00000#64) := by decide
theorem test_add_floors_the_lesser_operand :
    result (exec (.add 3 1 2) (ops 0x40000000FFFFFFE2#64 0xBFFFFFFFFFFFFFC3#64 0)) 3 = some (0, 0x7FFFFFFEFFFFFFE1#64) := by decide
theorem test_add_carries_out_of_range :
    result (exec (.add 3 1 2) (ops 0x400000007FFFFFFF#64 0x400000007FFFFFFF#64 0)) 3 = some (1, 0x0000000080000000#64) := by decide
theorem test_sub_from_zero :
    result (exec (.sub 3 1 2) (ops 0x0000000080000000#64 0x60000000FFFFFFE3#64 0)) 3 = some (0, 0xA0000000FFFFFFE3#64) := by decide
theorem test_sub_to_a_dropped_receiver :
    result (exec (.sub 3 1 2) (ops 0x40000000FFFFFFC2#64 0x40000000FFFFFFE2#64 0)) 3 = some (0, 0x80000000FFFFFFE1#64) := by decide
theorem test_mul_floors_a_negative_product :
    result (exec (.mul 3 1 2) (ops 0xBFFFFFFFFFFFFFE2#64 0x40000001FFFFFFE2#64 0)) 3 = some (0, 0xBFFFFFFDFFFFFFE2#64) := by decide
theorem test_mul_below_the_range :
    result (exec (.mul 3 1 2) (ops 0x40000000BFFFFFF0#64 0x40000000BFFFFFF0#64 0)) 3 = some (1, 0x0000000080000000#64) := by decide
theorem test_div_rounds_toward_zero :
    result (exec (.div 3 1 2) (ops 0x40000000FFFFFFE2#64 0xA0000000FFFFFFE3#64 0)) 3 = some (0, 0xAAAAAAABFFFFFFE0#64) := by decide
theorem test_div_by_zero :
    result (exec (.div 3 1 2) (ops 0x0000000080000000#64 0x0000000080000000#64 0)) 3 = some (2, 0x0000000080000000#64) := by decide
theorem test_muldiv_has_one_quotient :
    result (exec (.muldiv 3 1 2 4) (ops 0xA0000000FFFFFFE3#64 0x50000000FFFFFFE4#64 0x70000000FFFFFFE4#64)) 3 = some (0, 0xBB6DB6DCFFFFFFE3#64) := by decide
theorem test_muldiv_keeps_a_wide_exponent :
    result (exec (.muldiv 3 1 2 4) (ops 0x400000007FFFFFFF#64 0x400000007FFFFFFF#64 0x400000007FFFFFFF#64)) 3 = some (0, 0x400000007FFFFFFF#64) := by decide
theorem test_divint_of_a_negative_dividend :
    result (exec (.divint 3 1 2) (ops 0xBE780000FFFFFFED#64 0x40F00000FFFFFFEC#64 0)) 3 = some (0, 0x80000000FFFFFFE2#64) := by decide
theorem test_divint_of_a_great_quotient :
    result (exec (.divint 3 1 2) (ops 0x4000000000000028#64 0x60000000FFFFFFE3#64 0)) 3 = some (0, 0x5555555500000026#64) := by decide
theorem test_rem_has_the_sign_of_the_dividend :
    result (exec (.rem 3 1 2) (ops 0xBE780000FFFFFFED#64 0x40F00000FFFFFFEC#64 0)) 3 = some (0, 0xB4000000FFFFFFE6#64) := by decide
theorem test_rem_of_a_small_dividend_is_the_dividend :
    result (exec (.rem 3 1 2) (ops 0x40000000FFFFFFE2#64 0x60000000FFFFFFE3#64 0)) 3 = some (0, 0x40000000FFFFFFE2#64) := by decide
theorem test_neg_of_the_least_significand :
    result (exec (.neg 3 1) (ops 0x80000000FFFFFFE1#64 0 0)) 3 = some (0, 0x40000000FFFFFFE2#64) := by decide
theorem test_neg_below_the_range :
    result (exec (.neg 3 1) (ops 0x4000000080000001#64 0 0)) 3 = some (1, 0x0000000080000000#64) := by decide
theorem test_abs_of_a_negative_value :
    result (exec (.abs 3 1) (ops 0x8000000080000001#64 0 0)) 3 = some (0, 0x4000000080000002#64) := by decide
theorem test_abs_above_the_range :
    result (exec (.abs 3 1) (ops 0x800000007FFFFFFF#64 0 0)) 3 = some (1, 0x0000000080000000#64) := by decide
theorem test_shl_by_a_negative_count :
    result (exec (.shl 3 1 2) (ops 0x40000000FFFFFFE2#64 0xFFFFFFFF8000001F#64 0)) 3 = some (0, 0x4000000080000001#64) := by decide
theorem test_shl_of_zero :
    result (exec (.shl 3 1 2) (ops 0x0000000080000000#64 0x0DE0B6B3A7640000#64 0)) 3 = some (0, 0x0000000080000000#64) := by decide
theorem test_shr_halves :
    result (exec (.shr 3 1 2) (ops 0x60000000FFFFFFE3#64 0x0000000000000004#64 0)) 3 = some (0, 0x60000000FFFFFFDF#64) := by decide
theorem test_shr_out_of_range :
    result (exec (.shr 3 1 2) (ops 0x40000000FFFFFFE2#64 0x000000008000001D#64 0)) 3 = some (1, 0x0000000080000000#64) := by decide
theorem test_min_is_not_numeric :
    result (exec (.min 3 1 2) (ops 0x80000000FFFFFFE1#64 0x80000000FFFFFFE3#64 0)) 3 = some (0, 0x80000000FFFFFFE1#64) := by decide
theorem test_max_of_zero_and_a_negative_value :
    result (exec (.max 3 1 2) (ops 0x0000000080000000#64 0x80000000FFFFFFE1#64 0)) 3 = some (0, 0x80000000FFFFFFE1#64) := by decide
theorem test_floor_of_a_negative_value :
    result (exec (.floor 3 1) (ops 0xB0000000FFFFFFE3#64 0 0)) 3 = some (0, 0xA0000000FFFFFFE3#64) := by decide
theorem test_floor_of_a_tiny_negative_value :
    result (exec (.floor 3 1) (ops 0x80000000FFFFFFB9#64 0 0)) 3 = some (0, 0x80000000FFFFFFE1#64) := by decide
theorem test_round_of_a_negative_half :
    result (exec (.round 3 1) (ops 0x80000000FFFFFFE0#64 0 0)) 3 = some (0, 0x0000000080000000#64) := by decide
theorem test_round_of_three_quarters :
    result (exec (.round 3 1) (ops 0x60000000FFFFFFE1#64 0 0)) 3 = some (0, 0x40000000FFFFFFE2#64) := by decide
theorem test_roundto_comes_before_the_operand_check :
    result (exec (.roundto 3 1 1) (ops 0xC0000000FFFFFFE2#64 0 0)) 3 = some (5, 0x0000000080000000#64) := by decide
theorem test_cmp_is_not_numeric :
    result (exec (.cmp 3 1 2) (ops 0x40000000FFFFFFE2#64 0x80000000FFFFFFE3#64 0)) 3 = some (0, 0xFFFFFFFFFFFFFFFF#64) := by decide
theorem test_eq_of_zero_and_zero :
    result (exec (.eq 3 1 2) (ops 0x0000000080000000#64 0x0000000080000000#64 0)) 3 = some (0, 0x0000000000000001#64) := by decide
theorem test_lt_of_zero_and_a_negative_value :
    result (exec (.lt 3 1 2) (ops 0x0000000080000000#64 0x80000000FFFFFFE1#64 0)) 3 = some (0, 0x0000000000000001#64) := by decide
theorem test_gt_by_the_significand :
    result (exec (.gt 3 1 2) (ops 0xB0000000FFFFFFE4#64 0x90000000FFFFFFE4#64 0)) 3 = some (0, 0x0000000000000001#64) := by decide
theorem test_approx_across_a_binade :
    result (exec (.approx 3 1 2 31) (ops 0x40000000FFFFFFE3#64 0x7FFFFFFFFFFFFFE2#64 0)) 3 = some (0, 0x0000000000000001#64) := by decide
theorem test_approx_halves_the_first_operand :
    result (exec (.approx 3 1 2 31) (ops 0x7FFFFFFDFFFFFFE2#64 0x40000000FFFFFFE3#64 0)) 3 = some (0, 0) := by decide
theorem test_log2_of_1024 :
    result (exec (.log2 3 1) (ops 0x40000000FFFFFFEC#64 0 0)) 3 = some (0, 0x50000000FFFFFFE5#64) := by decide
theorem test_log2_of_zero :
    result (exec (.log2 3 1) (ops 0x0000000080000000#64 0 0)) 3 = some (3, 0x0000000080000000#64) := by decide
theorem test_log2i_of_three_quarters :
    result (exec (.log2i 3 1) (ops 0x60000000FFFFFFE1#64 0 0)) 3 = some (0, 0xFFFFFFFFFFFFFFFF#64) := by decide
theorem test_log2i_of_the_greatest_value :
    result (exec (.log2i 3 1) (ops 0x7FFFFFFF7FFFFFFF#64 0 0)) 3 = some (0, 0x000000008000001D#64) := by decide
theorem test_pow2_of_ten :
    result (exec (.pow2 3 1) (ops 0x50000000FFFFFFE5#64 0 0)) 3 = some (0, 0x40000000FFFFFFEC#64) := by decide
theorem test_pow2_of_a_great_value :
    result (exec (.pow2 3 1) (ops 0x4000000000000001#64 0 0)) 3 = some (1, 0x0000000080000000#64) := by decide
theorem test_pow_of_a_power_of_two :
    result (exec (.pow 3 1 2) (ops 0x40000000FFFFFFE4#64 0x60000000FFFFFFE2#64 0)) 3 = some (0, 0x40000000FFFFFFE5#64) := by decide
theorem test_pow_of_minus_ten :
    result (exec (.pow 3 1 2) (ops 0xB0000000FFFFFFE5#64 0x60000000FFFFFFE3#64 0)) 3 = some (0, 0x83000000FFFFFFEB#64) := by decide
theorem test_pow10_of_23 :
    result (exec (.pow10 3 1) (ops 0x0000000000000017#64 0 0)) 3 = some (0, 0x54B40B1E0000002E#64) := by decide
theorem test_pow10_of_minus_three :
    result (exec (.pow10 3 1) (ops 0xFFFFFFFFFFFFFFFD#64 0 0)) 3 = some (0, 0x4189374BFFFFFFD8#64) := by decide
theorem test_mov_copies_a_non_canonical_word :
    result (exec (.mov 3 1) (ops 0xC0000000FFFFFFE2#64 0 0)) 3 = some (0, 0xC0000000FFFFFFE2#64) := by decide
theorem test_ldc_of_pi :
    result (exec (.ldc 3 4) (ops 0 0 0)) 3 = some (0, 0x6487ED51FFFFFFE3#64) := by decide
theorem test_ldc_of_the_last_table_entry :
    result (exec (.ldc 3 61) (ops 0 0 0)) 3 = some (0, 0x777A5BEB6A4D3C07#64) := by decide
theorem test_wrv_stores_the_data_word :
    result (exec (.wrv 3) { State.reset with wdata := 0xC0000000FFFFFFE2#64 }) 3 = some (0, 0xC0000000FFFFFFE2#64) := by
  decide
theorem test_rdv_answers_the_raw_word :
    answer (exec (.rdv 1) (ops 0xC0000000FFFFFFE2#64 0 0)) = some (0, 0xC0000000FFFFFFE2#64) := by decide
theorem test_divrem_writes_the_quotient :
    result (exec (.divrem 3 5 1 2) (ops 0x41880000FFFFFFED#64 0x40F00000FFFFFFEC#64 0)) 3 =
      some (0, 0x40000000FFFFFFE3#64) := by decide
theorem test_divrem_writes_the_remainder :
    result (exec (.divrem 3 5 1 2) (ops 0x41880000FFFFFFED#64 0x40F00000FFFFFFEC#64 0)) 5 =
      some (0, 0x4C000000FFFFFFE6#64) := by decide
theorem test_non_canonical_operand_comes_before_the_zero_divisor :
    result (exec (.div 3 1 2) (ops 0xC0000000FFFFFFE2#64 ZERO 0)) 3 = some (7, ZERO) := by decide

/-- A unit that has faulted: DIV of ONE by ZERO as the command of index 0. -/
def faulted : State := takeFault .divisionByZero { State.reset with cmd := 0x13312000#32 }

theorem test_rdcsr_status_after_a_fault : answer (exec (.rdcsr 0) faulted) = some (0, 0x21) := by decide
theorem test_rdcsr_cc_is_the_index_of_the_command : answer (exec (.rdcsr 3) faulted) = some (0, 1) := by decide
theorem test_clrf_keeps_the_cause :
    answer (exec (.rdcsr 0) ((clearFault faulted).complete 0)) = some (0, 0x20) := by decide
theorem test_nop_is_skipped_while_faulted :
    answer (step { faulted with host := [.command 0x3A000000#32 0] }) = some (15, 0) := by decide
theorem test_illegal_word_is_skipped_while_faulted :
    answer (step { faulted with host := [.command 0x00000000#32 0] }) = some (15, 0) := by decide
theorem test_illegal_rdcsr_faults_while_faulted :
    answer (step { faulted with host := [.command 0x38000004#32 0] }) = some (8, 0) := by decide
theorem test_reset_leaves_nothing : step { faulted with host := [.reset] } = .next State.reset := rfl

/-! ## Witnesses: operands and states that meet the hypotheses of the obligations -/

/-- The value of a word from its two fields. -/
theorem val_fields (w : Word) {s e : Int} (hs : sig w = s) (he : expo w = e) : val w = (s : ℚ) * 2 ^ e := by
  rw [val, hs, he]

/-- 1/2 is the value of no integer. -/
theorem half_ne_int (n : Int) : ((1 : ℚ) / 2) ≠ n := by
  intro h
  have : (1 : ℚ) = 2 * n := by linarith
  have : (1 : Int) = 2 * n := by exact_mod_cast this
  omega

/-- A state with one transaction to come. -/
def next (s : State) (cmd : CmdWord) (w : Word) : State := { s with host := [.command cmd w] }

theorem witness_DecodeOfEncodeIsTheCommand :
    WellFormed (.ldc 15 61) = true ∧ WellFormed (.approx 0 1 2 1) = true ∧ WellFormed (.divrem 0 15 1 2) = true := by
  decide

theorem witness_EncodeOfDecodeIsTheWord : decode 0x2CF0F01F#32 = .ok (.approx 15 0 15 31) := by decide

theorem witness_LegalWordsAreTheRowsOfTheMap :
    (⟨"ADD", 0x10000000, 0xFF000FFF⟩ : OpcodeRow) ∈ opcodeMap ∧
      OpcodeRow.fits ⟨"ADD", 0x10000000, 0xFF000FFF⟩ 0x10312000#32 = true := by decide

theorem witness_StepRunsTheDecodedCommand :
    (next faulted 0x39000000#32 7).host = .command 0x39000000#32 7 :: [] ∧
      (CmdWord.opcode 0x39000000#32) = 0x39#8 ∧ decode 0x39000000#32 = .ok .clrf ∧
      State.reset.faulted = false := ⟨rfl, by decide, by decide, by decide⟩

theorem witness_FaultedUnitSkips :
    (next faulted 0x01500000#32 7).host = .command 0x01500000#32 7 :: [] ∧
      (next faulted 0x01500000#32 7).faulted = true ∧ CmdWord.opcode 0x01500000#32 ≠ 0x02#8 ∧
      CmdWord.opcode 0x01500000#32 ≠ 0x38#8 ∧ CmdWord.opcode 0x01500000#32 ≠ 0x39#8 :=
  ⟨rfl, by decide, by decide, by decide, by decide⟩

theorem witness_IllegalWordRaisesIllegalCommand :
    (next faulted 0x38000004#32 0).host = .command 0x38000004#32 0 :: [] ∧
      CmdWord.opcode 0x38000004#32 = 0x38#8 ∧ ∀ i, decode 0x38000004#32 ≠ .ok i := by
  refine ⟨rfl, by decide, fun i h => ?_⟩
  rw [show decode 0x38000004#32 = .error .illegalImmediate by decide] at h
  cases h

theorem witness_ResetRestoresEveryRegister : ({ faulted with host := [.reset] } : State).host = .reset :: [] := rfl

theorem witness_EveryTransactionIsAnsweredAndCounted :
    (next faulted 0x00000000#32 0).host = .command 0x00000000#32 0 :: [] ∧ State.reset.host = [] := ⟨rfl, rfl⟩

theorem witness_FaultsArePrecise : ∃ t r, exec (.div 3 1 2) State.reset = .next t ∧ t.response = some r ∧
    r.status ≠ 0 :=
  ⟨takeFault .divisionByZero State.reset, ⟨2, 0⟩, by rfl, rfl, by decide⟩

theorem witness_CompletedCommandsWriteOnlyTheirDestinations :
    ∃ t r, exec (.mov 3 1) faulted = .next t ∧ t.response = some r ∧ r.status = 0 :=
  ⟨(faulted.setReg 3 ZERO).complete 0, ⟨0, 0⟩, by rfl, rfl, rfl⟩

theorem witness_OnlyClrfOrResetLeavesFaulted :
    (next faulted 0x39000000#32 5).faulted = true ∧
      (∃ t, step (next faulted 0x39000000#32 5) = .next t ∧ t.faulted = false) ∧
      ∃ t, step { faulted with host := [.reset] } = .next t ∧ t.faulted = false :=
  ⟨by decide, ⟨_, rfl, by decide⟩, ⟨_, rfl, by decide⟩⟩

theorem witness_DataWordMattersToWrvOnly : CmdWord.opcode 0x02010000#32 ≠ 0x01#8 := by decide

theorem witness_ResultsDependOnTheOperandsOnly :
    (∀ r ∈ sources (.mov 3 1), State.reset.reg r = faulted.reg r) ∧ State.reset.wdata = faulted.wdata ∧
      (∀ n, Instr.mov 3 1 ≠ .rdcsr n) ∧ (∃ t, exec (.mov 3 1) State.reset = .next t ∧ t.response = some ⟨0, 0⟩) ∧
      ∃ v, exec (.mov 3 1) faulted = .next v :=
  ⟨by decide, rfl, fun _ h => (by cases h), ⟨_, rfl, rfl⟩, ⟨_, rfl⟩⟩

theorem witness_FaultEntryRecordsTheFault : (1 ≠ 0 ∧ (1 < 4 ∨ 8 ≤ 1)) ∧ (8 ≠ 0 ∧ (8 < 4 ∨ 8 ≤ 8)) := by decide

theorem witness_RaisedCauseBelongsToTheCommand : ∃ t, WellFormed (.log2 3 1) = true ∧
    exec (.log2 3 1) State.reset = .next t ∧ t.response = some ⟨Cause.domainError.code, 0⟩ :=
  ⟨takeFault .domainError State.reset, by decide, by rfl, rfl⟩

theorem witness_NonCanonicalOperandRaisesInvalidOperand :
    WellFormed (.divrem 3 4 1 2) = true ∧
      (∃ r ∈ scaledSources (.divrem 3 4 1 2), isCanon ((ops ZERO 1 0).reg r) = false) ∧
      (∀ r ∈ scaledSources (.divrem 3 4 1 2), isCanon ((ops ONE TWO 0).reg r) = true) ∧
      ∃ t, exec (.divrem 3 4 1 2) (ops ONE TWO 0) = .next t := by
  refine ⟨by decide, ⟨2, by decide, by decide⟩, by decide, ⟨_, rfl⟩⟩

theorem witness_EveryStepKeepsTheInvariant :
    ∃ t, Inv (next faulted 0x39000000#32 0) ∧ step (next faulted 0x39000000#32 0) = .next t := by
  refine ⟨_, ⟨by decide, .inr (.inr ⟨.div 3 1 2, .divisionByZero, by decide, by decide, by decide⟩), ?_⟩, rfl⟩
  rintro r ⟨⟩
  exact .inr ⟨rfl, .inr ⟨.divisionByZero, by decide, rfl⟩⟩

theorem witness_ScaledResultsAreCanonical : ∃ t, exec (.divrem 3 4 1 2) (ops ONE TWO 0) = .next t ∧
    t.response = some ⟨0, 0⟩ ∧ scaledDestinations (.divrem 3 4 1 2) = [3, 4] :=
  ⟨(((ops ONE TWO 0).setReg 3 ZERO).setReg 4 ONE).complete 0, by rfl, rfl, rfl⟩

theorem witness_SystemCommandsComplete : 3 < (4 : Imm8).toNat ∧ 3 < (255 : Imm8).toNat ∧ (31 : Nat) ≠ 0 := by decide

theorem witness_LdcLoadsTheConstant :
    (6 : Imm8).toNat ≤ 6 ∧ (32 ≤ (32 : Imm8).toNat ∧ (32 : Imm8).toNat ≤ 61) ∧
      (32 ≤ (61 : Imm8).toNat ∧ (61 : Imm8).toNat ≤ 61) ∧ (6 < (7 : Imm8).toNat ∧ (7 : Imm8).toNat < 32) ∧
      (6 < (31 : Imm8).toNat ∧ (31 : Imm8).toNat < 32) ∧ (6 < (62 : Imm8).toNat ∧ 61 < (62 : Imm8).toNat) := by decide

theorem witness_NormCompletesOrOverflows : fits 1 2147483677 = true ∧ fits 1 2147483678 = false ∧
    fits 1 (-2147483617) = true ∧ fits 1 (-2147483618) = false := by decide

theorem witness_NormalizeIsTheCanonicalFloor :
    normalize 1 2147483677 = .ok 0x400000007FFFFFFF#64 ∧ (1 : Int) ≠ 0 ∧ normalize 0 7 = .ok ZERO ∧
      normalize 1 2147483678 = .error .overflow ∧ (isCanon ONE = true ∧ sig ONE ≠ 0) := by decide

theorem witness_NormalizeDependsOnTheValue : isCanon ZERO = true ∧ isCanon 0x8000000080000001#64 = true := by decide

theorem witness_FromIntegersComplete : ((ops 1 0 0).reg 1).toInt ≠ 0 := by decide

theorem witness_ToIntegersAreExactOrRangeError :
    (isCanon ((ops 0x8000000000000020#64 0 0).reg 1) = true ∧
        val ((ops 0x8000000000000020#64 0 0).reg 1) = ((-2 ^ 63 : Int) : ℚ)) ∧
      (isCanon ((ops 0x8000000000000000#64 0 0).reg 1) = true ∧
        val ((ops 0x8000000000000000#64 0 0).reg 1) = ((-2 ^ 31 : Int) : ℚ)) ∧
      (isCanon ((ops 0x4000000000000021#64 0 0).reg 1) = true ∧
        ∀ v : Int, val ((ops 0x4000000000000021#64 0 0).reg 1) = v → ¬ (-2 ^ 63 ≤ v ∧ v ≤ 2 ^ 63 - 1)) ∧
      (isCanon ((ops 0x4000000000000001#64 0 0).reg 1) = true ∧
        ∀ v : Int, val ((ops 0x4000000000000001#64 0 0).reg 1) = v → ¬ (-2 ^ 31 ≤ v ∧ v ≤ 2 ^ 31 - 1)) := by
  refine ⟨⟨by decide, ?_⟩, ⟨by decide, ?_⟩, ⟨by decide, fun v hv => ?_⟩, ⟨by decide, fun v hv => ?_⟩⟩
  · rw [val_fields _ (s := -2 ^ 31) (e := 32) (by decide) (by decide)]; norm_num
  · rw [val_fields _ (s := -2 ^ 31) (e := 0) (by decide) (by decide)]; norm_num
  · rw [val_fields _ (s := 2 ^ 30) (e := 33) (by decide) (by decide)] at hv
    norm_num at hv
    have : v = 2 ^ 63 := by exact_mod_cast hv.symm
    omega
  · rw [val_fields _ (s := 2 ^ 30) (e := 1) (by decide) (by decide)] at hv
    norm_num at hv
    have : v = 2 ^ 31 := by exact_mod_cast hv.symm
    omega

theorem witness_FromDoubleCompletesOnFiniteDoubles :
    f64Biased ((ops 0x7FEFFFFFFFFFFFFF#64 0 0).reg 1) ≠ 0x7FF ∧ f64Biased ((ops 1 0 0).reg 1) ≠ 0x7FF ∧
      f64Biased ((ops 0xFFF0000000000000#64 0 0).reg 1) = 0x7FF := by decide

theorem witness_ToDoubleSaturatesAndTruncates :
    (isCanon ((ops ZERO 0 0).reg 1) = true ∧ sig ((ops ZERO 0 0).reg 1) = 0) ∧
      (isCanon ((ops 0x80000000000003E1#64 0 0).reg 1) = true ∧ sig ((ops 0x80000000000003E1#64 0 0).reg 1) ≠ 0 ∧
        expo ((ops 0x80000000000003E1#64 0 0).reg 1) + (sig ((ops 0x80000000000003E1#64 0 0).reg 1)).natAbs.log2 =
          1024) ∧
      (isCanon ((ops 0x40000000FFFFFBE4#64 0 0).reg 1) = true ∧ sig ((ops 0x40000000FFFFFBE4#64 0 0).reg 1) ≠ 0 ∧
        expo ((ops 0x40000000FFFFFBE4#64 0 0).reg 1) + (sig ((ops 0x40000000FFFFFBE4#64 0 0).reg 1)).natAbs.log2 =
          -1022) ∧
      (isCanon ((ops 0x80000001000003E1#64 0 0).reg 1) = true ∧ sig ((ops 0x80000001000003E1#64 0 0).reg 1) ≠ 0 ∧
        expo ((ops 0x80000001000003E1#64 0 0).reg 1) + (sig ((ops 0x80000001000003E1#64 0 0).reg 1)).natAbs.log2 =
          1023) ∧
      (isCanon ((ops 0x7FFFFFFFFFFFFBE3#64 0 0).reg 1) = true ∧ sig ((ops 0x7FFFFFFFFFFFFBE3#64 0 0).reg 1) ≠ 0 ∧
        expo ((ops 0x7FFFFFFFFFFFFBE3#64 0 0).reg 1) + (sig ((ops 0x7FFFFFFFFFFFFBE3#64 0 0).reg 1)).natAbs.log2 =
          -1023) := by decide +kernel

theorem witness_DoublesRoundTripInTheNormalRange :
    (isCanon 0x40000000FFFFFBE4#64 = true ∧ sig 0x40000000FFFFFBE4#64 ≠ 0 ∧
        expo 0x40000000FFFFFBE4#64 + (sig 0x40000000FFFFFBE4#64).natAbs.log2 = -1022) ∧
      (isCanon 0x7FFFFFFF000003E1#64 = true ∧ sig 0x7FFFFFFF000003E1#64 ≠ 0 ∧
        expo 0x7FFFFFFF000003E1#64 + (sig 0x7FFFFFFF000003E1#64).natAbs.log2 = 1023) := by decide +kernel

/-- Two canonical words whose exponents differ by `d`. -/
def apart (a b : Word) (d : Int) : Prop := isCanon a = true ∧ isCanon b = true ∧ expo a - expo b = d

theorem witness_AddCompletesOrOverflows :
    apart ONE 0x80000000FFFFFFC2#64 32 ∧ apart 0x40000000FFFFFFC2#64 ONE (-32) ∧ apart ONE ONE 0 ∧
      apart ONE 0x80000000FFFFFFC3#64 31 ∧ apart 0x40000000FFFFFFC3#64 ONE (-31) ∧ apart ONE TWO (-1) := by
  simp only [apart]; decide

theorem witness_SubCompletesOrOverflows :
    sig ZERO = 0 ∧ sig ONE ≠ 0 ∧ apart ONE 0x80000000FFFFFFC2#64 32 ∧ apart 0x40000000FFFFFFC2#64 ONE (-32) ∧
      apart ONE ONE 0 ∧ apart ONE 0x80000000FFFFFFC3#64 31 ∧ apart 0x40000000FFFFFFC3#64 ONE (-31) ∧
      apart ONE TWO (-1) := by
  simp only [apart]; decide

theorem witness_SubtractingZeroOrItself : isCanon ZERO = true ∧ isCanon 0x800000007FFFFFFF#64 = true := by decide

theorem witness_AddThenSubRestoresTheOffset :
    (expMin ≤ (-2147483617 : Int) - 30 ∧ (-2147483617 : Int) - 29 ≤ expMax) ∧
      (expMin ≤ (2147483676 : Int) - 30 ∧ (2147483676 : Int) - 29 ≤ expMax) := by decide

theorem witness_ProductsAndQuotientsComplete :
    (isCanon ONE = true ∧ sig ONE ≠ 0) ∧ (isCanon ZERO = true ∧ sig ZERO = 0) ∧ fits (2 ^ 60) (-60) = true ∧
      fits (2 ^ 60) (2 ^ 31 - 30) = false := by decide

theorem witness_MultiplicativeIdentities : isCanon ZERO = true ∧ isCanon MINUS_ONE = true ∧ sig MINUS_ONE ≠ 0 := by
  decide

theorem witness_DivRemIsTruncatedDivision :
    (apart 0x7FFFFFFFFFFFFFE1#64 ONE (-1) ∧ sig ONE ≠ 0 ∧ truncQuotient 0x7FFFFFFFFFFFFFE1#64 ONE = 0) ∧
      (apart ONE ONE 0 ∧ truncQuotient ONE ONE = 1) ∧
      apart 0x41880000FFFFFFED#64 0x40F00000FFFFFFEC#64 1 ∧ truncQuotient 0x41880000FFFFFFED#64 0x40F00000FFFFFFEC#64 = 2 ∧
      apart ONE 0x60000000FFFFFFC3#64 31 ∧ truncQuotient ONE 0x60000000FFFFFFC3#64 = 1431655765 ∧
      fits (remainderInt ONE 0x60000000FFFFFFC3#64) (-61) = true := by
  simp only [apart]; decide +kernel

theorem witness_IntegralDivisionCompletes :
    (apart ONE 0x60000000FFFFFFC2#64 32 ∧ fits ((sig ONE * 2 ^ 32).tdiv (sig 0x60000000FFFFFFC2#64)) 0 = true) ∧
      (apart ONE 0x60000000FFFFFFE3#64 (-1) ∧ truncQuotient ONE 0x60000000FFFFFFE3#64 = 0) ∧
      (apart ONE 0x60000000FFFFFFC3#64 31 ∧ truncQuotient ONE 0x60000000FFFFFFC3#64 ≠ 0 ∧
        fits (remainderInt ONE 0x60000000FFFFFFC3#64) (-61) = true) ∧
      (apart 0x400000007FFFFFFF#64 0x40000000FFFFFF00#64 2147483903 ∧
        fits ((sig 0x400000007FFFFFFF#64 * 2 ^ 32).tdiv (sig 0x40000000FFFFFF00#64)) 2147483871 = false) ∧
      (apart 0x6000000180000001#64 0x4000000080000001#64 0 ∧
        truncQuotient 0x6000000180000001#64 0x4000000080000001#64 = 1 ∧
        fits (remainderInt 0x6000000180000001#64 0x4000000080000001#64) (-2147483647) = false) ∧
      (isCanon ZERO = true ∧ sig ZERO = 0) ∧ (3 : Reg) ≠ 4 := by
  simp only [apart]; decide +kernel

theorem witness_NegateAndAbsAreExact :
    (isCanon ONE = true ∧ ¬ (sig ONE = -2 ^ 31 ∧ expo ONE = expMax) ∧ ¬ (sig ONE = 2 ^ 30 ∧ expo ONE = expMin)) ∧
      (isCanon 0x800000007FFFFFFF#64 = true ∧ sig 0x800000007FFFFFFF#64 = -2 ^ 31 ∧
        expo 0x800000007FFFFFFF#64 = expMax) ∧
      (isCanon 0x4000000080000001#64 = true ∧ sig 0x4000000080000001#64 = 2 ^ 30 ∧
        expo 0x4000000080000001#64 = expMin) := by decide

theorem witness_NegationIsAnInvolution : isCanon ONE = true ∧ NEG ONE = .ok MINUS_ONE := by decide

theorem witness_ExponentShiftsComplete :
    (isCanon ZERO = true ∧ sig ZERO = 0) ∧ (isCanon ONE = true ∧ sig ONE ≠ 0) ∧
      ((ops ONE 0x8000001D#64 0).reg 2).toInt = 2147483677 ∧ expo ONE + 2147483677 = expMax ∧
      expMax < expo ONE + 2147483678 ∧ expo ONE - 2147483617 = expMin ∧ expo ONE - 2147483618 < expMin := by decide

theorem witness_FloorAndRoundAreMathematical : isCanon ((ops 0x8000000080000001#64 0 0).reg 1) = true := by decide

theorem witness_MinimumAndMaximumComplete :
    ¬ lexBelow TWO ONE ∧ lexBelow ONE TWO ∧ ¬ lexBelow ONE ONE ∧ isCanon ONE = true ∧ isCanon TWO = true := by
  simp only [lexBelow]; decide

theorem witness_ComparisonsComplete :
    lexBelow ONE TWO ∧ ¬ lexBelow TWO ONE ∧ ONE ≠ TWO ∧ lexBelow ZERO MINUS_ONE ∧ isCanon ONE = true ∧
      isCanon TWO = true ∧ isCanon MINUS_ONE = true := by
  simp only [lexBelow]; decide

theorem witness_ComparisonsAreConsistent :
    isCanon ((ops ZERO MINUS_ONE 0).reg 1) = true ∧ isCanon ((ops ZERO MINUS_ONE 0).reg 2) = true ∧
      ∃ c l e g, exec (.cmp 3 1 2) (ops ZERO MINUS_ONE 0) = .next c ∧ exec (.lt 3 1 2) (ops ZERO MINUS_ONE 0) = .next l ∧
        exec (.eq 3 1 2) (ops ZERO MINUS_ONE 0) = .next e ∧ exec (.gt 3 1 2) (ops ZERO MINUS_ONE 0) = .next g :=
  ⟨by decide, by decide, _, _, _, _, rfl, rfl, rfl, rfl⟩

theorem witness_CanonicalWordsAreUnique : isCanon ZERO = true ∧ isCanon MINUS_ONE = true := by decide

theorem witness_WhereTheOrderIsNumeric :
    (isCanon ZERO = true ∧ isCanon ONE = true ∧ 0 ≤ sig ZERO ∧ 0 ≤ sig ONE) ∧
      (sig 0x90000000FFFFFFE4#64 < 0 ∧ sig 0xB0000000FFFFFFE4#64 < 0 ∧
        expo 0x90000000FFFFFFE4#64 = expo 0xB0000000FFFFFFE4#64) ∧
      (0 < sig 0x40000000FFFFFFE1#64 ∧ sig MINUS_ONE < 0 ∧ expo MINUS_ONE = expo 0x40000000FFFFFFE1#64) ∧
      (sig ZERO = 0 ∧ sig MINUS_ONE < 0) ∧
      (sig MINUS_ONE < 0 ∧ sig 0xBFFFFFFFFFFFFFE2#64 < 0 ∧ expo MINUS_ONE < expo 0xBFFFFFFFFFFFFFE2#64) ∧
      (0 < sig ONE ∧ sig 0x80000000FFFFFFE3#64 < 0 ∧ expo ONE < expo 0x80000000FFFFFFE3#64) := by decide

theorem witness_ApproxCompletes :
    (1 ≤ (1 : Imm8).toNat ∧ (31 : Imm8).toNat ≤ 31) ∧ apart ONE ONE 0 ∧ apart TWO ONE 1 ∧ apart ONE TWO (-1) ∧
      apart 0x40000000FFFFFFE4#64 ONE 2 ∧ (sig MINUS_ONE < 0 ∧ 0 < sig ONE) := by
  simp only [apart]; decide

theorem witness_KernelsAreWellFormed : isCanon 0x7FFFFFFF80000001#64 = true ∧ 0 < sig 0x7FFFFFFF80000001#64 := by decide

theorem witness_LogarithmsComplete :
    (isCanon ZERO = true ∧ sig ZERO ≤ 0) ∧ (isCanon ONE = true ∧ 0 < sig ONE ∧ sig ONE = 2 ^ 30) ∧
      |expo 0x400000007FFFFFE1#64 + 30| < 2 ^ 31 ∧
      (isCanon 0x60000000FFFFFFE2#64 = true ∧ 0 < sig 0x60000000FFFFFFE2#64 ∧ sig 0x60000000FFFFFFE2#64 ≠ 2 ^ 30 ∧
        expo 0x60000000FFFFFFE2#64 = -30) := by decide

theorem witness_PowersOfTwoComplete :
    (isCanon ZERO = true ∧ sig ZERO = 0) ∧ (isCanon 0x4000000000000001#64 = true ∧ 0 < expo 0x4000000000000001#64) ∧
      (isCanon 0x8000001F00000000#64 = true ∧ val 0x8000001F00000000#64 = ((-2 ^ 31 + 31 : Int) : ℚ) ∧
        expo 0x8000001F00000000#64 ≤ 0) ∧
      (isCanon 0x8000001E00000000#64 = true ∧ val 0x8000001E00000000#64 = ((-2 ^ 31 + 30 : Int) : ℚ) ∧
        expo 0x8000001E00000000#64 ≤ 0) ∧
      (isCanon 0x40000000FFFFFFE1#64 = true ∧ (∀ n : Int, val 0x40000000FFFFFFE1#64 ≠ n) ∧
        expo 0x40000000FFFFFFE1#64 ≤ 0) := by
  refine ⟨by decide, by decide, ⟨by decide, ?_, by decide⟩, ⟨by decide, ?_, by decide⟩, ⟨by decide, fun n h => ?_, by decide⟩⟩
  · rw [val_fields _ (s := -2 ^ 31 + 31) (e := 0) (by decide) (by decide)]; norm_num
  · rw [val_fields _ (s := -2 ^ 31 + 30) (e := 0) (by decide) (by decide)]; norm_num
  · rw [val_fields _ (s := 2 ^ 30) (e := -31) (by decide) (by decide)] at h
    exact half_ne_int n (by rw [← h]; norm_num)

theorem witness_Log2AndPow2AreInverse :
    (expMin ≤ (2147483617 : Int) ∧ (2147483617 : Int) ≤ expMax ∧ |(2147483617 : Int) + 30| < 2 ^ 31) ∧
      |expMin + 30| < 2 ^ 31 ∧ ((2147483618 : Int) ≤ expMax ∧ 2 ^ 31 ≤ |(2147483618 : Int) + 30|) ∧
      (isCanon 0x8000001F00000000#64 = true ∧ val 0x8000001F00000000#64 = ((-2 ^ 31 + 31 : Int) : ℚ) ∧
        expo 0x8000001F00000000#64 ≤ 0) := by
  refine ⟨by decide, by decide, by decide, by decide, ?_, by decide⟩
  rw [val_fields _ (s := -2 ^ 31 + 31) (e := 0) (by decide) (by decide)]; norm_num

theorem witness_PowersOfTenComplete :
    (((ops 0x40000000#64 0 0).reg 1).toInt = 2 ^ 30 ∧ (2 : Int) ^ 30 ≤ |2 ^ 30|) ∧
      (pow10Table[29]? = some 0x777A5BEB6A4D3C07#64 ∧ ((ops 0x20000000#64 0 0).reg 1).toInt = 2 ^ 29) ∧
      ((ops 0 0 0).reg 1).toInt = 0 ∧ ((ops 13 0 0).reg 1).toInt = 13 ∧
      (((ops 0x3FFFFFFF#64 0 0).reg 1).toInt = 2 ^ 30 - 1) ∧
      ((ops 0xFFFFFFFFFFFFFFFF#64 0 0).reg 1).toInt = -1 := by decide +kernel

theorem witness_PowStepsInOrder :
    (isCanon ZERO = true ∧ sig ZERO = 0) ∧ (isCanon ONE = true ∧ 0 < sig ONE) ∧
      (isCanon MINUS_ONE = true ∧ sig MINUS_ONE < 0) ∧
      (isCanon 0x4000000000000001#64 = true ∧
        ∀ m : Int, val 0x4000000000000001#64 = m → ¬ (-2 ^ 31 ≤ m ∧ m ≤ 2 ^ 31 - 1)) ∧
      (isCanon TWO = true ∧ 0 < sig TWO ∧ (∀ T : Int, ((expo TWO : ℚ) + 30) * val 0x40000000FFFFFFE1#64 ≠ T) ∧
        TWO ≠ TEN ∧ sig 0x40000000FFFFFFE1#64 ≠ 0 ∧ 0x40000000FFFFFFE1#64 ≠ TWO) := by
  refine ⟨by decide, by decide, by decide, ⟨by decide, fun m hm => ?_⟩, by decide, by decide, fun T h => ?_, by decide,
    by decide, by decide⟩
  · rw [val_fields _ (s := 2 ^ 30) (e := 1) (by decide) (by decide)] at hm
    norm_num at hm
    have : m = 2 ^ 31 := by exact_mod_cast hm.symm
    omega
  · rw [val_fields _ (s := 2 ^ 30) (e := -31) (by decide) (by decide), expo_TWO] at h
    exact half_ne_int T (by rw [← h]; norm_num)

theorem witness_PowOfANegativeBase :
    (isCanon 0x80000000FFFFFFE2#64 = true ∧ sig 0x80000000FFFFFFE2#64 < 0) ∧
      (isCanon 0x40000000FFFFFFE1#64 = true ∧ sig 0x40000000FFFFFFE1#64 ≠ 0 ∧ 0x40000000FFFFFFE1#64 ≠ TWO ∧
        ∀ m : Int, val 0x40000000FFFFFFE1#64 ≠ m) ∧
      (isCanon 0x60000000FFFFFFE3#64 = true ∧ sig 0x60000000FFFFFFE3#64 ≠ 0 ∧ 0x60000000FFFFFFE3#64 ≠ TWO ∧
        val 0x60000000FFFFFFE3#64 = ((3 : Int) : ℚ)) ∧
      (isCanon 0x40000000FFFFFFE4#64 = true ∧ sig 0x40000000FFFFFFE4#64 ≠ 0 ∧ 0x40000000FFFFFFE4#64 ≠ TWO ∧
        val 0x40000000FFFFFFE4#64 = ((4 : Int) : ℚ)) ∧
      (isCanon 0x800000007FFFFFFF#64 = true ∧ sig 0x800000007FFFFFFF#64 = -2 ^ 31 ∧
        expo 0x800000007FFFFFFF#64 = expMax) := by
  refine ⟨by decide, ⟨by decide, by decide, by decide, fun m h => ?_⟩, ⟨by decide, by decide, by decide, ?_⟩,
    ⟨by decide, by decide, by decide, ?_⟩, by decide⟩
  · rw [val_fields _ (s := 2 ^ 30) (e := -31) (by decide) (by decide)] at h
    exact half_ne_int m (by rw [← h]; norm_num)
  · rw [val_fields _ (s := 3 * 2 ^ 29) (e := -29) (by decide) (by decide)]; norm_num
  · rw [val_fields _ (s := 2 ^ 30) (e := -28) (by decide) (by decide)]; norm_num

/-- Four to the power of a half-integer: the exponents of `witness_PowFastPathsMatch` are no integers, the products are. -/
theorem witness_PowFastPathsMatch_halves :
    (isCanon 0x40000000FFFFFFE4#64 = true ∧ sig 0x40000000FFFFFFE4#64 = 2 ^ 30) ∧
      (isCanon 0x60000000FFFFFFE2#64 = true ∧
        ((expo 0x40000000FFFFFFE4#64 : ℚ) + 30) * val 0x60000000FFFFFFE2#64 = ((3 : Int) : ℚ)) ∧
      (isCanon 0x8000001FFFFFFFFF#64 = true ∧
        ((expo 0x40000000FFFFFFE4#64 : ℚ) + 30) * val 0x8000001FFFFFFFFF#64 = ((expMin + 30 : Int) : ℚ)) ∧
      (isCanon 0x8000001DFFFFFFFF#64 = true ∧
        ((expo 0x40000000FFFFFFE4#64 : ℚ) + 30) * val 0x8000001DFFFFFFFF#64 = ((expMin + 28 : Int) : ℚ)) := by
  have he : expo 0x40000000FFFFFFE4#64 = -28 := by decide
  refine ⟨by decide, ⟨by decide, ?_⟩, ⟨by decide, ?_⟩, ⟨by decide, ?_⟩⟩
  · rw [he, val_fields _ (s := 3 * 2 ^ 29) (e := -30) (by decide) (by decide)]; norm_num
  · rw [he, val_fields _ (s := -2 ^ 31 + 31) (e := -1) (by decide) (by decide)]; norm_num [expMin]
  · rw [he, val_fields _ (s := -2 ^ 31 + 29) (e := -1) (by decide) (by decide)]; norm_num [expMin]

theorem witness_PowFastPathsMatch :
    isCanon MINUS_ONE = true ∧ (expMin ≤ (1 : Int) - 30 ∧ (1 : Int) - 30 ≤ expMax) ∧
      (isCanon 0x8000001F00000000#64 = true ∧ val 0x8000001F00000000#64 = ((-2 ^ 31 + 31 : Int) : ℚ) ∧
        (1 : Int) * (-2 ^ 31 + 31) - 30 = expMin) ∧
      (isCanon 0x8000001E00000000#64 = true ∧ val 0x8000001E00000000#64 = ((-2 ^ 31 + 30 : Int) : ℚ) ∧
        (1 : Int) * (-2 ^ 31 + 30) - 30 < expMin) ∧
      (isCanon 0x7FFFFFFF00000000#64 = true ∧ val 0x7FFFFFFF00000000#64 = ((2 ^ 31 - 1 : Int) : ℚ)) := by
  refine ⟨by decide, by decide, ⟨by decide, ?_, by decide⟩, ⟨by decide, ?_, by decide⟩, by decide, ?_⟩
  · rw [val_fields _ (s := -2 ^ 31 + 31) (e := 0) (by decide) (by decide)]; norm_num
  · rw [val_fields _ (s := -2 ^ 31 + 30) (e := 0) (by decide) (by decide)]; norm_num
  · rw [val_fields _ (s := 2 ^ 31 - 1) (e := 0) (by decide) (by decide)]; norm_num

end Sys2Proof.Tests.Slice0
end

section
/-! PROOFS. Normalization closure (spec/41_arithmetic.md R183): every semantic function of a command with a scaled
destination answers canonical words only. A command ends in `finishWrite` or `finishWrite₂` on such an answer, so its
destinations are canonical when it completes. -/

namespace Sys2Proof.Machine

/-! ## What every answer of a semantic function satisfies -/

/-- Whenever the semantic function answers a value, the value satisfies `P`. -/
def Answers {α : Type} (P : α → Prop) (r : Except Cause α) : Prop := ∀ v, r = .ok v → P v

/-- The answer is a canonical word. -/
abbrev CanonAnswer : Except Cause Word → Prop := Answers fun w => isCanon w = true

/-- The answer is a pair of canonical words. -/
abbrev CanonPairAnswer : Except Cause (Word × Word) → Prop :=
  Answers fun p => isCanon p.1 = true ∧ isCanon p.2 = true

section Answers
variable {α β : Type} {P : α → Prop} {Q : β → Prop} (s : State) (rs1 rs2 rs3 : Reg)

theorem answers_ok {v : α} (h : P v) : Answers P (.ok v) := by
  rintro _ ⟨⟩; exact h

theorem answers_error (c : Cause) : Answers P (.error c) := nofun

theorem answers_ite {p : Prop} [Decidable p] {x y : Except Cause α} (hx : Answers P x) (hy : Answers P y) :
    Answers P (if p then x else y) := by
  split <;> assumption

theorem answers_bind {x : Except Cause α} {f : α → Except Cause β} (hx : Answers P x)
    (hf : ∀ v, P v → Answers Q (f v)) : Answers Q (x.bind f) := by
  cases x with
  | ok v => exact hf v (hx v rfl)
  | error c => exact answers_error c

theorem answers_map {x : Except Cause α} {f : α → β} (hx : Answers P x) (hf : ∀ v, P v → Q (f v)) :
    Answers Q (x.map f) := by
  cases x with
  | ok v => exact answers_ok (hf v (hx v rfl))
  | error c => exact answers_error c

/-- A command with one scaled operand runs its function on a canonical word only. -/
theorem answers_withScaled {f : Word → Except Cause α} (hf : ∀ a, isCanon a = true → Answers P (f a)) :
    Answers P (withScaled s rs1 f) := by
  rcases withScaled_cases s rs1 f with ⟨h, e⟩ | ⟨_, e⟩ <;> rw [e]
  · exact hf _ h
  · exact answers_error _

/-- A command with two scaled operands runs its function on canonical words only. -/
theorem answers_withScaled₂ {f : Word → Word → Except Cause α}
    (hf : ∀ a b, isCanon a = true → isCanon b = true → Answers P (f a b)) :
    Answers P (withScaled₂ s rs1 rs2 f) := by
  rcases withScaled₂_cases s rs1 rs2 f with ⟨h₁, h₂, e⟩ | ⟨_, e⟩ <;> rw [e]
  · exact hf _ _ h₁ h₂
  · exact answers_error _

/-- A command with three scaled operands runs its function on canonical words only. -/
theorem answers_withScaled₃ {f : Word → Word → Word → Except Cause α}
    (hf : ∀ a b c, isCanon a = true → isCanon b = true → isCanon c = true → Answers P (f a b c)) :
    Answers P (withScaled₃ s rs1 rs2 rs3 f) := by
  rcases withScaled₃_cases s rs1 rs2 rs3 f with ⟨h₁, h₂, h₃, e⟩ | ⟨_, e⟩ <;> rw [e]
  · exact hf _ _ _ h₁ h₂ h₃
  · exact answers_error _

end Answers

/-! ## The normalizer and the constants -/

/-- The choke point of R100: whatever the normalizer answers is canonical. -/
theorem canonAnswer_normalize (S E : Int) : CanonAnswer (normalize S E) := by
  intro w h
  obtain ⟨hf, rfl⟩ := normalize_eq_ok h
  exact isCanon_normWord hf

/-- Every word of the constant ROM is canonical (R114). -/
theorem isCanon_of_constRom {index : Imm8} {w : Word} (h : constRom index = some w) : isCanon w = true := by
  have named : namedConstants.all isCanon = true := by decide
  have table : pow10Table.all isCanon = true := by decide
  rw [constRom] at h
  split at h
  · exact List.all_eq_true.mp named w (List.mem_of_getElem? h)
  · exact List.all_eq_true.mp table w (List.mem_of_getElem? h)

theorem canonAnswer_constRom (index : Imm8) :
    CanonAnswer ((constRom index).elim (.error .illegalCommand) .ok) := by
  cases h : constRom index with
  | none => exact answers_error _
  | some w => exact answers_ok (isCanon_of_constRom h)

theorem sigBits_toPositive (w : Word) : sigBits (toPositive w) = 0b01#2 ++ w.extractLsb' 32 30 :=
  sigBits_append _ _

theorem expBits_toPositive (w : Word) :
    expBits (toPositive w) = if expBits w = 0x80000000#32 then 0x80000001#32 else expBits w :=
  expBits_append _ _

/-- The kernels' words have their significand in positive canonical position. -/
theorem sig_toPositive_ge (w : Word) : 2 ^ 30 ≤ sig (toPositive w) := by
  rw [← topBits_pos, BitVec.toNat_eq, topBits_toNat, sigBits_toPositive, BitVec.toNat_append,
    ← Nat.shiftLeft_add_eq_or_of_lt (BitVec.isLt _), Nat.shiftLeft_eq]
  have := (w.extractLsb' 32 30).isLt
  simp only [BitVec.toNat_ofNat]
  omega

/-- No choice of a kernel makes its word non-canonical (R212, R222). -/
theorem isCanon_toPositive (w : Word) : isCanon (toPositive w) = true := by
  refine (isCanon_iff _).mpr (.inr ⟨.inl (sig_toPositive_ge w), ?_⟩)
  have sentinel : expSentinel = (0x80000000#32).toInt := by decide
  rw [expo, expBits_toPositive, sentinel, Ne, BitVec.toInt_inj]
  split
  · decide
  · assumption

/-! ## The arithmetic core -/

section Arithmetic
variable {a b : Word}

theorem canonAnswer_NEG (a : Word) : CanonAnswer (NEG a) := canonAnswer_normalize _ _

theorem canonAnswer_ABS (ha : isCanon a = true) : CanonAnswer (ABS a) :=
  answers_ite (canonAnswer_NEG a) (answers_ok ha)

theorem canonAnswer_ADD (ha : isCanon a = true) (hb : isCanon b = true) : CanonAnswer (ADD a b) := by
  rcases ADD_cases a b with ⟨_, e⟩ | ⟨_, e⟩ | ⟨_, _, e⟩ | ⟨_, _, e⟩ <;> rw [e]
  · exact answers_ok ha
  · exact answers_ok hb
  · exact canonAnswer_normalize _ _
  · exact canonAnswer_normalize _ _

theorem canonAnswer_SUB (ha : isCanon a = true) : CanonAnswer (SUB a b) := by
  rcases SUB_cases a b with ⟨_, e⟩ | ⟨_, _, e⟩ | ⟨_, _, _, e⟩ | ⟨_, _, _, e⟩ <;> rw [e]
  · exact canonAnswer_NEG b
  · exact answers_ok ha
  · exact canonAnswer_normalize _ _
  · exact canonAnswer_normalize _ _

theorem canonAnswer_MUL (a b : Word) : CanonAnswer (MUL a b) := canonAnswer_normalize _ _

theorem canonAnswer_DIV (a b : Word) : CanonAnswer (DIV a b) :=
  answers_ite (answers_error _) (canonAnswer_normalize _ _)

theorem canonAnswer_MULDIV (a m c : Word) : CanonAnswer (MULDIV a m c) :=
  answers_ite (answers_error _) (canonAnswer_normalize _ _)

/-- Quotient and remainder are both canonical; the remainder of a small dividend is the dividend itself. -/
theorem canonPairAnswer_DivRem (ha : isCanon a = true) : CanonPairAnswer (DivRem a b) := by
  rcases DivRem_cases a b with ⟨_, e⟩ | ⟨_, _, e⟩ | ⟨_, _, _, e⟩ | ⟨_, _, _, e⟩ <;> rw [e]
  · exact answers_error _
  · exact answers_map (canonAnswer_normalize _ _) fun q hq => ⟨hq, isCanon_ZERO⟩
  · exact answers_ok ⟨isCanon_ZERO, ha⟩
  · exact answers_bind (canonAnswer_normalize _ _) fun q hq =>
      answers_map (canonAnswer_normalize _ _) fun r hr => ⟨hq, hr⟩

theorem canonAnswer_FLOOR (ha : isCanon a = true) : CanonAnswer (FLOOR a) := by
  rcases FLOOR_cases a with ⟨_, e⟩ | ⟨_, _, e⟩ | ⟨_, _, _, e⟩ <;> rw [e]
  · exact answers_ok ha
  · exact answers_ok (by split <;> simp)
  · exact canonAnswer_normalize _ _

theorem canonAnswer_ROUND (ha : isCanon a = true) : CanonAnswer (ROUND a) := by
  rcases ROUND_cases a with ⟨_, e⟩ | ⟨_, _, e⟩ | ⟨_, _, _, e⟩ <;> rw [e]
  · exact answers_ok ha
  · exact answers_ok isCanon_ZERO
  · exact canonAnswer_normalize _ _

theorem isCanon_MIN (ha : isCanon a = true) (hb : isCanon b = true) : isCanon (MIN a b) = true := by
  rw [MIN]; split <;> assumption

theorem isCanon_MAX (ha : isCanon a = true) (hb : isCanon b = true) : isCanon (MAX a b) = true := by
  rw [MAX]; split <;> assumption

end Arithmetic

/-! ## Doubles and the transcendental core -/

theorem canonAnswer_FROMF64 (d : Word) : CanonAnswer (FROMF64 d) :=
  answers_ite (answers_error _) (canonAnswer_normalize _ _)

theorem canonAnswer_LOG2 (a : Word) : CanonAnswer (LOG2 a) := by
  rcases LOG2_cases a with ⟨_, e⟩ | ⟨_, e⟩ | ⟨_, _, e⟩ <;> rw [e]
  · exact answers_error _
  · exact canonAnswer_normalize _ _
  · exact answers_bind (canonAnswer_normalize _ _) fun i hi => canonAnswer_ADD hi (isCanon_toPositive _)

theorem canonAnswer_POW2 (a : Word) : CanonAnswer (POW2 a) := by
  rcases POW2_cases a with ⟨_, e⟩ | ⟨_, _, e⟩ | ⟨_, _, _, e⟩ | ⟨_, _, _, e⟩ <;> rw [e]
  · exact answers_ok isCanon_ONE
  · exact answers_error _
  · exact canonAnswer_normalize _ _
  · exact answers_bind (canonAnswer_normalize _ _) fun _ _ => canonAnswer_normalize _ _

/-- The walk of R233 starts canonical and every product it takes is canonical. -/
theorem canonAnswer_pow10Walk (m : Nat) (ts : List Word) :
    ∀ (k : Nat) (acc : Word), isCanon acc = true → CanonAnswer (pow10Walk m k acc ts) := by
  induction ts with
  | nil => exact fun _ _ hacc => answers_ok hacc
  | cons t ts ih =>
    intro k acc hacc
    rw [pow10Walk_cons]
    exact answers_ite (answers_bind (canonAnswer_MUL acc t) fun acc' h => ih (k + 1) acc' h) (ih (k + 1) acc hacc)

theorem canonAnswer_POW10 (n : Int) : CanonAnswer (POW10 n) :=
  answers_ite (answers_error _)
    (answers_bind (canonAnswer_pow10Walk _ _ 0 ONE isCanon_ONE) fun acc hacc =>
      answers_ite (canonAnswer_DIV ONE acc) (answers_ok hacc))

theorem canonAnswer_powTwoWord (T : Int) : CanonAnswer (powTwoWord T) := by
  rw [powTwoWord]
  split
  · exact answers_error _
  · exact answers_ok (isCanon_pack (.inl (by norm_num)) (by omega) (by omega))

theorem canonAnswer_powOfTenBase (e : Word) : CanonAnswer (powOfTenBase e) := by
  rw [powOfTenBase]
  split
  · exact canonAnswer_POW10 _
  · exact answers_error _

/-- Whichever of the steps 1 to 4 of R240 applies, its answer is canonical. -/
theorem canonAnswer_of_powFast {b e : Word} {r : Except Cause Word} (h : powFast b e = some r) : CanonAnswer r := by
  rw [powFast] at h
  split at h
  · cases h; exact answers_ok isCanon_ONE
  split at h
  · cases h; exact answers_ite (answers_ok isCanon_ZERO) (answers_error _)
  split at h
  · next r' hr' =>
    cases h
    rw [powOfTwoBase] at hr'
    split at hr'
    · obtain ⟨T, _, rfl⟩ := Option.map_eq_some_iff.mp hr'
      exact canonAnswer_powTwoWord T
    · cases hr'
  split at h
  · cases h; exact canonAnswer_powOfTenBase e
  split at h
  · cases h; exact canonAnswer_MUL b b
  · cases h

theorem canonAnswer_powGeneral (b e : Word) : CanonAnswer (powGeneral b e) :=
  answers_bind (canonAnswer_LOG2 b) fun l _ =>
    answers_bind (canonAnswer_MUL l e) fun p _ => canonAnswer_POW2 p

theorem canonAnswer_powNonNegative (b e : Word) : CanonAnswer (powNonNegative b e) := by
  rw [powNonNegative]
  cases h : powFast b e with
  | some r => exact canonAnswer_of_powFast h
  | none => exact canonAnswer_powGeneral b e

theorem canonAnswer_powNegative (b e : Word) : CanonAnswer (powNegative b e) :=
  answers_ite
    (answers_bind (canonAnswer_NEG b) fun nb _ =>
      answers_bind (canonAnswer_powNonNegative nb e) fun r hr => answers_ite (canonAnswer_NEG r) (answers_ok hr))
    (answers_error _)

theorem canonAnswer_POW (b e : Word) : CanonAnswer (POW b e) := by
  rcases POW_cases b e with ⟨r, h, e'⟩ | ⟨_, _, e'⟩ | ⟨_, _, e'⟩ <;> rw [e']
  · exact canonAnswer_of_powFast h
  · exact canonAnswer_powNegative b e
  · exact canonAnswer_powGeneral b e

/-! ## How a command with a scaled destination ends -/

/-- A command ends canonically: it has no scaled destination, or it ends by writing canonical answers to all of them. -/
inductive EndsCanonically (i : Instr) (s : State) : Prop
  /-- No destination holds a scaled value. -/
  | unscaled (hd : scaledDestinations i = [])
  /-- One result. -/
  | single (rd : Reg) (r : Except Cause Word) (hd : scaledDestinations i = [rd])
      (he : exec i s = .next (finishWrite s rd r)) (hr : CanonAnswer r)
  /-- Quotient and remainder (R168). -/
  | pair (rd rd2 : Reg) (r : Except Cause (Word × Word)) (hd : scaledDestinations i = [rd, rd2])
      (he : exec i s = .next (finishWrite₂ s rd rd2 r)) (hr : CanonPairAnswer r)

/-- R183, command by command. -/
theorem exec_endsCanonically (i : Instr) (s : State) : EndsCanonically i s := by
  cases i with
  | ldc rd index => exact .single rd _ rfl rfl (canonAnswer_constRom index)
  | norm rd rs1 rs2 => exact .single rd _ rfl rfl (canonAnswer_normalize _ _)
  | fromi64 rd rs1 => exact .single rd _ rfl rfl (canonAnswer_normalize _ _)
  | fromi32 rd rs1 => exact .single rd _ rfl rfl (canonAnswer_normalize _ _)
  | fromf64 rd rs1 => exact .single rd _ rfl rfl (canonAnswer_FROMF64 _)
  | add rd rs1 rs2 =>
    exact .single rd _ rfl rfl (answers_withScaled₂ s rs1 rs2 fun _ _ ha hb => canonAnswer_ADD ha hb)
  | sub rd rs1 rs2 =>
    exact .single rd _ rfl rfl (answers_withScaled₂ s rs1 rs2 fun _ _ ha _ => canonAnswer_SUB ha)
  | mul rd rs1 rs2 =>
    exact .single rd _ rfl rfl (answers_withScaled₂ s rs1 rs2 fun a b _ _ => canonAnswer_MUL a b)
  | div rd rs1 rs2 =>
    exact .single rd _ rfl rfl (answers_withScaled₂ s rs1 rs2 fun a b _ _ => canonAnswer_DIV a b)
  | muldiv rd rs1 rs2 rs3 =>
    exact .single rd _ rfl rfl (answers_withScaled₃ s rs1 rs2 rs3 fun a m c _ _ _ => canonAnswer_MULDIV a m c)
  | divint rd rs1 rs2 =>
    exact .single rd _ rfl rfl (answers_withScaled₂ s rs1 rs2 fun _ _ ha _ =>
      answers_map (canonPairAnswer_DivRem ha) fun _ h => h.1)
  | rem rd rs1 rs2 =>
    exact .single rd _ rfl rfl (answers_withScaled₂ s rs1 rs2 fun _ _ ha _ =>
      answers_map (canonPairAnswer_DivRem ha) fun _ h => h.2)
  | divrem rd rd2 rs1 rs2 =>
    exact .pair rd rd2 _ rfl rfl (answers_ite (answers_error _)
      (answers_withScaled₂ s rs1 rs2 fun _ _ ha _ => canonPairAnswer_DivRem ha))
  | neg rd rs1 => exact .single rd _ rfl rfl (answers_withScaled s rs1 fun a _ => canonAnswer_NEG a)
  | abs rd rs1 => exact .single rd _ rfl rfl (answers_withScaled s rs1 fun _ ha => canonAnswer_ABS ha)
  | shl rd rs1 rs2 => exact .single rd _ rfl rfl (answers_withScaled s rs1 fun _ _ => canonAnswer_normalize _ _)
  | shr rd rs1 rs2 => exact .single rd _ rfl rfl (answers_withScaled s rs1 fun _ _ => canonAnswer_normalize _ _)
  | min rd rs1 rs2 =>
    exact .single rd _ rfl rfl (answers_withScaled₂ s rs1 rs2 fun _ _ ha hb => answers_ok (isCanon_MIN ha hb))
  | max rd rs1 rs2 =>
    exact .single rd _ rfl rfl (answers_withScaled₂ s rs1 rs2 fun _ _ ha hb => answers_ok (isCanon_MAX ha hb))
  | floor rd rs1 => exact .single rd _ rfl rfl (answers_withScaled s rs1 fun _ ha => canonAnswer_FLOOR ha)
  | round rd rs1 => exact .single rd _ rfl rfl (answers_withScaled s rs1 fun _ ha => canonAnswer_ROUND ha)
  | log2 rd rs1 => exact .single rd _ rfl rfl (answers_withScaled s rs1 fun a _ => canonAnswer_LOG2 a)
  | pow2 rd rs1 => exact .single rd _ rfl rfl (answers_withScaled s rs1 fun a _ => canonAnswer_POW2 a)
  | pow rd rs1 rs2 =>
    exact .single rd _ rfl rfl (answers_withScaled₂ s rs1 rs2 fun b e _ _ => canonAnswer_POW b e)
  | pow10 rd rs1 => exact .single rd _ rfl rfl (canonAnswer_POW10 _)
  | wrv | rdv | mov | toi64 | toi32 | tof64 | roundto | cmp | eq | lt | gt | approx | log2i | rdcsr | clrf | nop =>
    exact .unscaled rfl

/-! ## The destination registers of a command that completes -/

section Completed
variable {s : State} {rd rd2 : Reg} {d : Word}

/-- A response with status 0 is not that of a fault. -/
theorem takeFault_response_ne_ok (c : Cause) (s : State) (d : Word) :
    (takeFault c s).response ≠ some ⟨0, d⟩ :=
  fun h => code_ne_zero c (congrArg Response.status (Option.some.inj h))

theorem isCanon_reg_finishWrite {r : Except Cause Word} (hr : CanonAnswer r)
    (h : (finishWrite s rd r).response = some ⟨0, d⟩) : isCanon ((finishWrite s rd r).reg rd) = true := by
  rcases finishWrite_cases s rd r with ⟨w, rfl, e⟩ | ⟨c, _, e⟩ <;> rw [e] at h ⊢
  · simpa using hr w rfl
  · exact absurd h (takeFault_response_ne_ok c s d)

/-- Also when the two destinations are one register: it then holds the remainder. -/
theorem isCanon_reg_finishWrite₂ {r : Except Cause (Word × Word)} (hr : CanonPairAnswer r)
    (h : (finishWrite₂ s rd rd2 r).response = some ⟨0, d⟩) :
    isCanon ((finishWrite₂ s rd rd2 r).reg rd) = true ∧ isCanon ((finishWrite₂ s rd rd2 r).reg rd2) = true := by
  rcases finishWrite₂_cases s rd rd2 r with ⟨q, m, rfl, e⟩ | ⟨c, _, e⟩ <;> rw [e] at h ⊢
  · obtain ⟨hq, hm⟩ := hr (q, m) rfl
    refine ⟨?_, by simpa using hm⟩
    rw [complete_reg, reg_setReg]
    split
    · exact hm
    · simpa using hq
  · exact absurd h (takeFault_response_ne_ok c s d)

end Completed

/-- Settles O21: `exec_endsCanonically` says how each command ends, and what it then completes with is canonical. -/
theorem scaledResultsAreCanonical : Obligations.ScaledResultsAreCanonical := by
  intro i s t d hexec hresp q hq
  cases exec_endsCanonically i s with
  | unscaled hd => simp [hd] at hq
  | single rd r hd he hr =>
    obtain rfl : finishWrite s rd r = t := by simpa [he] using hexec
    obtain rfl : q = rd := by simpa [hd] using hq
    exact isCanon_reg_finishWrite hr hresp
  | pair rd rd2 r hd he hr =>
    obtain rfl : finishWrite₂ s rd rd2 r = t := by simpa [he] using hexec
    obtain ⟨h₁, h₂⟩ := isCanon_reg_finishWrite₂ hr hresp
    obtain rfl | rfl : q = rd ∨ q = rd2 := by simpa [hd] using hq
    · exact h₁
    · exact h₂

end Sys2Proof.Machine
end

section
/-! PROOFS. Adding a power of two to itself and subtracting it again (spec/41_arithmetic.md R143). -/

namespace Sys2Proof.Machine

/-! ## The normalizer on a power of two (R100) -/

theorem topBit_two_pow (p : Nat) : topBit (2 ^ p) = p := by
  have e : ((2 : Int) ^ p).toNat = 2 ^ p := by exact_mod_cast Int.toNat_natCast (2 ^ p)
  rw [topBit, if_pos (by positivity), e, Nat.log2_two_pow]

theorem normShift_two_pow (p : Nat) : normShift (2 ^ p) = p - 30 := by rw [normShift, topBit_two_pow]

theorem normSig_two_pow (p : Nat) : normSig (2 ^ p) = 2 ^ 30 := by
  rw [normSig, normShift_two_pow]
  split
  · obtain ⟨k, rfl⟩ : ∃ k : Nat, p = 30 + k := ⟨p - 30, by omega⟩
    rw [show (((30 + k : Nat) : Int) - 30).toNat = k by omega, shiftFloor_eq_div, pow_add,
      Int.mul_ediv_cancel _ (by positivity)]
  · rw [← pow_add]
    congr 1
    omega

/-- A power of two normalizes to the significand `2^30`, whatever its position. -/
theorem normalize_two_pow (p : Nat) {E : Int} (h₁ : expMin ≤ E + (p - 30)) (h₂ : E + (p - 30) ≤ expMax) :
    normalize (2 ^ p) E = .ok (pack (2 ^ 30) (E + (p - 30))) := by
  have h0 : (2 : Int) ^ p ≠ 0 := by positivity
  have he : normExp (2 ^ p) E = E + (p - 30) := by rw [normExp, normShift_two_pow]
  rw [normalize_of_fits ((fits_iff h0).mpr (by rw [he]; exact ⟨h₁, h₂⟩)), normWord, if_neg h0, normSig_two_pow, he]

/-! ## Addition and subtraction of a lesser operand that is not dropped (R140, R141) -/

section Aligned
variable {a b : Word}

theorem ADD_of_aligned (h₁ : 0 ≤ expo a - expo b) (h₂ : expo a - expo b < 32) :
    ADD a b = normalize (sig a + shiftFloor (sig b) (expo a - expo b).toNat) (expo a) := by
  rcases ADD_cases a b with ⟨_, _⟩ | ⟨_, _⟩ | ⟨_, _, e⟩ | ⟨_, _, _⟩
  case inr.inr.inl => exact e
  all_goals omega

theorem SUB_of_aligned (h₀ : sig a ≠ 0) (h₁ : 0 ≤ expo a - expo b) (h₂ : expo a - expo b < 32) :
    SUB a b = normalize (sig a - shiftFloor (sig b) (expo a - expo b).toNat) (expo a) := by
  rcases SUB_cases a b with ⟨_, _⟩ | ⟨_, _, _⟩ | ⟨_, _, _, e⟩ | ⟨_, _, _, _⟩
  case inr.inr.inl => exact e
  all_goals omega

end Aligned

/-! ## The words of powers of two -/

section PowerWords
variable {E : Int}

theorem sig_pack_two_pow_30 (E : Int) : sig (pack (2 ^ 30) E) = 2 ^ 30 := sig_pack (by norm_num) (by norm_num)

theorem expo_pack_of_range (S : Int) (h₁ : expMin ≤ E) (h₂ : E ≤ expMax) : expo (pack S E) = E := by
  simp only [expMin, expMax] at h₁ h₂
  exact expo_pack (by omega) (by omega)

/-- Equal exponents: the sum is `2^31` at that exponent, one binade up. -/
theorem ADD_two_pow_self (h₁ : expMin ≤ E) (h₂ : E + 1 ≤ expMax) :
    ADD (pack (2 ^ 30) E) (pack (2 ^ 30) E) = .ok (pack (2 ^ 30) (E + 1)) := by
  have he := expo_pack_of_range (2 ^ 30) h₁ (by omega)
  rw [ADD_of_aligned (by omega) (by omega), sig_pack_two_pow_30, he, shiftFloor_eq_div]
  simpa using normalize_two_pow 31 (E := E) (by omega) (by omega)

/-- One binade apart: the lesser operand is aligned to `2^29`, and the difference `2^29` is the lesser operand again. -/
theorem SUB_two_pow_half (h₁ : expMin ≤ E) (h₂ : E + 1 ≤ expMax) :
    SUB (pack (2 ^ 30) (E + 1)) (pack (2 ^ 30) E) = .ok (pack (2 ^ 30) E) := by
  have hs := sig_pack_two_pow_30 (E + 1)
  have he := expo_pack_of_range (2 ^ 30) h₁ (by omega)
  have he' := expo_pack_of_range (2 ^ 30) (E := E + 1) (by omega) h₂
  rw [SUB_of_aligned (by omega) (by omega) (by omega), hs, sig_pack_two_pow_30, he, he', shiftFloor_eq_div]
  simpa using normalize_two_pow 29 (E := E + 1) (by omega) (by omega)

theorem val_pack_two_pow_succ (h₁ : expMin ≤ E) (h₂ : E + 1 ≤ expMax) :
    val (pack (2 ^ 30) (E + 1)) = 2 * val (pack (2 ^ 30) E) := by
  rw [val, val, sig_pack_two_pow_30, sig_pack_two_pow_30, expo_pack_of_range _ h₁ (by omega),
    expo_pack_of_range _ (by omega) h₂, zpow_add_one₀ (by norm_num)]
  ring

end PowerWords

/-- Settles O37: with `E = k - 30`, the aligned significands are `2^30 + 2^30 = 2^31` and `2^30 - 2^29 = 2^29`. -/
theorem addThenSubRestoresTheOffset : Obligations.AddThenSubRestoresTheOffset := by
  intro k h₁ h₂
  have hk : k - 29 = k - 30 + 1 := by omega
  rw [hk] at h₂ ⊢
  exact ⟨ADD_two_pow_self h₁ h₂, val_pack_two_pow_succ h₁ h₂, SUB_two_pow_half h₁ h₂⟩

end Sys2Proof.Machine
end

section
/-! PROOFS. CMP, EQ, LT and GT agree on one three-way order (spec/42_compare.md R197). -/

namespace Sys2Proof.Machine

/-! ## The three answers of `lexCmp` (R190) -/

section LexCmp
variable (a b : Word)

theorem lexCmp_range : lexCmp a b = -1 ∨ lexCmp a b = 0 ∨ lexCmp a b = 1 := by
  rcases lexCmp_cases a b with ⟨h, _⟩ | ⟨h, _⟩ | ⟨h, _⟩ <;> simp [h]

theorem lexCmp_eq_neg_one_iff : lexCmp a b = -1 ↔ lexBelow a b := by
  rcases lexCmp_cases a b with ⟨h, hab⟩ | ⟨h, hba⟩ | ⟨h, rfl⟩ <;> rw [h, lexBelow] <;> omega

theorem lexCmp_eq_one_iff : lexCmp a b = 1 ↔ lexBelow b a := by
  rcases lexCmp_cases a b with ⟨h, hab⟩ | ⟨h, hba⟩ | ⟨h, rfl⟩ <;> rw [h, lexBelow] <;> omega

theorem lexCmp_neg_iff : lexCmp a b < 0 ↔ lexBelow a b := by
  rw [← lexCmp_eq_neg_one_iff]
  have := lexCmp_range a b
  omega

theorem lexCmp_eq_zero_iff_eq : lexCmp a b = 0 ↔ a = b := by
  constructor
  · rcases lexCmp_cases a b with ⟨h, _⟩ | ⟨h, _⟩ | ⟨_, hab⟩
    · omega
    · omega
    · exact fun _ => hab
  · rintro rfl
    simp [lexCmp]

end LexCmp

/-! ## The words the comparison commands write -/

theorem toInt_trunc64_lexCmp (a b : Word) : (trunc64 (lexCmp a b)).toInt = lexCmp a b := by
  rcases lexCmp_range a b with h | h | h <;> rw [h] <;> decide

/-- EQ compares the words bit by bit (R192), which is asking whether `Cmp` answers 0. -/
theorem boolWord_beq (a b : Word) : boolWord (a == b) = boolWord (lexCmp a b = 0) := by
  congr 1
  rw [Bool.eq_iff_iff, beq_iff_eq, decide_eq_true_iff, lexCmp_eq_zero_iff_eq]

/-- What a command that only writes a function of its two canonical operands leaves in its destination. -/
theorem reg_of_exec_finishWrite {s t : State} {rd rs1 rs2 : Reg} {i : Instr} (f : Word → Word → Word)
    (hi : exec i s = .next (finishWrite s rd (withScaled₂ s rs1 rs2 fun a b => .ok (f a b))))
    (h₁ : isCanon (s.reg rs1) = true) (h₂ : isCanon (s.reg rs2) = true) (ht : exec i s = .next t) :
    t.reg rd = f (s.reg rs1) (s.reg rs2) := by
  rw [withScaled₂_of_canon s rs1 rs2 _ h₁ h₂, finishWrite_ok, ht] at hi
  cases hi
  simp

/-- Settles O49: the four commands write functions of `Cmp`, which has three answers. -/
theorem comparisonsAreConsistent : Obligations.ComparisonsAreConsistent := by
  intro s c l e g rd rs1 rs2 h₁ h₂ hc hl he hg
  rw [reg_of_exec_finishWrite (fun a b => trunc64 (lexCmp a b)) rfl h₁ h₂ hc, toInt_trunc64_lexCmp,
    reg_of_exec_finishWrite (fun a b => boolWord (lexCmp a b < 0)) rfl h₁ h₂ hl,
    reg_of_exec_finishWrite (fun a b => boolWord (a == b)) rfl h₁ h₂ he, boolWord_beq,
    reg_of_exec_finishWrite (fun a b => boolWord (0 < lexCmp a b)) rfl h₁ h₂ hg]
  rcases lexCmp_range (s.reg rs1) (s.reg rs2) with h | h | h <;> rw [h] <;> decide

end Sys2Proof.Machine
end

section
/-! PROOFS. Where the lexicographic order of `Cmp` is the order of the values and where it is not (spec/42_compare.md R195).
The value of a non-zero canonical word lies in the binade its exponent names, so a larger exponent is the larger value for
positive words and the lesser one for negative words. -/

namespace Sys2Proof.Machine

variable {a b : Word}

/-! ## The sign of a value is the sign of its significand -/

theorem val_pos (h : 0 < sig a) : 0 < val a :=
  mul_pos (by exact_mod_cast h) (by positivity)

theorem val_neg (h : sig a < 0) : val a < 0 :=
  mul_neg_of_neg_of_pos (by exact_mod_cast h) (by positivity)

/-- On one exponent the values are ordered as the significands. -/
theorem val_lt_val_iff_of_expo_eq (he : expo a = expo b) : val a < val b ↔ sig a < sig b := by
  rw [val, val, he, mul_lt_mul_iff_left₀ (by positivity), Int.cast_lt]

/-! ## Binades (R21, R22) -/

/-- A power of two at the scale of an exponent, in the form of `val`. -/
theorem two_zpow_add (e : Int) (n : Nat) : (2 : ℚ) ^ (e + n) = ((2 ^ n : Int) : ℚ) * 2 ^ e := by
  rw [zpow_add₀ two_ne_zero, zpow_natCast, mul_comm]
  norm_cast

theorem val_binade_of_pos (ha : isCanon a = true) (h : 0 < sig a) :
    2 ^ (expo a + 30) ≤ val a ∧ val a < 2 ^ (expo a + 31) := by
  have hs : 2 ^ 30 ≤ sig a ∧ sig a < 2 ^ 31 := by have := canonical_sig ha h.ne'; omega
  have hp : (0 : ℚ) < 2 ^ expo a := by positivity
  exact ⟨(two_zpow_add (expo a) 30).trans_le (mul_le_mul_of_nonneg_right (Int.cast_le.mpr hs.1) hp.le),
    (mul_lt_mul_of_pos_right (Int.cast_lt.mpr hs.2) hp).trans_eq (two_zpow_add (expo a) 31).symm⟩

theorem val_binade_of_neg (ha : isCanon a = true) (h : sig a < 0) :
    -2 ^ (expo a + 31) ≤ val a ∧ val a < -2 ^ (expo a + 30) := by
  have hs : 2 ^ 30 < -sig a ∧ -sig a ≤ 2 ^ 31 := by have := canonical_sig ha h.ne; omega
  have hp : (0 : ℚ) < 2 ^ expo a := by positivity
  have hv : -val a = ((-sig a : Int) : ℚ) * 2 ^ expo a := by rw [val]; push_cast; ring
  rw [neg_le, lt_neg, hv]
  exact ⟨(mul_le_mul_of_nonneg_right (Int.cast_le.mpr hs.2) hp.le).trans_eq (two_zpow_add (expo a) 31).symm,
    (two_zpow_add (expo a) 30).trans_lt (mul_lt_mul_of_pos_right (Int.cast_lt.mpr hs.1) hp)⟩

/-- The binade of a smaller exponent ends where, or before, that of a larger one begins. -/
theorem binade_le_of_lt {e f : Int} (h : e < f) : (2 : ℚ) ^ (e + 31) ≤ 2 ^ (f + 30) :=
  zpow_le_zpow_right₀ one_le_two (by omega)

theorem val_lt_of_expo_lt_of_pos (ha : isCanon a = true) (hb : isCanon b = true) (hsa : 0 < sig a) (hsb : 0 < sig b)
    (h : expo a < expo b) : val a < val b :=
  calc val a < 2 ^ (expo a + 31) := (val_binade_of_pos ha hsa).2
    _ ≤ 2 ^ (expo b + 30) := binade_le_of_lt h
    _ ≤ val b := (val_binade_of_pos hb hsb).1

theorem val_lt_of_expo_lt_of_neg (ha : isCanon a = true) (hb : isCanon b = true) (hsa : sig a < 0) (hsb : sig b < 0)
    (h : expo a < expo b) : val b < val a :=
  calc val b < -2 ^ (expo b + 30) := (val_binade_of_neg hb hsb).2
    _ ≤ -2 ^ (expo a + 31) := neg_le_neg (binade_le_of_lt h)
    _ ≤ val a := (val_binade_of_neg ha hsa).1

/-! ## From the lexicographic order to the order of the values -/

/-- The exponent of zero is below every exponent of a non-zero canonical word (R22). -/
theorem expo_lt_of_zero (ha : isCanon a = true) (hb : isCanon b = true) (hsa : sig a = 0) (hsb : sig b ≠ 0) :
    expo a < expo b := by
  obtain ⟨_, hmin, _⟩ := canon_ranges hb hsb
  rw [eq_zero_of_canon ha hsa, expo_ZERO]
  rw [expMin] at hmin
  omega

/-- Rows "Z, Z", "Z, P" and "P, P" of R195. -/
theorem val_lt_of_lexBelow_of_nonneg (ha : isCanon a = true) (hb : isCanon b = true) (hsa : 0 ≤ sig a)
    (hsb : 0 ≤ sig b) (h : lexBelow a b) : val a < val b := by
  rcases h with he | ⟨he, hs⟩
  · rcases hsb.eq_or_lt with hb0 | hb0
    · have := expo_ge a
      rw [eq_zero_of_canon hb hb0.symm, expo_ZERO] at he
      omega
    rcases hsa.eq_or_lt with ha0 | ha0
    · rw [(val_eq_zero_iff a).mpr ha0.symm]
      exact val_pos hb0
    · exact val_lt_of_expo_lt_of_pos ha hb ha0 hb0 he
  · exact (val_lt_val_iff_of_expo_eq he).mpr hs

/-- `Cmp` agrees with the values on a pair where being below, either way round, is having the lesser value. -/
theorem lexCmp_neg_iff_val_lt (hab : lexBelow a b → val a < val b) (hba : lexBelow b a → val b < val a) :
    lexCmp a b < 0 ↔ val a < val b := by
  rw [lexCmp_neg_iff]
  refine ⟨hab, fun hv => ?_⟩
  rcases lexCmp_range a b with h | h | h
  · exact (lexCmp_eq_neg_one_iff a b).mp h
  · exact absurd ((lexCmp_eq_zero_iff_eq a b).mp h ▸ hv) (lt_irrefl _)
  · exact absurd (hba ((lexCmp_eq_one_iff a b).mp h)) hv.asymm

/-- Settles O51, row by row of R195: where `Cmp` agrees by the implications above, where it does not because the exponent
alone decides it. -/
theorem whereTheOrderIsNumeric : Obligations.WhereTheOrderIsNumeric := by
  intro a b ha hb
  refine ⟨val_binade_of_pos ha, val_binade_of_neg ha, fun hsa hsb => ?nonneg, fun _ _ he => ?sameExponent,
    fun hsa hsb he => ?positiveAbove, fun hsa hsb => ?zeroNegative, fun hsa hsb he => ?negatives,
    fun hsa hsb he => ?positiveBelow⟩
  case nonneg =>
    exact lexCmp_neg_iff_val_lt (val_lt_of_lexBelow_of_nonneg ha hb hsa hsb)
      (val_lt_of_lexBelow_of_nonneg hb ha hsb hsa)
  case sameExponent => rw [lexCmp_neg_iff, val_lt_val_iff_of_expo_eq he, lexBelow]; omega
  case positiveAbove =>
    exact ⟨(lexCmp_eq_one_iff a b).mpr (by rw [lexBelow]; omega), (val_neg hsb).trans (val_pos hsa)⟩
  case zeroNegative =>
    exact ⟨(lexCmp_eq_neg_one_iff a b).mpr (.inl (expo_lt_of_zero ha hb hsa hsb.ne)),
      (val_neg hsb).trans_eq ((val_eq_zero_iff a).mpr hsa).symm⟩
  case negatives =>
    exact ⟨(lexCmp_eq_neg_one_iff a b).mpr (.inl he), val_lt_of_expo_lt_of_neg ha hb hsa hsb he⟩
  case positiveBelow =>
    exact ⟨(lexCmp_eq_neg_one_iff a b).mpr (.inl he), (val_neg hsb).trans (val_pos hsa)⟩

end Sys2Proof.Machine
end

section
/-! PROOFS. Words whose value is an integer: what the splits and cuts of the transcendental core and of `ToInt` do with
them (spec/40_codec.md R124, spec/43_transcendental.md R223, R240), and the word an integer is normalized to
(spec/40_codec.md R100, R120). -/

namespace Sys2Proof.Machine

variable {a b : Word} {s z n lo hi : Int}

/-! ## An integer that is a significand times a power of two -/

theorem mul_two_pow_eq_of_zpow (h : (s : ℚ) * 2 ^ z = n) (hz : 0 ≤ z) : s * 2 ^ z.toNat = n := by
  have e : (2 : ℚ) ^ z = 2 ^ z.toNat := by rw [← zpow_natCast, Int.toNat_of_nonneg hz]
  rw [e] at h
  exact_mod_cast h

theorem eq_mul_two_pow_of_zpow (h : (s : ℚ) * 2 ^ z = n) (hz : z ≤ 0) : s = n * 2 ^ (-z).toNat := by
  have e : (2 : ℚ) ^ (-z).toNat = (2 ^ z)⁻¹ := by rw [← zpow_neg, ← zpow_natCast, Int.toNat_of_nonneg (by omega)]
  have hs : (s : ℚ) = n * 2 ^ (-z).toNat := by rw [e, ← h, mul_inv_cancel_right₀ (by positivity)]
  exact_mod_cast hs

/-- The magnitude of a multiple bounds the power of two it is a multiple of. -/
theorem lt_of_abs_mul_two_pow_lt {k j : Nat} (hn : n ≠ 0) (h : |n * 2 ^ k| < 2 ^ j) : k < j := by
  rw [abs_mul, abs_of_pos (show (0 : Int) < 2 ^ k by positivity)] at h
  have hk : (2 : Int) ^ k ≤ |n| * 2 ^ k := le_mul_of_one_le_left (by positivity) (Int.one_le_abs hn)
  exact (pow_lt_pow_iff_right₀ (by norm_num)).mp (hk.trans_lt h)

/-! ## The integer a word holds -/

theorem sig_abs_le (w : Word) : |sig w| ≤ 2 ^ 31 := abs_le.mpr ⟨sig_ge w, (sig_lt w).le⟩

theorem int_eq_zero_of_val_eq (h : val a = n) (hs : sig a = 0) : n = 0 := by
  exact_mod_cast h.symm.trans ((val_eq_zero_iff a).mpr hs)

/-- At an exponent of at most 0 the significand is a multiple of the integer (R223 `k`). -/
theorem sig_eq_of_val_eq (h : val a = n) (he : expo a ≤ 0) : sig a = n * 2 ^ (-expo a).toNat :=
  eq_mul_two_pow_of_zpow h he

theorem neg_expo_lt_of_val_eq (h : val a = n) (he : expo a ≤ 0) (hs : sig a ≠ 0) : (-expo a).toNat < 32 := by
  have e := sig_eq_of_val_eq h he
  refine lt_of_abs_mul_two_pow_lt (n := n) (by rintro rfl; simp [e] at hs) ?_
  rw [← e]
  exact (sig_abs_le a).trans_lt (by norm_num)

theorem int_bounds_of_val_eq (h : val a = n) (he : expo a ≤ 0) : -2 ^ 31 ≤ n ∧ n ≤ 2 ^ 31 - 1 := by
  have e := sig_eq_of_val_eq h he
  have hlo := sig_ge a
  have hhi := sig_lt a
  have hk : (1 : Int) ≤ 2 ^ (-expo a).toNat := one_le_pow₀ (by norm_num)
  constructor <;> nlinarith

/-- `ToInt` answers the integer of the value when it is in the target range (R124). -/
theorem toInteger_of_val_eq (h : val a = n) (hlo : lo ≤ n) (hhi : n ≤ hi) (h64 : |n| < 2 ^ 64) :
    toInteger a lo hi = .ok n := by
  have inRange_n : inRange lo hi n = .ok n := by
    rcases inRange_cases lo hi n with ⟨_, _, e⟩ | ⟨_, _⟩
    · exact e
    · omega
  rcases toInteger_cases a lo hi with ⟨hs, e⟩ | ⟨hs, he, e⟩ | ⟨hs, he, hfrac, _⟩ | ⟨_, he, _, _, e⟩
  · rw [e, int_eq_zero_of_val_eq h hs]
  · have hprod := mul_two_pow_eq_of_zpow h he
    have hz : (expo a).toNat < 64 := lt_of_abs_mul_two_pow_lt hs (hprod ▸ h64)
    rw [e, scaleUp_of_le hz.le, hprod, inRange_n]
  · rcases hfrac with hk | hmod
    · have := neg_expo_lt_of_val_eq h he.le hs
      omega
    · exact absurd (by rw [sig_eq_of_val_eq h he.le, Int.mul_emod_left]) hmod
  · rw [e, shiftFloor_eq_div, sig_eq_of_val_eq h he.le, Int.mul_ediv_cancel _ (by positivity), inRange_n]

/-- The integer part of R223 is the whole integer. -/
theorem intPart_of_val_eq (h : val a = n) (he : expo a ≤ 0) (hs : sig a ≠ 0) : intPart a = n := by
  have hk := neg_expo_lt_of_val_eq h he hs
  rw [intPart, if_neg (by omega), sig_eq_of_val_eq h he, Int.mul_tdiv_cancel _ (by positivity)]

/-- The fractional part of R223 is zero. -/
theorem fracSig_of_val_eq (h : val a = n) (he : expo a ≤ 0) (hs : sig a ≠ 0) : fracSig a = 0 := by
  have hk := neg_expo_lt_of_val_eq h he hs
  rw [fracSig, if_neg (by omega), intPart_of_val_eq h he hs, ← sig_eq_of_val_eq h he, sub_self]

/-! ## A canonical word is known by its value (R23) -/

theorem val_pos_iff : 0 < val a ↔ 0 < sig a := by
  rw [val, mul_pos_iff_of_pos_right (by positivity), Int.cast_pos]

theorem val_neg_iff : val a < 0 ↔ sig a < 0 := by
  rw [val, ← neg_pos, ← neg_mul, mul_pos_iff_of_pos_right (by positivity), neg_pos, Int.cast_lt_zero]

/-- No greater exponent reaches the value of a non-zero canonical word. -/
theorem not_expo_lt_of_val_eq (ha : isCanon a = true) (hb : isCanon b = true) (h : val a = val b) (hs : sig a ≠ 0) :
    ¬ expo a < expo b := by
  intro he
  rcases hs.lt_or_gt with hneg | hpos
  · have hneg' : sig b < 0 := by rwa [← val_neg_iff, ← h, val_neg_iff]
    exact (val_lt_of_expo_lt_of_neg ha hb hneg hneg' he).ne' h
  · have hpos' : 0 < sig b := by rwa [← val_pos_iff, ← h, val_pos_iff]
    exact (val_lt_of_expo_lt_of_pos ha hb hpos hpos' he).ne h

theorem eq_of_val_eq (ha : isCanon a = true) (hb : isCanon b = true) (h : val a = val b) : a = b := by
  have hzero : sig a = 0 ↔ sig b = 0 := by rw [← val_eq_zero_iff, h, val_eq_zero_iff]
  by_cases hs : sig a = 0
  · rw [eq_zero_of_canon ha hs, eq_zero_of_canon hb (hzero.mp hs)]
  · have he : expo a = expo b := le_antisymm
      (not_lt.mp (not_expo_lt_of_val_eq hb ha h.symm (mt hzero.mpr hs))) (not_lt.mp (not_expo_lt_of_val_eq ha hb h hs))
    refine word_ext (le_antisymm ?_ ?_) he <;> rw [← not_lt]
    · rw [← val_lt_val_iff_of_expo_eq he.symm, h]; exact lt_irrefl _
    · rw [← val_lt_val_iff_of_expo_eq he, h]; exact lt_irrefl _

/-! ## The word of an integer (R100, R120) -/

theorem normSig_of_normShift_nonpos (h : normShift s ≤ 0) : normSig s = s * 2 ^ (-normShift s).toNat := by
  rcases h.lt_or_eq with h | h
  · rw [normSig, if_neg (by omega)]
  · simp [normSig, h, shiftFloor]

/-- A left shift loses no bit. -/
theorem normSig_mul_two_zpow (h : normShift s ≤ 0) (z : Int) : (normSig s : ℚ) * 2 ^ normExp s z = s * 2 ^ z := by
  have hz : z = normExp s z + (-normShift s).toNat := by rw [normExp]; omega
  conv_rhs => rw [hz, two_zpow_add]
  rw [normSig_of_normShift_nonpos h]
  push_cast
  ring

/-- An integer of at most 31 bits becomes the canonical word of that value, at an exponent of at most 0. -/
theorem normalize_int_of_small (h : |n| < 2 ^ 31) :
    ∃ w, normalize n 0 = .ok w ∧ isCanon w = true ∧ val w = n ∧ expo w ≤ 0 := by
  rw [abs_lt] at h
  by_cases h0 : n = 0
  · exact ⟨ZERO, by rw [h0, normalize_zero], isCanon_ZERO, by simp [h0], by decide⟩
  have hle : normShift n ≤ 0 := by
    simpa using normShift_le (n := 31) (by omega) (by omega) (by norm_num)
  have hge := normShift_ge n
  have hexp : normExp n 0 = normShift n := zero_add _
  have hfits : fits n 0 = true := by rw [fits_iff h0, hexp, expMin, expMax]; omega
  have hexpo : expo (normWord n 0) ≤ 0 := by rwa [expo_normWord h0 hfits, hexp]
  refine ⟨normWord n 0, normalize_of_fits hfits, isCanon_normWord hfits, ?_, hexpo⟩
  rw [val, sig_normWord h0, expo_normWord h0 hfits, normSig_mul_two_zpow hle, zpow_zero, mul_one]

/-- An integer of exactly 32 bits is shifted right by one: its word has the exponent 1. -/
theorem normalize_int_of_large (h₁ : 2 ^ 31 ≤ n) (h₂ : n < 2 ^ 32) :
    ∃ w, normalize n 0 = .ok w ∧ sig w ≠ 0 ∧ expo w = 1 := by
  have h0 : n ≠ 0 := by omega
  have hle : normShift n ≤ 1 := by simpa using normShift_le (n := 32) (by omega) h₂ (by norm_num)
  have hpos : 0 < normShift n := by
    by_contra hc
    have hsig := normSig_of_normShift_nonpos (not_lt.mp hc)
    have hlt := (normSig_of_pos (S := n) (by omega)).2
    have hk : (1 : Int) ≤ 2 ^ (-normShift n).toNat := one_le_pow₀ (by norm_num)
    have hle : n ≤ n * 2 ^ (-normShift n).toNat := le_mul_of_one_le_right (by omega) hk
    omega
  have hexp : normExp n 0 = 1 := by rw [normExp]; omega
  have hfits : fits n 0 = true := by rw [fits_iff h0, hexp, expMin, expMax]; omega
  refine ⟨normWord n 0, normalize_of_fits hfits, ?_, by rw [expo_normWord h0 hfits, hexp]⟩
  have := normSig_of_pos (S := n) (by omega)
  rw [sig_normWord h0]
  omega

end Sys2Proof.Machine
end

section
/-! PROOFS. POW2 and LOG2 undo each other on powers of two and on integers, whatever the kernels are
(spec/43_transcendental.md R224): neither function reaches its kernel there. -/

namespace Sys2Proof.Machine

variable {a : Word} {e n T : Int}

/-! ## The word of a power of two (R240 `2^T`) -/

theorem powTwoWord_of_range (h₁ : expMin ≤ T - 30) (h₂ : T - 30 ≤ expMax) :
    powTwoWord T = .ok (pack (2 ^ 30) (T - 30)) := by
  rw [powTwoWord, if_neg (by omega)]

theorem powTwoWord_of_not_range (h : T - 30 < expMin ∨ expMax < T - 30) : powTwoWord T = .error .overflow := by
  rw [powTwoWord, if_pos h]

/-- Normalizing a power of two answers its word, or Overflow just when there is none. -/
theorem normalize_two_pow_eq_powTwoWord (p : Nat) (E : Int) : normalize (2 ^ p) E = powTwoWord (E + p) := by
  have hT : E + p - 30 = E + (p - 30) := by omega
  by_cases h : E + p - 30 < expMin ∨ expMax < E + p - 30
  · have h0 : (2 : Int) ^ p ≠ 0 := by positivity
    have hfits : fits (2 ^ p) E = false := by
      rw [Bool.eq_false_iff, Ne, fits_iff h0, normExp, normShift_two_pow, ← hT]
      omega
    rw [normalize_of_not_fits hfits, powTwoWord_of_not_range h]
  · rw [powTwoWord_of_range (by omega) (by omega), hT]
    exact normalize_two_pow p (by omega) (by omega)

/-! ## POW2 of an integer, LOG2 of a power of two -/

/-- R223 corner case 2. -/
theorem POW2_of_val_eq (h : val a = n) (he : expo a ≤ 0) : POW2 a = powTwoWord n := by
  have fraction_zero := fracSig_of_val_eq h he
  rcases POW2_cases a with ⟨hs, hpow⟩ | ⟨_, _, _⟩ | ⟨hs, _, _, hpow⟩ | ⟨hs, _, hfrac, _⟩
  · rw [hpow, int_eq_zero_of_val_eq h hs]
    decide
  · omega
  · rw [hpow, intPart_of_val_eq h he hs, sig_ONE, expo_ONE, normalize_two_pow_eq_powTwoWord]
    congr 1
    omega
  · exact absurd (fraction_zero hs) hfrac

/-- R213 on a power of two: the logarithm is the normalized integer. -/
theorem LOG2_two_pow (h₁ : expMin ≤ e) (h₂ : e ≤ expMax) : LOG2 (pack (2 ^ 30) e) = normalize (e + 30) 0 := by
  have hs := sig_pack_two_pow_30 e
  rw [LOG2_of_power _ (by omega) hs, expo_pack_of_range _ h₁ h₂, log2Bias]

/-- Settles O56: below `2^31` the logarithm is an exact integer with an exponent of at most 0, which POW2 takes back to the
power of two; a logarithm of `2^31` and above has the exponent 1, where POW2 overflows. An integer is the logarithm of its
power of two, and its canonical word is unique. -/
theorem log2AndPow2AreInverse : Obligations.Log2AndPow2AreInverse := by
  refine ⟨fun e h₁ h₂ he => ?exact, fun e h₁ h₂ he => ?above, fun a n ha hval hexp hn => ?integer⟩
  case exact =>
    obtain ⟨w, hw, _, hval, hexp⟩ := normalize_int_of_small he
    refine ⟨w, by rw [LOG2_two_pow h₁ h₂, hw], hexp, ?_⟩
    rw [POW2_of_val_eq hval hexp, powTwoWord_of_range (by omega) (by omega), add_sub_cancel_right]
  case above =>
    have hlarge : 2 ^ 31 ≤ e + 30 ∧ e + 30 < 2 ^ 32 := by
      rw [expMin] at h₁
      rw [expMax] at h₂
      rcases le_abs.mp he with h | h <;> omega
    obtain ⟨w, hw, hs, hexp⟩ := normalize_int_of_large hlarge.1 hlarge.2
    refine ⟨w, by rw [LOG2_two_pow h₁ h₂, hw], by omega, ?_⟩
    rcases POW2_cases w with ⟨_, _⟩ | ⟨_, _, hpow⟩ | ⟨_, _, _⟩ | ⟨_, _, _⟩
    case inr.inl => exact hpow
    all_goals omega
  case integer =>
    obtain ⟨hlo, hhi⟩ := int_bounds_of_val_eq hval hexp
    have h₁ : expMin ≤ n - 30 := by rw [expMin]; omega
    have h₂ : n - 30 ≤ expMax := by rw [expMax]; omega
    refine ⟨pack (2 ^ 30) (n - 30), by rw [POW2_of_val_eq hval hexp, powTwoWord_of_range h₁ h₂], ?_⟩
    obtain ⟨w, hw, hcanon, hval', _⟩ := normalize_int_of_small (n := n) (by rw [abs_lt]; omega)
    rw [LOG2_two_pow h₁ h₂, sub_add_cancel, hw, eq_of_val_eq hcanon ha (hval'.trans hval.symm)]

end Sys2Proof.Machine
end

section
/-! PROOFS. The fast paths of POW (spec/43_transcendental.md R240 steps 1 to 4, R241): the square, the powers of a power of
two, and the powers of ten. -/

namespace Sys2Proof.Machine

variable {b e : Word} {m T : Int}

/-! ## Which step of R240 answers -/

theorem POW_of_fast {r : Except Cause Word} (h : powFast b e = some r) : POW b e = r := by
  rw [POW, h, Option.getD_some]

/-- Step 1: an exponent of zero. -/
theorem POW_of_zero_exponent (he : sig e = 0) : POW b e = .ok ONE :=
  POW_of_fast (by rw [powFast, if_pos he])

/-- Step 1: zero to a positive power. -/
theorem POW_of_zero_base (hb : sig b = 0) (he : 0 < sig e) : POW b e = .ok ZERO :=
  POW_of_fast (by rw [powFast, if_neg he.ne', if_pos hb, if_pos he])

/-- Step 2: a power of two to an exponent whose product with the logarithm is an integer. -/
theorem POW_of_two_pow_base (he : sig e ≠ 0) (hb : sig b = 2 ^ 30) (hT : powTwoExponent b e = some T) :
    POW b e = powTwoWord T := by
  refine POW_of_fast ?_
  rw [powFast, if_neg he, if_neg (by omega), powOfTwoBase, if_pos hb, hT]
  rfl

/-- Step 3: base ten. -/
theorem POW_TEN (he : sig e ≠ 0) : POW TEN e = powOfTenBase e := by
  refine POW_of_fast ?_
  rw [powFast, if_neg he, if_neg (by decide), powOfTwoBase, if_neg (by decide)]
  rfl

/-- Step 4: the square of a base that none of the steps before takes. -/
theorem POW_TWO_of_other (h0 : sig b ≠ 0) (h2 : sig b ≠ 2 ^ 30) (h10 : b ≠ TEN) : POW b TWO = MUL b b := by
  refine POW_of_fast ?_
  rw [powFast, if_neg (by decide), if_neg h0, powOfTwoBase, if_neg h2]
  simp only [if_neg h10, if_pos]

/-! ## The exponent of step 2, and the cut at 64 (log 12) -/

theorem powTwoWord_of_large (h : 2 ^ 64 ≤ |T|) : powTwoWord T = .error .overflow :=
  powTwoWord_of_not_range (by rw [expMin, expMax]; rcases le_abs.mp h with h | h <;> omega)

/-- Cutting the exponent changes no outcome: past the cut both powers are out of range. -/
theorem powTwoWord_scaleUp (p z : Int) : powTwoWord (scaleUp p z) = powTwoWord (p * 2 ^ z.toNat) := by
  by_cases hz : z.toNat ≤ 64
  · rw [scaleUp_of_le hz]
  by_cases hp : p = 0
  · simp [hp, scaleUp]
  · obtain ⟨h₁, h₂⟩ := scaleUp_of_ge hp (by omega : 64 ≤ z.toNat)
    rw [powTwoWord_of_large h₁, powTwoWord_of_large h₂]

/-- The product of a logarithm and a significand is within 64 bits. -/
theorem abs_log_mul_sig_lt (b e : Word) : |(expo b + log2Bias) * sig e| < 2 ^ 64 := by
  have hlog : |expo b + log2Bias| ≤ 2 ^ 32 := by
    have hlo := expo_ge b
    have hhi := expo_lt b
    rw [abs_le, log2Bias]
    omega
  rw [abs_mul]
  calc |expo b + log2Bias| * |sig e| ≤ 2 ^ 32 * 2 ^ 31 :=
        mul_le_mul hlog (sig_abs_le e) (abs_nonneg _) (by norm_num)
    _ < 2 ^ 64 := by norm_num

/-- R240 step 2: when the product of logarithm and exponent is an integer, step 2 finds its power of two. -/
theorem powTwoExponent_of_product (h : ((expo b : ℚ) + 30) * val e = T) :
    ∃ T', powTwoExponent b e = some T' ∧ powTwoWord T' = powTwoWord T := by
  have hprod : (((expo b + log2Bias) * sig e : Int) : ℚ) * 2 ^ expo e = T := by
    rw [← h, val, log2Bias]
    push_cast
    ring
  by_cases he : 0 ≤ expo e
  · exact ⟨_, by rw [powTwoExponent, if_pos he], by rw [powTwoWord_scaleUp, mul_two_pow_eq_of_zpow hprod he]⟩
  have hp := eq_mul_two_pow_of_zpow hprod (by omega)
  refine ⟨T, ?_, rfl⟩
  rw [powTwoExponent, if_neg he]
  by_cases hT : T = 0
  · simp [hp, hT]
  have hk : (-expo e).toNat < 64 := lt_of_abs_mul_two_pow_lt hT (hp ▸ abs_log_mul_sig_lt b e)
  have hk0 : (2 : Int) ^ (-expo e).toNat ≠ 0 := by positivity
  simp only [min_eq_left hk.le, hp, Int.mul_emod_left, if_true, Int.mul_ediv_cancel _ hk0]

/-- Step 2 as a whole, exponent zero included: the power of two, or Overflow when there is none. -/
theorem POW_of_product (hb : sig b = 2 ^ 30) (h : ((expo b : ℚ) + 30) * val e = T) : POW b e = powTwoWord T := by
  by_cases he : sig e = 0
  · have hT : T = 0 := by simpa [(val_eq_zero_iff e).mpr he, eq_comm] using h
    rw [POW_of_zero_exponent he, hT]
    decide
  · obtain ⟨T', hT', hword⟩ := powTwoExponent_of_product h
    rw [POW_of_two_pow_base he hb hT', hword]

theorem POW_of_product_cases (hb : sig b = 2 ^ 30) (h : ((expo b : ℚ) + 30) * val e = T) :
    (expMin ≤ T - 30 → T - 30 ≤ expMax → POW b e = .ok (pack (2 ^ 30) (T - 30))) ∧
      (T - 30 < expMin ∨ expMax < T - 30 → POW b e = .error .overflow) := by
  rw [POW_of_product hb h]
  exact ⟨powTwoWord_of_range, powTwoWord_of_not_range⟩

/-! ## The square and the powers of ten -/

theorem MUL_self_of_two_pow (hb : sig b = 2 ^ 30) : MUL b b = powTwoWord ((expo b + 30) * 2) := by
  rw [MUL, hb, ← pow_add, normalize_two_pow_eq_powTwoWord]
  congr 1
  push_cast
  ring

theorem val_TWO : val TWO = 2 := by
  rw [val, sig_TWO, expo_TWO]
  norm_num

/-- R240 corner case 5: each of the steps before step 4 that takes the exponent TWO answers the square too. -/
theorem POW_TWO (b : Word) : POW b TWO = MUL b b := by
  by_cases h0 : sig b = 0
  · rw [POW_of_zero_base h0 (by decide), MUL, h0, mul_zero, normalize_zero]
  by_cases h2 : sig b = 2 ^ 30
  · rw [POW_of_product (T := (expo b + 30) * 2) h2 (by rw [val_TWO]; push_cast; ring), MUL_self_of_two_pow h2]
  by_cases h10 : b = TEN
  · rw [h10, POW_TEN (by decide)]
    decide
  · exact POW_TWO_of_other h0 h2 h10

theorem POW_TEN_of_val_eq (h : val e = m) (hlo : i32Min ≤ m) (hhi : m ≤ i32Max) : POW TEN e = POW10 m := by
  by_cases he : sig e = 0
  · rw [POW_of_zero_exponent he, int_eq_zero_of_val_eq h he]
    rfl
  · have hint : toInteger e i32Min i32Max = .ok m :=
      toInteger_of_val_eq h hlo hhi (by rw [i32Min] at hlo; rw [i32Max] at hhi; rw [abs_lt]; omega)
    rw [POW_TEN he, powOfTenBase, hint]

/-- Settles O60: the powers of `2^n` are the third part at the base `(2^30, n - 30)`. -/
theorem powFastPathsMatch : Obligations.PowFastPathsMatch := by
  refine ⟨fun x _ => POW_TWO x, fun n m e h₁ h₂ _ hm => ?integerPower,
    fun _ _ _ _ _ hb hT => POW_of_product_cases hb hT, fun _ _ _ hm hlo hhi => POW_TEN_of_val_eq hm hlo hhi⟩
  case integerPower =>
    refine POW_of_product_cases (sig_pack_two_pow_30 _) ?_
    rw [expo_pack_of_range _ h₁ h₂, hm]
    push_cast
    ring

end Sys2Proof.Machine
end

section
/-! PROOFS. Steps 1 and 2 of the prologue as the host sees them: a transaction that is skipped and one whose word is no
legal command (spec/60_exceptions.md R279, R282, R283; spec/30_encoding.md R78, R79). -/

namespace Sys2Proof.Machine

section Transaction
variable {s : State} {cmd : CmdWord} {w : Word} {rest : List HostEvent}

/-! ## The skip test on a latched transaction (R282) -/

theorem passesWhileFaulted_iff :
    passesWhileFaulted cmd = true ↔ cmd.opcode = 0x02#8 ∨ cmd.opcode = 0x38#8 ∨ cmd.opcode = 0x39#8 := by
  simp [passesWhileFaulted, or_assoc]

theorem skips_latch_eq_false_iff :
    (s.latch cmd w rest).skips = false ↔
      s.faulted = false ∨ cmd.opcode = 0x02#8 ∨ cmd.opcode = 0x38#8 ∨ cmd.opcode = 0x39#8 := by
  rw [← passesWhileFaulted_iff, State.skips, Bool.and_eq_false_iff, Bool.not_eq_false', latch_faulted, latch_cmd]

theorem skips_latch_iff :
    (s.latch cmd w rest).skips = true ↔
      s.faulted = true ∧ cmd.opcode ≠ 0x02#8 ∧ cmd.opcode ≠ 0x38#8 ∧ cmd.opcode ≠ 0x39#8 := by
  rw [← Bool.not_eq_false, skips_latch_eq_false_iff]
  simp

/-! ## The step on a transaction that runs no command -/

/-- R282: the skip test comes before decode, so nothing is asked of the word but its opcode. -/
theorem step_of_skipped_command (hhost : s.host = .command cmd w :: rest)
    (hskip : (s.latch cmd w rest).skips = true) : step s = .next (skipCommand (s.latch cmd w rest)) := by
  refine step_of_skip s _ ((fetch_command s hhost).trans ?_)
  rcases classify_cases (s.latch cmd w rest) with ⟨_, hclass⟩ | ⟨hrun, _⟩ | ⟨hrun, _⟩
  · exact hclass
  · simp [hskip] at hrun
  · simp [hskip] at hrun

/-- R79, R279: fault entry with IllegalCommand is the whole step. -/
theorem step_of_illegal_command (hhost : s.host = .command cmd w :: rest)
    (hskip : (s.latch cmd w rest).skips = false) (hillegal : ∀ i, decode cmd ≠ .ok i) :
    step s = .next (takeFault .illegalCommand (s.latch cmd w rest)) := by
  refine step_of_illegal s _ ((fetch_command s hhost).trans ?_)
  rcases classify_cases (s.latch cmd w rest) with ⟨hskips, _⟩ | ⟨_, i, hdecode, _⟩ | ⟨_, _, _, hclass⟩
  · simp [hskip] at hskips
  · exact absurd hdecode (hillegal i)
  · exact hclass

end Transaction

/-! ## What fault entry leaves in STATUS (R280) -/

theorem statusF_takeFault (c : Cause) (s : State) : statusF (takeFault c s).status = true := by simp

theorem statusCause_takeFault (c : Cause) (s : State) : statusCause (takeFault c s).status = c.code := by simp

/-- Settles O7: the step is fault entry with cause 8 on the latched transaction, in either state of the unit. -/
theorem illegalWordRaisesIllegalCommand : Obligations.IllegalWordRaisesIllegalCommand := by
  intro s cmd w rest hhost hpass hillegal
  refine ⟨takeFault .illegalCommand (s.latch cmd w rest),
    step_of_illegal_command hhost (skips_latch_eq_false_iff.mpr hpass) hillegal, ?_⟩
  exact ⟨takeFault_x .., statusF_takeFault .., statusCause_takeFault .., takeFault_fcmd .., takeFault_fcc ..,
    takeFault_cc .., takeFault_response .., takeFault_host ..⟩

/-- Settles O6: skipping answers (15, 0) and counts the latched transaction, and does nothing else. -/
theorem faultedUnitSkips : Obligations.FaultedUnitSkips := by
  intro s cmd w rest hhost hfaulted hrdv hrdcsr hclrf
  exact step_of_skipped_command hhost (skips_latch_iff.mpr ⟨hfaulted, hrdv, hrdcsr, hclrf⟩)

end Sys2Proof.Machine
end

section
/-! PROOFS. The decoder, the encoder and the opcode map agree (spec/30_encoding.md R74 to R79, R88): each of the three is
read as "the word is assembled from these fields", form by form. -/

namespace Sys2Proof

/-! ## Words and rows, field by field (R74, R77) -/

/-- A bitwise AND of two command words is taken field by field. -/
theorem assemble_and (op op' : BitVec 8) (a a' b b' c c' d d' : Reg) (k k' : Imm8) :
    assemble op a b c d k &&& assemble op' a' b' c' d' k' =
      assemble (op &&& op') (a &&& a') (b &&& b') (c &&& c') (d &&& d') (k &&& k') := by
  simp only [assemble]
  rw [BitVec.and_append, BitVec.and_append, BitVec.and_append, BitVec.and_append, BitVec.and_append]

theorem assemble_inj {op op' : BitVec 8} {a a' b b' c c' d d' : Reg} {k k' : Imm8} :
    assemble op a b c d k = assemble op' a' b' c' d' k' ↔
      op = op' ∧ a = a' ∧ b = b' ∧ c = c' ∧ d = d' ∧ k = k' := by
  refine ⟨fun h => ?_, by rintro ⟨rfl, rfl, rfl, rfl, rfl, rfl⟩; rfl⟩
  refine ⟨?_, ?_, ?_, ?_, ?_, ?_⟩
  · simpa using congrArg CmdWord.opcode h
  · simpa using congrArg CmdWord.rd h
  · simpa using congrArg CmdWord.rs1 h
  · simpa using congrArg CmdWord.rs2 h
  · simpa using congrArg CmdWord.rs3 h
  · simpa using congrArg CmdWord.imm8 h

theorem exists_assemble (c : CmdWord) : ∃ op rd rs1 rs2 rs3 imm, c = assemble op rd rs1 rs2 rs3 imm :=
  ⟨_, _, _, _, _, _, (assemble_fields c).symm⟩

theorem fits_assemble_iff {r : OpcodeRow} {op op' : BitVec 8} {a b c d ma mb mc md : Reg} {k mk : Imm8}
    (hm : r.mask = assemble 255 ma mb mc md mk) (hp : r.pattern = assemble op 0 0 0 0 0) :
    r.fits (assemble op' a b c d k) = true ↔
      op' = op ∧ a &&& ma = 0 ∧ b &&& mb = 0 ∧ c &&& mc = 0 ∧ d &&& md = 0 ∧ k &&& mk = 0 := by
  rw [OpcodeRow.fits, beq_iff_eq, hm, hp, assemble_and, assemble_inj, show op' &&& 255 = op' from BitVec.and_allOnes]

@[simp] theorem and_allOnes_reg (a : Reg) : a &&& 15#4 = a := BitVec.and_allOnes
@[simp] theorem and_allOnes_imm (k : Imm8) : k &&& 255#8 = k := BitVec.and_allOnes

section Forms
variable {op : BitVec 8} {r : OpcodeRow} {c : CmdWord} {i : Instr}

/-! ## The words each form accepts, and the words that fit a row of each form (R75, R77) -/

theorem formD_eq_ok {mk : Reg → Instr} (h : formD c mk = .ok i) :
    c = assemble c.opcode c.rd 0 0 0 0 ∧ mk c.rd = i := by
  obtain ⟨op, a, b, d, e, k, rfl⟩ := exists_assemble c
  obtain ⟨hz, rfl⟩ := useFields_eq_ok.mp h
  simp_all

theorem formS_eq_ok {mk : Reg → Instr} (h : formS c mk = .ok i) :
    c = assemble c.opcode 0 c.rs1 0 0 0 ∧ mk c.rs1 = i := by
  obtain ⟨op, a, b, d, e, k, rfl⟩ := exists_assemble c
  obtain ⟨hz, rfl⟩ := useFields_eq_ok.mp h
  simp_all

theorem formDI_eq_ok {mk : Reg → Imm8 → Instr} (h : formDI c mk = .ok i) :
    c = assemble c.opcode c.rd 0 0 0 c.imm8 ∧ mk c.rd c.imm8 = i := by
  obtain ⟨op, a, b, d, e, k, rfl⟩ := exists_assemble c
  obtain ⟨hz, rfl⟩ := useFields_eq_ok.mp h
  simp_all

theorem formDS_eq_ok {mk : Reg → Reg → Instr} (h : formDS c mk = .ok i) :
    c = assemble c.opcode c.rd c.rs1 0 0 0 ∧ mk c.rd c.rs1 = i := by
  obtain ⟨op, a, b, d, e, k, rfl⟩ := exists_assemble c
  obtain ⟨hz, rfl⟩ := useFields_eq_ok.mp h
  simp_all

theorem formDSS_eq_ok {mk : Reg → Reg → Reg → Instr} (h : formDSS c mk = .ok i) :
    c = assemble c.opcode c.rd c.rs1 c.rs2 0 0 ∧ mk c.rd c.rs1 c.rs2 = i := by
  obtain ⟨op, a, b, d, e, k, rfl⟩ := exists_assemble c
  obtain ⟨hz, rfl⟩ := useFields_eq_ok.mp h
  simp_all

theorem formDSSS_eq_ok {mk : Reg → Reg → Reg → Reg → Instr} (h : formDSSS c mk = .ok i) :
    c = assemble c.opcode c.rd c.rs1 c.rs2 c.rs3 0 ∧ mk c.rd c.rs1 c.rs2 c.rs3 = i := by
  obtain ⟨op, a, b, d, e, k, rfl⟩ := exists_assemble c
  obtain ⟨hz, rfl⟩ := useFields_eq_ok.mp h
  simp_all

theorem formDDSS_eq_ok {mk : Reg → Reg → Reg → Reg → Instr} (h : formDDSS c mk = .ok i) :
    c = assemble c.opcode c.rd c.rs1 c.rs2 c.rs3 0 ∧ mk c.rd c.rs3 c.rs1 c.rs2 = i := by
  obtain ⟨op, a, b, d, e, k, rfl⟩ := exists_assemble c
  obtain ⟨hz, rfl⟩ := useFields_eq_ok.mp h
  simp_all

theorem formDSSI_eq_ok {mk : Reg → Reg → Reg → Imm8 → Instr} (h : formDSSI c mk = .ok i) :
    c = assemble c.opcode c.rd c.rs1 c.rs2 0 c.imm8 ∧ mk c.rd c.rs1 c.rs2 c.imm8 = i := by
  obtain ⟨op, a, b, d, e, k, rfl⟩ := exists_assemble c
  obtain ⟨hz, rfl⟩ := useFields_eq_ok.mp h
  simp_all

theorem formI_eq_ok {mk : Imm8 → Instr} (h : formI c mk = .ok i) :
    c = assemble c.opcode 0 0 0 0 c.imm8 ∧ mk c.imm8 = i := by
  obtain ⟨op, a, b, d, e, k, rfl⟩ := exists_assemble c
  obtain ⟨hz, rfl⟩ := useFields_eq_ok.mp h
  simp_all

theorem formN_eq_ok {mk : Instr} (h : formN c mk = .ok i) :
    c = assemble c.opcode 0 0 0 0 0 ∧ mk = i := by
  obtain ⟨op, a, b, d, e, k, rfl⟩ := exists_assemble c
  obtain ⟨hz, rfl⟩ := useFields_eq_ok.mp h
  simp_all

theorem fits_D (hm : r.mask = assemble 255 0 15 15 15 255) (hp : r.pattern = assemble op 0 0 0 0 0) :
    r.fits c = true ↔ ∃ rd, c = assemble op rd 0 0 0 0 := by
  obtain ⟨op', a, b, d, e, k, rfl⟩ := exists_assemble c
  simp [fits_assemble_iff hm hp, assemble_inj]

theorem fits_S (hm : r.mask = assemble 255 15 0 15 15 255) (hp : r.pattern = assemble op 0 0 0 0 0) :
    r.fits c = true ↔ ∃ rs1, c = assemble op 0 rs1 0 0 0 := by
  obtain ⟨op', a, b, d, e, k, rfl⟩ := exists_assemble c
  simp [fits_assemble_iff hm hp, assemble_inj]

theorem fits_DI (hm : r.mask = assemble 255 0 15 15 15 0) (hp : r.pattern = assemble op 0 0 0 0 0) :
    r.fits c = true ↔ ∃ rd k, c = assemble op rd 0 0 0 k := by
  obtain ⟨op', a, b, d, e, k, rfl⟩ := exists_assemble c
  simp [fits_assemble_iff hm hp, assemble_inj]

theorem fits_DS (hm : r.mask = assemble 255 0 0 15 15 255) (hp : r.pattern = assemble op 0 0 0 0 0) :
    r.fits c = true ↔ ∃ rd rs1, c = assemble op rd rs1 0 0 0 := by
  obtain ⟨op', a, b, d, e, k, rfl⟩ := exists_assemble c
  simp [fits_assemble_iff hm hp, assemble_inj]

theorem fits_DSS (hm : r.mask = assemble 255 0 0 0 15 255) (hp : r.pattern = assemble op 0 0 0 0 0) :
    r.fits c = true ↔ ∃ rd rs1 rs2, c = assemble op rd rs1 rs2 0 0 := by
  obtain ⟨op', a, b, d, e, k, rfl⟩ := exists_assemble c
  simp [fits_assemble_iff hm hp, assemble_inj]

theorem fits_DSSS (hm : r.mask = assemble 255 0 0 0 0 255) (hp : r.pattern = assemble op 0 0 0 0 0) :
    r.fits c = true ↔ ∃ rd rs1 rs2 rs3, c = assemble op rd rs1 rs2 rs3 0 := by
  obtain ⟨op', a, b, d, e, k, rfl⟩ := exists_assemble c
  simp [fits_assemble_iff hm hp, assemble_inj]

theorem fits_DDSS (hm : r.mask = assemble 255 0 0 0 0 255) (hp : r.pattern = assemble op 0 0 0 0 0) :
    r.fits c = true ↔ ∃ rd rd2 rs1 rs2, c = assemble op rd rs1 rs2 rd2 0 := by
  obtain ⟨op', a, b, d, e, k, rfl⟩ := exists_assemble c
  simp [fits_assemble_iff hm hp, assemble_inj]

theorem fits_DSSI (hm : r.mask = assemble 255 0 0 0 15 0) (hp : r.pattern = assemble op 0 0 0 0 0) :
    r.fits c = true ↔ ∃ rd rs1 rs2 k, c = assemble op rd rs1 rs2 0 k := by
  obtain ⟨op', a, b, d, e, k, rfl⟩ := exists_assemble c
  simp [fits_assemble_iff hm hp, assemble_inj]

theorem fits_I (hm : r.mask = assemble 255 15 15 15 15 0) (hp : r.pattern = assemble op 0 0 0 0 0) :
    r.fits c = true ↔ ∃ k, c = assemble op 0 0 0 0 k := by
  obtain ⟨op', a, b, d, e, k, rfl⟩ := exists_assemble c
  simp [fits_assemble_iff hm hp, assemble_inj]

theorem fits_N (hm : r.mask = assemble 255 15 15 15 15 255) (hp : r.pattern = assemble op 0 0 0 0 0) :
    r.fits c = true ↔ c = assemble op 0 0 0 0 0 := by
  obtain ⟨op', a, b, d, e, k, rfl⟩ := exists_assemble c
  simp [fits_assemble_iff hm hp, assemble_inj]

/-! ## Commands and rows (R77, R88) -/

/-- The rows stand in the order of the constructors. -/
theorem encode_fits_row : ∀ i : Instr, ∃ r ∈ opcodeMap, r.fits (encode i) = true
  | .wrv rd => ⟨opcodeMap[0], List.getElem_mem _, (fits_D rfl rfl).mpr ⟨rd, rfl⟩⟩
  | .rdv rs1 => ⟨opcodeMap[1], List.getElem_mem _, (fits_S rfl rfl).mpr ⟨rs1, rfl⟩⟩
  | .mov rd rs1 => ⟨opcodeMap[2], List.getElem_mem _, (fits_DS rfl rfl).mpr ⟨rd, rs1, rfl⟩⟩
  | .ldc rd k => ⟨opcodeMap[3], List.getElem_mem _, (fits_DI rfl rfl).mpr ⟨rd, k, rfl⟩⟩
  | .norm rd rs1 rs2 => ⟨opcodeMap[4], List.getElem_mem _, (fits_DSS rfl rfl).mpr ⟨rd, rs1, rs2, rfl⟩⟩
  | .fromi64 rd rs1 => ⟨opcodeMap[5], List.getElem_mem _, (fits_DS rfl rfl).mpr ⟨rd, rs1, rfl⟩⟩
  | .fromi32 rd rs1 => ⟨opcodeMap[6], List.getElem_mem _, (fits_DS rfl rfl).mpr ⟨rd, rs1, rfl⟩⟩
  | .toi64 rd rs1 => ⟨opcodeMap[7], List.getElem_mem _, (fits_DS rfl rfl).mpr ⟨rd, rs1, rfl⟩⟩
  | .toi32 rd rs1 => ⟨opcodeMap[8], List.getElem_mem _, (fits_DS rfl rfl).mpr ⟨rd, rs1, rfl⟩⟩
  | .fromf64 rd rs1 => ⟨opcodeMap[9], List.getElem_mem _, (fits_DS rfl rfl).mpr ⟨rd, rs1, rfl⟩⟩
  | .tof64 rd rs1 => ⟨opcodeMap[10], List.getElem_mem _, (fits_DS rfl rfl).mpr ⟨rd, rs1, rfl⟩⟩
  | .add rd rs1 rs2 => ⟨opcodeMap[11], List.getElem_mem _, (fits_DSS rfl rfl).mpr ⟨rd, rs1, rs2, rfl⟩⟩
  | .sub rd rs1 rs2 => ⟨opcodeMap[12], List.getElem_mem _, (fits_DSS rfl rfl).mpr ⟨rd, rs1, rs2, rfl⟩⟩
  | .mul rd rs1 rs2 => ⟨opcodeMap[13], List.getElem_mem _, (fits_DSS rfl rfl).mpr ⟨rd, rs1, rs2, rfl⟩⟩
  | .div rd rs1 rs2 => ⟨opcodeMap[14], List.getElem_mem _, (fits_DSS rfl rfl).mpr ⟨rd, rs1, rs2, rfl⟩⟩
  | .muldiv rd rs1 rs2 rs3 => ⟨opcodeMap[15], List.getElem_mem _, (fits_DSSS rfl rfl).mpr ⟨rd, rs1, rs2, rs3, rfl⟩⟩
  | .divint rd rs1 rs2 => ⟨opcodeMap[16], List.getElem_mem _, (fits_DSS rfl rfl).mpr ⟨rd, rs1, rs2, rfl⟩⟩
  | .rem rd rs1 rs2 => ⟨opcodeMap[17], List.getElem_mem _, (fits_DSS rfl rfl).mpr ⟨rd, rs1, rs2, rfl⟩⟩
  | .divrem rd rd2 rs1 rs2 => ⟨opcodeMap[18], List.getElem_mem _, (fits_DDSS rfl rfl).mpr ⟨rd, rd2, rs1, rs2, rfl⟩⟩
  | .neg rd rs1 => ⟨opcodeMap[19], List.getElem_mem _, (fits_DS rfl rfl).mpr ⟨rd, rs1, rfl⟩⟩
  | .abs rd rs1 => ⟨opcodeMap[20], List.getElem_mem _, (fits_DS rfl rfl).mpr ⟨rd, rs1, rfl⟩⟩
  | .shl rd rs1 rs2 => ⟨opcodeMap[21], List.getElem_mem _, (fits_DSS rfl rfl).mpr ⟨rd, rs1, rs2, rfl⟩⟩
  | .shr rd rs1 rs2 => ⟨opcodeMap[22], List.getElem_mem _, (fits_DSS rfl rfl).mpr ⟨rd, rs1, rs2, rfl⟩⟩
  | .min rd rs1 rs2 => ⟨opcodeMap[23], List.getElem_mem _, (fits_DSS rfl rfl).mpr ⟨rd, rs1, rs2, rfl⟩⟩
  | .max rd rs1 rs2 => ⟨opcodeMap[24], List.getElem_mem _, (fits_DSS rfl rfl).mpr ⟨rd, rs1, rs2, rfl⟩⟩
  | .floor rd rs1 => ⟨opcodeMap[25], List.getElem_mem _, (fits_DS rfl rfl).mpr ⟨rd, rs1, rfl⟩⟩
  | .round rd rs1 => ⟨opcodeMap[26], List.getElem_mem _, (fits_DS rfl rfl).mpr ⟨rd, rs1, rfl⟩⟩
  | .roundto rd rs1 rs2 => ⟨opcodeMap[27], List.getElem_mem _, (fits_DSS rfl rfl).mpr ⟨rd, rs1, rs2, rfl⟩⟩
  | .cmp rd rs1 rs2 => ⟨opcodeMap[28], List.getElem_mem _, (fits_DSS rfl rfl).mpr ⟨rd, rs1, rs2, rfl⟩⟩
  | .eq rd rs1 rs2 => ⟨opcodeMap[29], List.getElem_mem _, (fits_DSS rfl rfl).mpr ⟨rd, rs1, rs2, rfl⟩⟩
  | .lt rd rs1 rs2 => ⟨opcodeMap[30], List.getElem_mem _, (fits_DSS rfl rfl).mpr ⟨rd, rs1, rs2, rfl⟩⟩
  | .gt rd rs1 rs2 => ⟨opcodeMap[31], List.getElem_mem _, (fits_DSS rfl rfl).mpr ⟨rd, rs1, rs2, rfl⟩⟩
  | .approx rd rs1 rs2 k => ⟨opcodeMap[32], List.getElem_mem _, (fits_DSSI rfl rfl).mpr ⟨rd, rs1, rs2, k, rfl⟩⟩
  | .log2 rd rs1 => ⟨opcodeMap[33], List.getElem_mem _, (fits_DS rfl rfl).mpr ⟨rd, rs1, rfl⟩⟩
  | .log2i rd rs1 => ⟨opcodeMap[34], List.getElem_mem _, (fits_DS rfl rfl).mpr ⟨rd, rs1, rfl⟩⟩
  | .pow2 rd rs1 => ⟨opcodeMap[35], List.getElem_mem _, (fits_DS rfl rfl).mpr ⟨rd, rs1, rfl⟩⟩
  | .pow rd rs1 rs2 => ⟨opcodeMap[36], List.getElem_mem _, (fits_DSS rfl rfl).mpr ⟨rd, rs1, rs2, rfl⟩⟩
  | .pow10 rd rs1 => ⟨opcodeMap[37], List.getElem_mem _, (fits_DS rfl rfl).mpr ⟨rd, rs1, rfl⟩⟩
  | .rdcsr k => ⟨opcodeMap[38], List.getElem_mem _, (fits_I rfl rfl).mpr ⟨k, rfl⟩⟩
  | .clrf => ⟨opcodeMap[39], List.getElem_mem _, (fits_N rfl rfl).mpr rfl⟩
  | .nop => ⟨opcodeMap[40], List.getElem_mem _, (fits_N rfl rfl).mpr rfl⟩

theorem bind_requireLegal_eq_ok {x : Except Reject Instr} {why : Reject} (h : (x >>= requireLegal why) = .ok i) :
    x = .ok i ∧ WellFormed i = true := by
  cases x with
  | ok j =>
    obtain ⟨hwf, rfl⟩ := requireLegal_eq_ok.mp h
    exact ⟨rfl, hwf⟩
  | error e => cases h

/-- The opcode selects the command, and its form accounts for every other bit. -/
theorem wellFormed_encode_of_decode (h : decode c = .ok i) : WellFormed i = true ∧ encode i = c := by
  unfold decode at h
  split at h
  case h_1 hop =>
    obtain ⟨hc, rfl⟩ := formD_eq_ok h
    exact ⟨rfl, (hop ▸ hc).symm⟩
  case h_2 hop =>
    obtain ⟨hc, rfl⟩ := formS_eq_ok h
    exact ⟨rfl, (hop ▸ hc).symm⟩
  case h_3 hop | h_6 hop | h_7 hop | h_8 hop | h_9 hop | h_10 hop | h_11 hop | h_20 hop | h_21 hop | h_26 hop |
    h_27 hop | h_34 hop | h_35 hop | h_36 hop | h_38 hop =>
    obtain ⟨hc, rfl⟩ := formDS_eq_ok h
    exact ⟨rfl, (hop ▸ hc).symm⟩
  case h_4 hop =>
    obtain ⟨hform, hwf⟩ := bind_requireLegal_eq_ok h
    obtain ⟨hc, rfl⟩ := formDI_eq_ok hform
    exact ⟨hwf, (hop ▸ hc).symm⟩
  case h_5 hop | h_12 hop | h_13 hop | h_14 hop | h_15 hop | h_17 hop | h_18 hop | h_22 hop | h_23 hop | h_24 hop |
    h_25 hop | h_28 hop | h_29 hop | h_30 hop | h_31 hop | h_32 hop | h_37 hop =>
    obtain ⟨hc, rfl⟩ := formDSS_eq_ok h
    exact ⟨rfl, (hop ▸ hc).symm⟩
  case h_16 hop =>
    obtain ⟨hc, rfl⟩ := formDSSS_eq_ok h
    exact ⟨rfl, (hop ▸ hc).symm⟩
  case h_19 hop =>
    obtain ⟨hform, hwf⟩ := bind_requireLegal_eq_ok h
    obtain ⟨hc, rfl⟩ := formDDSS_eq_ok hform
    exact ⟨hwf, (hop ▸ hc).symm⟩
  case h_33 hop =>
    obtain ⟨hform, hwf⟩ := bind_requireLegal_eq_ok h
    obtain ⟨hc, rfl⟩ := formDSSI_eq_ok hform
    exact ⟨hwf, (hop ▸ hc).symm⟩
  case h_39 hop =>
    obtain ⟨hform, hwf⟩ := bind_requireLegal_eq_ok h
    obtain ⟨hc, rfl⟩ := formI_eq_ok hform
    exact ⟨hwf, (hop ▸ hc).symm⟩
  case h_40 hop | h_41 hop =>
    obtain ⟨hc, rfl⟩ := formN_eq_ok h
    exact ⟨rfl, (hop ▸ hc).symm⟩
  case h_42 => cases h

theorem exists_encode_of_fits : ∀ r ∈ opcodeMap, r.fits c = true → ∃ i, encode i = c := by
  simp only [opcodeMap, List.forall_mem_cons]
  exact ⟨fun h => let ⟨rd, e⟩ := (fits_D rfl rfl).mp h; ⟨.wrv rd, e.symm⟩,
    fun h => let ⟨rs1, e⟩ := (fits_S rfl rfl).mp h; ⟨.rdv rs1, e.symm⟩,
    fun h => let ⟨rd, rs1, e⟩ := (fits_DS rfl rfl).mp h; ⟨.mov rd rs1, e.symm⟩,
    fun h => let ⟨rd, k, e⟩ := (fits_DI rfl rfl).mp h; ⟨.ldc rd k, e.symm⟩,
    fun h => let ⟨rd, rs1, rs2, e⟩ := (fits_DSS rfl rfl).mp h; ⟨.norm rd rs1 rs2, e.symm⟩,
    fun h => let ⟨rd, rs1, e⟩ := (fits_DS rfl rfl).mp h; ⟨.fromi64 rd rs1, e.symm⟩,
    fun h => let ⟨rd, rs1, e⟩ := (fits_DS rfl rfl).mp h; ⟨.fromi32 rd rs1, e.symm⟩,
    fun h => let ⟨rd, rs1, e⟩ := (fits_DS rfl rfl).mp h; ⟨.toi64 rd rs1, e.symm⟩,
    fun h => let ⟨rd, rs1, e⟩ := (fits_DS rfl rfl).mp h; ⟨.toi32 rd rs1, e.symm⟩,
    fun h => let ⟨rd, rs1, e⟩ := (fits_DS rfl rfl).mp h; ⟨.fromf64 rd rs1, e.symm⟩,
    fun h => let ⟨rd, rs1, e⟩ := (fits_DS rfl rfl).mp h; ⟨.tof64 rd rs1, e.symm⟩,
    fun h => let ⟨rd, rs1, rs2, e⟩ := (fits_DSS rfl rfl).mp h; ⟨.add rd rs1 rs2, e.symm⟩,
    fun h => let ⟨rd, rs1, rs2, e⟩ := (fits_DSS rfl rfl).mp h; ⟨.sub rd rs1 rs2, e.symm⟩,
    fun h => let ⟨rd, rs1, rs2, e⟩ := (fits_DSS rfl rfl).mp h; ⟨.mul rd rs1 rs2, e.symm⟩,
    fun h => let ⟨rd, rs1, rs2, e⟩ := (fits_DSS rfl rfl).mp h; ⟨.div rd rs1 rs2, e.symm⟩,
    fun h => let ⟨rd, rs1, rs2, rs3, e⟩ := (fits_DSSS rfl rfl).mp h; ⟨.muldiv rd rs1 rs2 rs3, e.symm⟩,
    fun h => let ⟨rd, rs1, rs2, e⟩ := (fits_DSS rfl rfl).mp h; ⟨.divint rd rs1 rs2, e.symm⟩,
    fun h => let ⟨rd, rs1, rs2, e⟩ := (fits_DSS rfl rfl).mp h; ⟨.rem rd rs1 rs2, e.symm⟩,
    fun h => let ⟨rd, rd2, rs1, rs2, e⟩ := (fits_DDSS rfl rfl).mp h; ⟨.divrem rd rd2 rs1 rs2, e.symm⟩,
    fun h => let ⟨rd, rs1, e⟩ := (fits_DS rfl rfl).mp h; ⟨.neg rd rs1, e.symm⟩,
    fun h => let ⟨rd, rs1, e⟩ := (fits_DS rfl rfl).mp h; ⟨.abs rd rs1, e.symm⟩,
    fun h => let ⟨rd, rs1, rs2, e⟩ := (fits_DSS rfl rfl).mp h; ⟨.shl rd rs1 rs2, e.symm⟩,
    fun h => let ⟨rd, rs1, rs2, e⟩ := (fits_DSS rfl rfl).mp h; ⟨.shr rd rs1 rs2, e.symm⟩,
    fun h => let ⟨rd, rs1, rs2, e⟩ := (fits_DSS rfl rfl).mp h; ⟨.min rd rs1 rs2, e.symm⟩,
    fun h => let ⟨rd, rs1, rs2, e⟩ := (fits_DSS rfl rfl).mp h; ⟨.max rd rs1 rs2, e.symm⟩,
    fun h => let ⟨rd, rs1, e⟩ := (fits_DS rfl rfl).mp h; ⟨.floor rd rs1, e.symm⟩,
    fun h => let ⟨rd, rs1, e⟩ := (fits_DS rfl rfl).mp h; ⟨.round rd rs1, e.symm⟩,
    fun h => let ⟨rd, rs1, rs2, e⟩ := (fits_DSS rfl rfl).mp h; ⟨.roundto rd rs1 rs2, e.symm⟩,
    fun h => let ⟨rd, rs1, rs2, e⟩ := (fits_DSS rfl rfl).mp h; ⟨.cmp rd rs1 rs2, e.symm⟩,
    fun h => let ⟨rd, rs1, rs2, e⟩ := (fits_DSS rfl rfl).mp h; ⟨.eq rd rs1 rs2, e.symm⟩,
    fun h => let ⟨rd, rs1, rs2, e⟩ := (fits_DSS rfl rfl).mp h; ⟨.lt rd rs1 rs2, e.symm⟩,
    fun h => let ⟨rd, rs1, rs2, e⟩ := (fits_DSS rfl rfl).mp h; ⟨.gt rd rs1 rs2, e.symm⟩,
    fun h => let ⟨rd, rs1, rs2, k, e⟩ := (fits_DSSI rfl rfl).mp h; ⟨.approx rd rs1 rs2 k, e.symm⟩,
    fun h => let ⟨rd, rs1, e⟩ := (fits_DS rfl rfl).mp h; ⟨.log2 rd rs1, e.symm⟩,
    fun h => let ⟨rd, rs1, e⟩ := (fits_DS rfl rfl).mp h; ⟨.log2i rd rs1, e.symm⟩,
    fun h => let ⟨rd, rs1, e⟩ := (fits_DS rfl rfl).mp h; ⟨.pow2 rd rs1, e.symm⟩,
    fun h => let ⟨rd, rs1, rs2, e⟩ := (fits_DSS rfl rfl).mp h; ⟨.pow rd rs1 rs2, e.symm⟩,
    fun h => let ⟨rd, rs1, e⟩ := (fits_DS rfl rfl).mp h; ⟨.pow10 rd rs1, e.symm⟩,
    fun h => let ⟨k, e⟩ := (fits_I rfl rfl).mp h; ⟨.rdcsr k, e.symm⟩,
    fun h => let e := (fits_N rfl rfl).mp h; ⟨.clrf, e.symm⟩,
    fun h => let e := (fits_N rfl rfl).mp h; ⟨.nop, e.symm⟩,
    nofun⟩

/-- The checks of `imm8` and of the destinations of DIVREM on a word (R76, R79). -/
def OperandChecks (c : CmdWord) : Prop :=
  (c.opcode = 0x04#8 → c.imm8.toNat ≤ 6 ∨ (32 ≤ c.imm8.toNat ∧ c.imm8.toNat ≤ 61)) ∧
    (c.opcode = 0x2C#8 → 1 ≤ c.imm8.toNat ∧ c.imm8.toNat ≤ 31) ∧ (c.opcode = 0x38#8 → c.imm8.toNat ≤ 3) ∧
    (c.opcode = 0x17#8 → CmdWord.rd c ≠ CmdWord.rs3 c)

theorem operandChecks_encode (i : Instr) : OperandChecks (encode i) ↔ WellFormed i = true := by
  cases i <;> simp [OperandChecks, encode, WellFormed, Imm8.legalConst, Imm8.legalBits, Imm8.legalCsr]

end Forms

/-! ## The statements -/

/-- Settles O1, by the round trip of each constructor. -/
theorem decodeOfEncodeIsTheCommand : Obligations.DecodeOfEncodeIsTheCommand
  | .wrv rd => Laws.RoundTrip.wrv rd
  | .rdv rs1 => Laws.RoundTrip.rdv rs1
  | .mov rd rs1 => Laws.RoundTrip.mov rd rs1
  | .ldc rd k => Laws.RoundTrip.ldc rd k
  | .norm rd rs1 rs2 => Laws.RoundTrip.norm rd rs1 rs2
  | .fromi64 rd rs1 => Laws.RoundTrip.fromi64 rd rs1
  | .fromi32 rd rs1 => Laws.RoundTrip.fromi32 rd rs1
  | .toi64 rd rs1 => Laws.RoundTrip.toi64 rd rs1
  | .toi32 rd rs1 => Laws.RoundTrip.toi32 rd rs1
  | .fromf64 rd rs1 => Laws.RoundTrip.fromf64 rd rs1
  | .tof64 rd rs1 => Laws.RoundTrip.tof64 rd rs1
  | .add rd rs1 rs2 => Laws.RoundTrip.add rd rs1 rs2
  | .sub rd rs1 rs2 => Laws.RoundTrip.sub rd rs1 rs2
  | .mul rd rs1 rs2 => Laws.RoundTrip.mul rd rs1 rs2
  | .div rd rs1 rs2 => Laws.RoundTrip.div rd rs1 rs2
  | .muldiv rd rs1 rs2 rs3 => Laws.RoundTrip.muldiv rd rs1 rs2 rs3
  | .divint rd rs1 rs2 => Laws.RoundTrip.divint rd rs1 rs2
  | .rem rd rs1 rs2 => Laws.RoundTrip.rem rd rs1 rs2
  | .divrem rd rd2 rs1 rs2 => Laws.RoundTrip.divrem rd rd2 rs1 rs2
  | .neg rd rs1 => Laws.RoundTrip.neg rd rs1
  | .abs rd rs1 => Laws.RoundTrip.abs rd rs1
  | .shl rd rs1 rs2 => Laws.RoundTrip.shl rd rs1 rs2
  | .shr rd rs1 rs2 => Laws.RoundTrip.shr rd rs1 rs2
  | .min rd rs1 rs2 => Laws.RoundTrip.min rd rs1 rs2
  | .max rd rs1 rs2 => Laws.RoundTrip.max rd rs1 rs2
  | .floor rd rs1 => Laws.RoundTrip.floor rd rs1
  | .round rd rs1 => Laws.RoundTrip.round rd rs1
  | .roundto rd rs1 rs2 => Laws.RoundTrip.roundto rd rs1 rs2
  | .cmp rd rs1 rs2 => Laws.RoundTrip.cmp rd rs1 rs2
  | .eq rd rs1 rs2 => Laws.RoundTrip.eq rd rs1 rs2
  | .lt rd rs1 rs2 => Laws.RoundTrip.lt rd rs1 rs2
  | .gt rd rs1 rs2 => Laws.RoundTrip.gt rd rs1 rs2
  | .approx rd rs1 rs2 k => Laws.RoundTrip.approx rd rs1 rs2 k
  | .log2 rd rs1 => Laws.RoundTrip.log2 rd rs1
  | .log2i rd rs1 => Laws.RoundTrip.log2i rd rs1
  | .pow2 rd rs1 => Laws.RoundTrip.pow2 rd rs1
  | .pow rd rs1 rs2 => Laws.RoundTrip.pow rd rs1 rs2
  | .pow10 rd rs1 => Laws.RoundTrip.pow10 rd rs1
  | .rdcsr k => Laws.RoundTrip.rdcsr k
  | .clrf => Laws.RoundTrip.clrf
  | .nop => Laws.RoundTrip.nop

/-- Settles O2. -/
theorem encodeOfDecodeIsTheWord : Obligations.EncodeOfDecodeIsTheWord :=
  fun _ _ => wellFormed_encode_of_decode

theorem exists_decode_iff (c : CmdWord) :
    (∃ i, decode c = .ok i) ↔ (∃ r ∈ opcodeMap, r.fits c = true) ∧ OperandChecks c := by
  constructor
  · rintro ⟨i, h⟩
    obtain ⟨hwf, rfl⟩ := wellFormed_encode_of_decode h
    exact ⟨encode_fits_row i, (operandChecks_encode i).mpr hwf⟩
  · rintro ⟨⟨r, hr, hfit⟩, hchecks⟩
    obtain ⟨i, rfl⟩ := exists_encode_of_fits r hr hfit
    exact ⟨i, decodeOfEncodeIsTheCommand i ((operandChecks_encode i).mp hchecks)⟩

/-- Every row fixes the whole opcode, and no two rows the same one. -/
theorem opcodeMap_opcodes :
    (∀ r ∈ opcodeMap, r.mask.opcode = 255) ∧ (opcodeMap.map fun r => r.pattern.opcode).Nodup := by
  decide

theorem pattern_opcode_of_fits {r : OpcodeRow} {c : CmdWord} (hr : r ∈ opcodeMap) (h : r.fits c = true) :
    r.pattern.opcode = c.opcode := by
  obtain ⟨op, a, b, d, e, k, rfl⟩ := exists_assemble c
  rw [OpcodeRow.fits, beq_iff_eq, ← assemble_fields r.mask, assemble_and, opcodeMap_opcodes.1 r hr] at h
  simp [← h]

/-- Settles O3: a row is known by its opcode, which is the word's. -/
theorem legalWordsAreTheRowsOfTheMap : Obligations.LegalWordsAreTheRowsOfTheMap := by
  refine ⟨exists_decode_iff, fun c r r' hr hr' h h' => ?_⟩
  exact List.inj_on_of_nodup_map opcodeMap_opcodes.2 hr hr'
    ((pattern_opcode_of_fits hr h).trans (pattern_opcode_of_fits hr' h').symm)

/-- Settles O4. -/
theorem sampleWordsDecode : Obligations.SampleWordsDecode := by
  unfold Obligations.SampleWordsDecode
  decide

end Sys2Proof
end

section
/-! PROOFS. The normalizer answers the canonical floor of a value, and the value alone decides it (spec/40_codec.md R100,
R102). The idea is that a value has at most one canonical floor, in range or not: the exponent is that of its binade, and
the significand is then its floor. The conversions from integers and doubles are uses of it (R101, R120, R121, R130). -/

namespace Sys2Proof.Machine

variable {S E S' E' : Int} {w : Word} {x : ℚ}

/-! ## Canonical floors -/

/-- The significand `s`, in canonical position, is the floor of `x` at the exponent `e`. -/
structure CanonFloor (x : ℚ) (s e : Int) : Prop where
  position : (2 ^ 30 ≤ s ∧ s < 2 ^ 31) ∨ (-2 ^ 31 ≤ s ∧ s < -2 ^ 30)
  le : (s : ℚ) * 2 ^ e ≤ x
  lt : x < ((s + 1 : Int) : ℚ) * 2 ^ e

/-- The binade of the value names the exponent. -/
theorem CanonFloor.binade {s e : Int} (h : CanonFloor x s e) :
    (2 ^ (e + 30) ≤ x ∧ x < 2 ^ (e + 31)) ∨ (-2 ^ (e + 31) ≤ x ∧ x < -2 ^ (e + 30)) := by
  have scale {a b : Int} (hab : a ≤ b) : (a : ℚ) * 2 ^ e ≤ b * 2 ^ e :=
    mul_le_mul_of_nonneg_right (Int.cast_le.mpr hab) (by positivity)
  have h30 := two_zpow_add e 30
  have h31 := two_zpow_add e 31
  push_cast at h30 h31
  rw [h30, h31, ← neg_mul, ← neg_mul]
  rcases h.position with ⟨hlo, hhi⟩ | ⟨hlo, hhi⟩
  · exact .inl ⟨by simpa using (scale hlo).trans h.le, h.lt.trans_le (by simpa using scale (Int.add_one_le_iff.mpr hhi))⟩
  · exact .inr ⟨by simpa using (scale hlo).trans h.le, h.lt.trans_le (by simpa using scale (Int.add_one_le_iff.mpr hhi))⟩

theorem CanonFloor.not_expo_lt {s e s' e' : Int} (h : CanonFloor x s e) (h' : CanonFloor x s' e') : ¬ e < e' := by
  intro he
  have gap := binade_le_of_lt he
  have hpos : (0 : ℚ) < 2 ^ (e + 30) := by positivity
  have hpos' : (0 : ℚ) < 2 ^ (e' + 30) := by positivity
  rcases h.binade with ⟨hlo, hhi⟩ | ⟨hlo, hhi⟩ <;> rcases h'.binade with ⟨hlo', hhi'⟩ | ⟨hlo', hhi'⟩ <;> linarith

theorem CanonFloor.unique {s e s' e' : Int} (h : CanonFloor x s e) (h' : CanonFloor x s' e') : s = s' ∧ e = e' := by
  obtain rfl : e = e' := le_antisymm (not_lt.mp (h'.not_expo_lt h)) (not_lt.mp (h.not_expo_lt h'))
  have below {a b : Int} (hab : (a : ℚ) * 2 ^ e < (b + 1 : Int) * 2 ^ e) : a ≤ b :=
    Int.lt_add_one_iff.mp (Int.cast_lt.mp (lt_of_mul_lt_mul_right hab (by positivity)))
  exact ⟨le_antisymm (below (h.le.trans_lt h'.lt)) (below (h'.le.trans_lt h.lt)), rfl⟩

/-- A canonical word other than zero is the floor of what lies within one unit of its last place. -/
theorem canonFloor_word_iff (hw : isCanon w = true) (hs : sig w ≠ 0) :
    CanonFloor x (sig w) (expo w) ↔ val w ≤ x ∧ x < val w + 2 ^ expo w := by
  have hlt : ((sig w + 1 : Int) : ℚ) * 2 ^ expo w = val w + 2 ^ expo w := by rw [val]; push_cast; ring
  exact ⟨fun h => ⟨h.le, hlt ▸ h.lt⟩, fun ⟨hle, h⟩ => ⟨canonical_sig hw hs, hle, hlt ▸ h⟩⟩

/-- A right shift cuts toward minus infinity and a left shift loses nothing (R100). -/
theorem canonFloor_norm (h : S ≠ 0) (E : Int) : CanonFloor (S * 2 ^ E) (normSig S) (normExp S E) := by
  have hpos : (0 : ℚ) < 2 ^ E := by positivity
  rcases le_or_gt (normShift S) 0 with hleft | hright
  · have hexact := normSig_mul_two_zpow hleft E
    refine ⟨normSig_range h, hexact.le, hexact.symm.trans_lt ?_⟩
    exact mul_lt_mul_of_pos_right (by push_cast; linarith) (by positivity)
  · obtain ⟨k, hk⟩ : ∃ k : Nat, normShift S = k := ⟨(normShift S).toNat, by omega⟩
    have hk0 : (0 : Int) < 2 ^ k := by positivity
    have hsig : normSig S = S / 2 ^ k := by rw [normSig, hk, if_pos (by omega), Int.toNat_natCast, shiftFloor_eq_div]
    have hexp (z : Int) : (z : ℚ) * 2 ^ normExp S E = ((z * 2 ^ k : Int) : ℚ) * 2 ^ E := by
      rw [normExp, hk, two_zpow_add]; push_cast; ring
    refine ⟨normSig_range h, ?_, ?_⟩ <;> rw [hexp, hsig]
    · exact mul_le_mul_of_nonneg_right (Int.cast_le.mpr (Int.ediv_mul_le _ hk0.ne')) hpos.le
    · exact mul_lt_mul_of_pos_right (Int.cast_lt.mpr (Int.lt_ediv_add_one_mul_self _ hk0)) hpos

/-! ## What the normalizer answers, by value -/

theorem mul_two_zpow_eq_zero_iff : (S : ℚ) * 2 ^ E = 0 ↔ S = 0 := by simp [zpow_ne_zero]

theorem normalize_of_ne_zero (h : S ≠ 0) : normalize S E =
    if expMin ≤ normExp S E ∧ normExp S E ≤ expMax then .ok (pack (normSig S) (normExp S E))
    else .error .overflow := by
  simp only [normalize, fits_iff h, normWord, if_neg h]

/-- The floor property of R102, zero included. -/
theorem normalize_floor (h : normalize S E = .ok w) : val w ≤ (S : ℚ) * 2 ^ E ∧ (S : ℚ) * 2 ^ E < val w + 2 ^ expo w := by
  obtain ⟨hf, rfl⟩ := normalize_eq_ok h
  by_cases h0 : S = 0
  · subst h0
    simp
  · have hs : sig (normWord S E) ≠ 0 := by rw [sig_normWord h0]; have := normSig_range h0; omega
    rw [← canonFloor_word_iff (isCanon_normWord hf) hs, sig_normWord h0, expo_normWord h0 hf]
    exact canonFloor_norm h0 E

/-- A canonical floor other than zero is what the normalizer answers. -/
theorem normalize_of_floor (hw : isCanon w = true) (hs : sig w ≠ 0) (hle : val w ≤ (S : ℚ) * 2 ^ E)
    (hlt : (S : ℚ) * 2 ^ E < val w + 2 ^ expo w) : normalize S E = .ok w := by
  have hfloor := (canonFloor_word_iff hw hs).mpr ⟨hle, hlt⟩
  have h0 : S ≠ 0 := by
    rintro rfl
    rcases hfloor.binade with ⟨hlo, _⟩ | ⟨_, hhi⟩
    · have : (0 : ℚ) < 2 ^ (expo w + 30) := by positivity
      simp at hlo; linarith
    · have : (0 : ℚ) < 2 ^ (expo w + 30) := by positivity
      simp at hhi; linarith
  obtain ⟨hsig, hexp⟩ := (canonFloor_norm h0 E).unique hfloor
  have hf : fits S E = true := by rw [fits_iff h0, hexp]; exact (canon_ranges hw hs).2
  rw [normalize_of_fits hf, normWord, if_neg h0, hsig, hexp, pack_sig_expo]

/-- A value that a canonical word has is normalized to that word. -/
theorem normalize_of_val_eq (hw : isCanon w = true) (h : val w = (S : ℚ) * 2 ^ E) : normalize S E = .ok w := by
  by_cases hs : sig w = 0
  · have h0 : S = 0 := mul_two_zpow_eq_zero_iff.mp (h ▸ (val_eq_zero_iff w).mpr hs)
    rw [h0, normalize_zero, eq_zero_of_canon hw hs]
  · have : (0 : ℚ) < 2 ^ expo w := by positivity
    exact normalize_of_floor hw hs h.le (by linarith)

/-- The pair matters through its value alone, faults included. -/
theorem normalize_congr (h : (S : ℚ) * 2 ^ E = S' * 2 ^ E') : normalize S E = normalize S' E' := by
  have hzero : S = 0 ↔ S' = 0 := by rw [← mul_two_zpow_eq_zero_iff, h, mul_two_zpow_eq_zero_iff]
  by_cases h0 : S = 0
  · rw [h0, hzero.mp h0, normalize_zero, normalize_zero]
  · have h0' : S' ≠ 0 := mt hzero.mpr h0
    obtain ⟨hsig, hexp⟩ := (canonFloor_norm h0 E).unique (h ▸ canonFloor_norm h0' E')
    rw [normalize_of_ne_zero h0, normalize_of_ne_zero h0', hsig, hexp]

theorem normalize_canon (hw : isCanon w = true) : normalize (sig w) (expo w) = .ok w := normalize_of_val_eq hw rfl

/-- Bounds on the significand bound the shift, so a moderate exponent cannot overflow (R102 item 5). -/
theorem fits_of_bounds (n : Nat) (hn : 0 < n) (h₁ : -2 ^ n ≤ S) (h₂ : S < 2 ^ n) (hlo : expMin + 31 ≤ E)
    (hhi : E + n - 31 ≤ expMax) : fits S E = true := by
  by_cases h0 : S = 0
  · rw [h0, fits_zero]
  · have := normShift_ge S
    have := normShift_le h₁ h₂ hn
    rw [fits_iff h0, normExp]
    omega

/-- A left shift loses nothing: the word has the value. -/
theorem val_normWord (hshift : normShift S ≤ 0) (hf : fits S E = true) : val (normWord S E) = (S : ℚ) * 2 ^ E := by
  by_cases h0 : S = 0
  · simp [h0]
  · rw [val, sig_normWord h0, expo_normWord h0 hf, normSig_mul_two_zpow hshift]

/-! ## Integers and doubles -/

/-- A signed 32-bit integer is normalized exactly (R121). -/
theorem normalize_int32 (h₁ : -2 ^ 31 ≤ S) (h₂ : S < 2 ^ 31) :
    ∃ w, normalize S 0 = .ok w ∧ isCanon w = true ∧ val w = S := by
  have hf : fits S 0 = true := fits_of_bounds 31 (by norm_num) h₁ h₂ (by decide) (by decide)
  have hshift : normShift S ≤ 0 := by simpa using normShift_le (n := 31) h₁ h₂ (by norm_num)
  exact ⟨_, normalize_of_fits hf, isCanon_normWord hf, by simpa using val_normWord hshift hf⟩

theorem fits_int64 (v : Word) : fits (sext64 v) 0 = true :=
  fits_of_bounds 63 (by norm_num) (BitVec.le_toInt v) BitVec.toInt_lt (by decide) (by decide)

theorem expo_normalize_int64 {v : Word} (h0 : sext64 v ≠ 0) :
    -31 ≤ expo (normWord (sext64 v) 0) ∧ expo (normWord (sext64 v) 0) ≤ 32 := by
  have hlo := normShift_ge (sext64 v)
  have hhi := normShift_le (S := sext64 v) (n := 63) (BitVec.le_toInt v) BitVec.toInt_lt (by norm_num)
  rw [expo_normWord h0 (fits_int64 v), normExp]
  omega

theorem f64Mantissa_bounds (d : Word) : -2 ^ 53 ≤ f64Mantissa d ∧ f64Mantissa d < 2 ^ 53 := by
  have hfrac : (f64Fraction d : Int) < 2 ^ 52 := by exact_mod_cast (d.extractLsb' 0 52).isLt
  simp only [f64Mantissa]
  split <;> split <;> omega

theorem fits_double (d : Word) : fits (f64Mantissa d) (f64Exponent d) = true := by
  have hbiased : (f64Biased d : Int) < 2 ^ 11 := by exact_mod_cast (d.extractLsb' 52 11).isLt
  obtain ⟨hlo, hhi⟩ := f64Mantissa_bounds d
  refine fits_of_bounds 53 (by norm_num) hlo hhi ?_ ?_ <;> simp only [f64Exponent, expMin, expMax] <;> split <;> omega

/-! ## The statements -/

/-- Settles O26. -/
theorem normalizeIsTheCanonicalFloor : Obligations.NormalizeIsTheCanonicalFloor := by
  refine fun S E => ⟨fun w h => ⟨canonAnswer_normalize S E w h, ?zero, fun h0 => ⟨?nonzero, normalize_floor h⟩⟩,
    fun c h => ⟨(normalize_eq_error h).2, fun w hw hs ⟨hle, hlt⟩ => ?fault⟩⟩
  case zero =>
    rintro rfl
    rw [normalize_zero] at h
    exact (Except.ok.inj h).symm
  case nonzero =>
    rw [(normalize_eq_ok h).2, sig_normWord h0]
    have := normSig_range h0
    omega
  case fault =>
    rw [normalize_of_floor hw hs hle hlt] at h
    cases h

/-- Settles O27: both pairs of the second part have one value. -/
theorem normalizeDependsOnTheValue : Obligations.NormalizeDependsOnTheValue := by
  refine ⟨fun w hw => normalize_canon hw, fun S E j => normalize_congr ?_⟩
  rw [zpow_sub₀ two_ne_zero, zpow_natCast]
  push_cast
  field_simp

/-- Settles O25. -/
theorem normCompletesOrOverflows : Obligations.NormCompletesOrOverflows :=
  fun s rd rs1 rs2 => writesNormalized_finishWrite s rd (readInt64 s rs1) (readInt64 s rs2)

/-- A command that ends in a normalization that fits completes with its word. -/
theorem finishWrite_normalize (s : State) (rd : Reg) (hf : fits S E = true) :
    finishWrite s rd (normalize S E) = (s.setReg rd (normWord S E)).complete 0 := by
  rw [normalize_of_fits hf, finishWrite_ok]

/-- Settles O28. -/
theorem fromIntegersComplete : Obligations.FromIntegersComplete := by
  intro s rd rs1
  constructor
  · have hf := fits_int64 (s.reg rs1)
    have hfloor := normalize_floor (normalize_of_fits hf)
    rw [zpow_zero, mul_one] at hfloor
    exact ⟨_, congrArg Host.Outcome.next (finishWrite_normalize s rd hf), isCanon_normWord hf, hfloor.1, hfloor.2,
      expo_normalize_int64⟩
  · have hlow : readInt32 s rs1 = ((s.reg rs1).setWidth 32).toInt := by
      rw [readInt32, sext32Low, BitVec.setWidth_eq_extractLsb' (by norm_num)]
    obtain ⟨w, hw, hcanon, hval⟩ := normalize_int32 (S := readInt32 s rs1)
      (by rw [hlow]; exact BitVec.le_toInt _) (by rw [hlow]; exact BitVec.toInt_lt)
    refine ⟨w, ?_, hcanon, by rw [hval, hlow]⟩
    exact congrArg (fun r => Host.Outcome.next (finishWrite s rd r)) hw

/-- Settles O30. -/
theorem fromDoubleCompletesOnFiniteDoubles : Obligations.FromDoubleCompletesOnFiniteDoubles := by
  intro s rd rs1
  refine ⟨fun hfinite => ?_, fun hspecial => ?_⟩
  · have hf := fits_double (s.reg rs1)
    have hd : FROMF64 (s.reg rs1) = normalize (f64Mantissa (s.reg rs1)) (f64Exponent (s.reg rs1)) := if_neg hfinite
    refine ⟨_, congrArg Host.Outcome.next ((congrArg (finishWrite s rd) hd).trans (finishWrite_normalize s rd hf)),
      isCanon_normWord hf, normalize_floor (normalize_of_fits hf)⟩
  · exact congrArg (fun r => Host.Outcome.next (finishWrite s rd r)) (if_pos hspecial)

end Sys2Proof.Machine
end

section
/-! PROOFS. The arithmetic core but for integral division and rounding (spec/41_arithmetic.md R140 to R155, R170 to R173):
addition and subtraction by the exponent difference, products and quotients, negation and the exponent shifts. A result
whose value a canonical word has is that word, which is what the identities and exact results rest on. -/

namespace Sys2Proof.Machine

variable {s : State} {rd rs1 rs2 rs3 : Reg} {i : Instr} {a b c w : Word} {S E : Int}

/-! ## Commands on canonical operands (R78 steps 4 and 5) -/

theorem exec_scaled {f : Word → Except Cause Word} (hi : exec i s = .next (finishWrite s rd (withScaled s rs1 f)))
    (ha : isCanon (s.reg rs1) = true) : exec i s = .next (finishWrite s rd (f (s.reg rs1))) := by
  rw [hi, withScaled_of_canon s rs1 f ha]

theorem exec_scaled₂ {f : Word → Word → Except Cause Word}
    (hi : exec i s = .next (finishWrite s rd (withScaled₂ s rs1 rs2 f))) (ha : isCanon (s.reg rs1) = true)
    (hb : isCanon (s.reg rs2) = true) : exec i s = .next (finishWrite s rd (f (s.reg rs1) (s.reg rs2))) := by
  rw [hi, withScaled₂_of_canon s rs1 rs2 f ha hb]

theorem exec_scaled₃ {f : Word → Word → Word → Except Cause Word}
    (hi : exec i s = .next (finishWrite s rd (withScaled₃ s rs1 rs2 rs3 f))) (ha : isCanon (s.reg rs1) = true)
    (hb : isCanon (s.reg rs2) = true) (hc : isCanon (s.reg rs3) = true) :
    exec i s = .next (finishWrite s rd (f (s.reg rs1) (s.reg rs2) (s.reg rs3))) := by
  rw [hi, withScaled₃_of_canon s rs1 rs2 rs3 f ha hb hc]

/-- A command whose function answers a word completes with it. -/
theorem next_finishWrite_ok {r : Except Cause Word} {o : Outcome} (ho : o = .next (finishWrite s rd r))
    (hr : r = .ok w) : o = .next ((s.setReg rd w).complete 0) := by
  rw [ho, hr, finishWrite_ok]

/-- A command whose function raises a cause takes it. -/
theorem next_finishWrite_error {r : Except Cause Word} {o : Outcome} {k : Cause}
    (ho : o = .next (finishWrite s rd r)) (hr : r = .error k) : o = .next (takeFault k s) := by
  rw [ho, hr, finishWrite_error]

/-- A command whose function is the normalizer's answer writes the normalized word or overflows. -/
theorem writesNormalized_of_eq {r : Except Cause Word} {o : Outcome} (ho : o = .next (finishWrite s rd r))
    (hr : r = normalize S E) : writesNormalized o s rd S E := by
  rw [ho, hr]
  exact writesNormalized_finishWrite s rd S E

/-! ## ADD and SUB, case by case of the exponent difference (R140, R141) -/

theorem ADD_of_above (h : 32 ≤ expo a - expo b) : ADD a b = .ok a := by rw [ADD, if_pos h]

theorem ADD_of_below (h : expo a - expo b ≤ -32) : ADD a b = .ok b := by
  rw [ADD, if_neg (by omega), if_pos h]

theorem ADD_of_aligned_left (h₁ : -32 < expo a - expo b) (h₂ : expo a - expo b < 0) :
    ADD a b = normalize (shiftFloor (sig a) (expo b - expo a).toNat + sig b) (expo b) := by
  rw [ADD, if_neg (by omega), if_neg (by omega), if_neg (by omega), neg_sub]

theorem ADD_comm (a b : Word) : ADD a b = ADD b a := by
  rcases lt_trichotomy (expo a) (expo b) with hlt | heq | hgt
  · by_cases h : expo a - expo b ≤ -32
    · rw [ADD_of_below h, ADD_of_above (by omega)]
    · rw [ADD_of_aligned_left (by omega) (by omega), ADD_of_aligned (by omega) (by omega), add_comm]
  · rw [ADD_of_aligned (by omega) (by omega), ADD_of_aligned (by omega) (by omega), heq]
    simp [shiftFloor, add_comm]
  · by_cases h : 32 ≤ expo a - expo b
    · rw [ADD_of_above h, ADD_of_below (by omega)]
    · rw [ADD_of_aligned (by omega) (by omega), ADD_of_aligned_left (by omega) (by omega), add_comm]

theorem SUB_of_zero (h : sig a = 0) : SUB a b = NEG b := by rw [SUB, if_pos h]

theorem SUB_of_above (h₀ : sig a ≠ 0) (h : 32 ≤ expo a - expo b) : SUB a b = .ok a := by
  rw [SUB, if_neg h₀, if_pos h]

theorem SUB_of_below (h : expo a - expo b ≤ -32) : SUB a b = NEG b := by
  rcases SUB_cases a b with ⟨_, e⟩ | ⟨_, _, _⟩ | ⟨_, _, _, _⟩ | ⟨_, _, _, _⟩
  case inl => exact e
  all_goals omega

theorem SUB_of_aligned_left (h₀ : sig a ≠ 0) (h₁ : -32 < expo a - expo b) (h₂ : expo a - expo b < 0) :
    SUB a b = normalize (shiftFloor (sig a) (expo b - expo a).toNat - sig b) (expo b) := by
  rw [SUB, if_neg h₀, if_neg (by omega), if_neg (by omega), if_neg (by omega), neg_sub]

/-- Settles O33. -/
theorem addCompletesOrOverflows : Obligations.AddCompletesOrOverflows := by
  rintro s rd rs1 rs2 _ _ rfl rfl ha hb
  have hexec := exec_scaled₂ (i := .add rd rs1 rs2) (f := ADD) rfl ha hb
  refine ⟨fun h => next_finishWrite_ok hexec (ADD_of_above h), fun h => next_finishWrite_ok hexec (ADD_of_below h),
    fun h₁ h₂ => writesNormalized_of_eq hexec ?_, fun h₁ h₂ => writesNormalized_of_eq hexec ?_⟩
  · rw [ADD_of_aligned h₁ h₂, shiftFloor_eq_div]
  · rw [ADD_of_aligned_left h₁ h₂, shiftFloor_eq_div]

/-- Settles O34. -/
theorem addIsCommutative : Obligations.AddIsCommutative := ADD_comm

/-- Settles O35. -/
theorem subCompletesOrOverflows : Obligations.SubCompletesOrOverflows := by
  rintro s rd rs1 rs2 _ _ rfl rfl ha hb
  have hexec := exec_scaled₂ (i := .sub rd rs1 rs2) (f := SUB) rfl ha hb
  refine ⟨fun h => writesNormalized_of_eq hexec (SUB_of_zero h),
    fun h₀ h => next_finishWrite_ok hexec (SUB_of_above h₀ h), fun h => writesNormalized_of_eq hexec (SUB_of_below h),
    fun h₀ h₁ h₂ => writesNormalized_of_eq hexec ?_, fun h₀ h₁ h₂ => writesNormalized_of_eq hexec ?_⟩
  · rw [SUB_of_aligned h₀ h₁ h₂, shiftFloor_eq_div]
  · rw [SUB_of_aligned_left h₀ h₁ h₂, shiftFloor_eq_div]

theorem SUB_ZERO (ha : isCanon a = true) : SUB a ZERO = .ok a := by
  by_cases h0 : sig a = 0
  · rw [eq_zero_of_canon ha h0]
    decide
  have hexpo := expo_lt_of_zero isCanon_ZERO ha sig_ZERO h0
  by_cases h : 32 ≤ expo a - expo ZERO
  · exact SUB_of_above h0 h
  · rw [SUB_of_aligned h0 (by omega) (by omega), sig_ZERO, shiftFloor_eq_div, Int.zero_ediv, sub_zero,
      normalize_canon ha]

theorem SUB_self (a : Word) : SUB a a = .ok ZERO := by
  by_cases h0 : sig a = 0
  · rw [SUB_of_zero h0, NEG, h0, neg_zero, normalize_zero]
  · rw [SUB_of_aligned h0 (by omega) (by omega), sub_self]
    simp [shiftFloor]

/-- Settles O36. -/
theorem subtractingZeroOrItself : Obligations.SubtractingZeroOrItself := fun a ha => ⟨SUB_ZERO ha, SUB_self a⟩

/-! ## Products and quotients (R145, R150, R155) -/

theorem DIV_of_ne_zero (h : sig b ≠ 0) : DIV a b = normalize (quotient a b) (expo a - expo b - 32) := by
  rw [DIV, if_neg h]

theorem DIV_of_zero (h : sig b = 0) : DIV a b = .error .divisionByZero := by rw [DIV, if_pos h]

theorem MULDIV_of_ne_zero (h : sig c ≠ 0) :
    MULDIV a b c = normalize ((sig a * sig b).tdiv (sig c)) (expo a + expo b - expo c) := by
  rw [MULDIV, if_neg h]

theorem MULDIV_of_zero (h : sig c = 0) : MULDIV a b c = .error .divisionByZero := by rw [MULDIV, if_pos h]

/-- Settles O38. -/
theorem productsAndQuotientsComplete : Obligations.ProductsAndQuotientsComplete := by
  rintro s rd rs1 rs2 rs3 _ _ _ rfl rfl rfl ha hb
  have hdiv := exec_scaled₂ (i := .div rd rs1 rs2) (f := DIV) rfl ha hb
  have hmuldiv := exec_scaled₃ (i := .muldiv rd rs1 rs2 rs3) (f := MULDIV) rfl ha hb
  exact ⟨writesNormalized_of_eq (exec_scaled₂ (f := MUL) rfl ha hb) rfl,
    fun h => writesNormalized_of_eq hdiv (DIV_of_ne_zero h), fun h => next_finishWrite_error hdiv (DIV_of_zero h),
    fun hc h => writesNormalized_of_eq (hmuldiv hc) (MULDIV_of_ne_zero h),
    fun hc h => next_finishWrite_error (hmuldiv hc) (MULDIV_of_zero h)⟩

theorem MUL_comm (a b : Word) : MUL a b = MUL b a := by rw [MUL, MUL, mul_comm, add_comm]

theorem MUL_ONE (ha : isCanon a = true) : MUL a ONE = .ok a := by
  refine normalize_of_val_eq ha ?_
  rw [sig_ONE, expo_ONE, val, zpow_add₀ two_ne_zero]
  push_cast
  ring

theorem ONE_MUL (ha : isCanon a = true) : MUL ONE a = .ok a := by rw [MUL_comm, MUL_ONE ha]

theorem ZERO_MUL (a : Word) : MUL ZERO a = .ok ZERO := by rw [MUL, sig_ZERO, zero_mul, normalize_zero]

theorem DIV_ONE (ha : isCanon a = true) : DIV a ONE = .ok a := by
  have hq : quotient a ONE = sig a * 4 := by
    rw [quotient, sig_ONE, show sig a * 2 ^ 32 = sig a * 4 * 2 ^ 30 by ring, Int.mul_tdiv_cancel _ (by norm_num)]
  rw [DIV_of_ne_zero (by decide), hq]
  refine normalize_of_val_eq ha ?_
  rw [expo_ONE, val, show expo a - -30 - 32 = expo a + -2 by ring, zpow_add₀ two_ne_zero]
  push_cast
  ring

theorem DIV_self (h : sig a ≠ 0) : DIV a a = .ok ONE := by
  rw [DIV_of_ne_zero h, quotient, Int.mul_tdiv_cancel_left _ h, sub_self]
  decide

theorem ZERO_DIV (h : sig a ≠ 0) : DIV ZERO a = .ok ZERO := by
  rw [DIV_of_ne_zero h, quotient, sig_ZERO, zero_mul, Int.zero_tdiv, normalize_zero]

/-- Settles O39. -/
theorem multiplicativeIdentities : Obligations.MultiplicativeIdentities := fun a b ha =>
  ⟨MUL_comm a b, MUL_ONE ha, ZERO_MUL a, DIV_ONE ha, fun h => ⟨DIV_self h, ZERO_DIV h⟩⟩

/-! ## Negation (R170, R171) -/

/-- The two operands at the ends of the exponent range whose negations have no word. -/
def NegOverflows (a : Word) : Prop := (sig a = -2 ^ 31 ∧ expo a = expMax) ∨ (sig a = 2 ^ 30 ∧ expo a = expMin)

/-- The negation of a canonical word has a word: `-2^31` moves one binade up, `2^30` one binade down. -/
theorem exists_neg_word (ha : isCanon a = true) (h : ¬ NegOverflows a) : ∃ w, isCanon w = true ∧ val w = -val a := by
  by_cases h0 : sig a = 0
  · exact ⟨ZERO, isCanon_ZERO, by rw [val_ZERO, (val_eq_zero_iff a).mpr h0, neg_zero]⟩
  obtain ⟨_, hmin, hmax⟩ := canon_ranges ha h0
  have hpos := canonical_sig ha h0
  have hrange := expo_ge a
  have hrange' := expo_lt a
  rw [NegOverflows, expMin, expMax] at h
  rw [expMin] at hmin
  rw [expMax] at hmax
  by_cases hlow : sig a = -2 ^ 31
  · refine ⟨pack (2 ^ 30) (expo a + 1), isCanon_pack (by norm_num) (by rw [expMin]; omega) (by rw [expMax]; omega), ?_⟩
    rw [val_pack (by norm_num) (by norm_num) (by omega) (by omega), val, hlow, zpow_add₀ two_ne_zero]
    push_cast
    ring
  by_cases hhigh : sig a = 2 ^ 30
  · refine ⟨pack (-2 ^ 31) (expo a - 1), isCanon_pack (by norm_num) (by rw [expMin]; omega) (by rw [expMax]; omega), ?_⟩
    rw [val_pack (by norm_num) (by norm_num) (by omega) (by omega), val, hhigh, zpow_sub₀ two_ne_zero]
    push_cast
    ring
  · refine ⟨pack (-sig a) (expo a), isCanon_pack (by omega) (by rw [expMin]; omega) (by rw [expMax]; omega), ?_⟩
    rw [val_pack (by omega) (by omega) (by omega) (by omega), val]
    push_cast
    ring

/-- A canonical word of the negated value is the negation. -/
theorem NEG_of_val_eq (hw : isCanon w = true) (h : val w = -val a) : NEG a = .ok w :=
  normalize_of_val_eq hw (by rw [h, val]; push_cast; ring)

theorem NEG_of_overflows (h : NegOverflows a) : NEG a = .error .overflow := by
  rcases h with ⟨hs, he⟩ | ⟨hs, he⟩ <;> rw [NEG, hs, he] <;> decide

/-- Everything NEG can do: the exact negation, or Overflow at the named ends. -/
theorem NEG_cases (ha : isCanon a = true) :
    (NegOverflows a ∧ NEG a = .error .overflow) ∨
      (¬ NegOverflows a ∧ ∃ w, NEG a = .ok w ∧ isCanon w = true ∧ val w = -val a) := by
  by_cases h : NegOverflows a
  · exact .inl ⟨h, NEG_of_overflows h⟩
  · obtain ⟨w, hw, hval⟩ := exists_neg_word ha h
    exact .inr ⟨h, w, NEG_of_val_eq hw hval, hw, hval⟩

theorem val_of_NEG (ha : isCanon a = true) (h : NEG a = .ok b) : isCanon b = true ∧ val b = -val a := by
  rcases NEG_cases ha with ⟨_, e⟩ | ⟨_, w, e, hw, hval⟩ <;> rw [e] at h <;> cases h
  exact ⟨hw, hval⟩

/-- Settles O43. -/
theorem negationIsAnInvolution : Obligations.NegationIsAnInvolution := fun a b ha h =>
  NEG_of_val_eq ha (by rw [(val_of_NEG ha h).2, neg_neg])

theorem ABS_of_neg (h : sig a < 0) : ABS a = NEG a := by rw [ABS, if_pos h]
theorem ABS_of_nonneg (h : 0 ≤ sig a) : ABS a = .ok a := by rw [ABS, if_neg (by omega)]

/-- ABS is exact but at the one end that a negative operand has. -/
theorem exists_ABS (ha : isCanon a = true) (h : ¬ (sig a = -2 ^ 31 ∧ expo a = expMax)) :
    ∃ w, ABS a = .ok w ∧ isCanon w = true ∧ val w = |val a| := by
  by_cases hs : sig a < 0
  · rcases NEG_cases ha with ⟨hover, _⟩ | ⟨_, w, e, hw, hval⟩
    · exact absurd hover (by rw [NegOverflows]; omega)
    · exact ⟨w, by rw [ABS_of_neg hs, e], hw, by rw [hval, abs_of_neg (val_neg hs)]⟩
  · refine ⟨a, ABS_of_nonneg (by omega), ha, (abs_of_nonneg ?_).symm⟩
    rw [← not_lt, val_neg_iff]
    exact hs

/-- Settles O42. -/
theorem negateAndAbsAreExact : Obligations.NegateAndAbsAreExact := by
  rintro s rd rs1 _ rfl ha
  have hneg := exec_scaled (i := .neg rd rs1) (f := NEG) rfl ha
  have habs := exec_scaled (i := .abs rd rs1) (f := ABS) rfl ha
  refine ⟨fun h₁ h₂ => ?_, fun h => next_finishWrite_error hneg (NEG_of_overflows h), fun h => ?_, fun h => ?_⟩
  · obtain ⟨w, hw, hval⟩ := exists_neg_word ha (not_or.mpr ⟨h₁, h₂⟩)
    exact ⟨w, next_finishWrite_ok hneg (NEG_of_val_eq hw hval), hw, hval⟩
  · obtain ⟨w, e, hw, hval⟩ := exists_ABS ha h
    exact ⟨w, next_finishWrite_ok habs e, hw, hval⟩
  · exact next_finishWrite_error habs (by rw [ABS_of_neg (by omega), NEG_of_overflows (.inl h)])

/-! ## Exponent shifts (R172, R173) -/

/-- A significand in canonical position is kept, whatever the exponent. -/
theorem normalize_of_position (h : (2 ^ 30 ≤ S ∧ S < 2 ^ 31) ∨ (-2 ^ 31 ≤ S ∧ S < -2 ^ 30)) :
    normalize S E = if expMin ≤ E ∧ E ≤ expMax then .ok (pack S E) else .error .overflow := by
  rw [normalize_of_ne_zero (by omega), normSig_of_canonical h, normExp_of_canonical h]

/-- A command that normalizes the significand of a canonical word at another exponent. -/
theorem exponent_shift {o : Outcome} (ha : isCanon a = true) (ho : o = .next (finishWrite s rd (normalize (sig a) E))) :
    (sig a = 0 → o = .next ((s.setReg rd ZERO).complete 0)) ∧
      (sig a ≠ 0 → expMin ≤ E → E ≤ expMax → o = .next ((s.setReg rd (pack (sig a) E)).complete 0)) ∧
      (sig a ≠ 0 → E < expMin ∨ expMax < E → o = .next (takeFault .overflow s)) := by
  refine ⟨fun h => next_finishWrite_ok ho (by rw [h, normalize_zero]), fun h h₁ h₂ => next_finishWrite_ok ho ?_,
    fun h hE => next_finishWrite_error ho ?_⟩ <;> rw [normalize_of_position (canonical_sig ha h)]
  · exact if_pos ⟨h₁, h₂⟩
  · exact if_neg (by omega)

/-- Settles O44. -/
theorem exponentShiftsComplete : Obligations.ExponentShiftsComplete := by
  rintro s rd rs1 rs2 _ _ rfl rfl ha
  obtain ⟨shl_zero, shl_fits, shl_overflows⟩ := exponent_shift ha
    (exec_scaled (i := .shl rd rs1 rs2) (f := fun a => SHL a (readInt64 s rs2)) rfl ha)
  obtain ⟨shr_zero, shr_fits, shr_overflows⟩ := exponent_shift ha
    (exec_scaled (i := .shr rd rs1 rs2) (f := fun a => SHR a (readInt64 s rs2)) rfl ha)
  exact ⟨fun h => ⟨shl_zero h, shr_zero h⟩, shl_fits, shl_overflows, shr_fits, shr_overflows⟩

end Sys2Proof.Machine
end

section
/-! PROOFS. The comparison core and MIN, MAX (spec/42_compare.md R190 to R196, spec/41_arithmetic.md R178, R179), on the
three answers of `Cmp`. -/

namespace Sys2Proof.Machine

variable {a b o : Word}

/-! ## The order (R23, R190) -/

theorem lexCmp_pos_iff : 0 < lexCmp a b ↔ lexBelow b a := by
  rw [← lexCmp_eq_one_iff]
  have := lexCmp_range a b
  omega

theorem lexCmp_swap (a b : Word) : lexCmp b a = -lexCmp a b := by
  rcases lexCmp_range a b with h | h | h <;> rw [h]
  · rw [neg_neg, lexCmp_eq_one_iff, ← lexCmp_eq_neg_one_iff, h]
  · rw [neg_zero, lexCmp_eq_zero_iff_eq, eq_comm, ← lexCmp_eq_zero_iff_eq, h]
  · rw [lexCmp_eq_neg_one_iff, ← lexCmp_eq_one_iff, h]

/-- Settles O50. -/
theorem canonicalWordsAreUnique : Obligations.CanonicalWordsAreUnique := fun a b ha hb =>
  ⟨⟨eq_of_val_eq ha hb, fun h => h ▸ rfl⟩, lexCmp_eq_zero_iff_eq a b, lexCmp_swap a b⟩

/-! ## MIN and MAX (R178, R179) -/

theorem MIN_of_not_below (h : ¬ lexBelow b a) : MIN a b = a := by
  rw [← lexCmp_pos_iff, not_lt] at h
  rw [MIN, if_pos h]

theorem MIN_of_below (h : lexBelow b a) : MIN a b = b := by
  rw [← lexCmp_pos_iff] at h
  rw [MIN, if_neg (by omega)]

/-- Equal operands are one word, so either may be chosen. -/
theorem MAX_of_not_below (h : ¬ lexBelow b a) : MAX a b = b := by
  rw [← lexCmp_pos_iff, not_lt] at h
  rw [MAX]
  split
  · exact (lexCmp_eq_zero_iff_eq a b).mp (by omega)
  · rfl

theorem MAX_of_below (h : lexBelow b a) : MAX a b = a := by
  rw [← lexCmp_pos_iff] at h
  rw [MAX, if_pos (by omega)]

/-- Settles O47. -/
theorem minimumAndMaximumComplete : Obligations.MinimumAndMaximumComplete := by
  rintro s rd rs1 rs2 _ _ rfl rfl ha hb
  have hmin := exec_scaled₂ (i := .min rd rs1 rs2) (f := fun a b => .ok (MIN a b)) rfl ha hb
  have hmax := exec_scaled₂ (i := .max rd rs1 rs2) (f := fun a b => .ok (MAX a b)) rfl ha hb
  exact ⟨fun h => ⟨next_finishWrite_ok hmin (congrArg _ (MIN_of_not_below h)),
      next_finishWrite_ok hmax (congrArg _ (MAX_of_not_below h))⟩,
    fun h => ⟨next_finishWrite_ok hmin (congrArg _ (MIN_of_below h)),
      next_finishWrite_ok hmax (congrArg _ (MAX_of_below h))⟩⟩

/-! ## CMP, EQ, LT, GT (R191 to R194) -/

theorem boolWord_of_true {p : Prop} [Decidable p] (h : p) : boolWord (decide p) = 1 := by simp [boolWord, h]

theorem boolWord_of_false {p : Prop} [Decidable p] (h : ¬ p) : boolWord (decide p) = 0 := by simp [boolWord, h]

/-- Settles O48. -/
theorem comparisonsComplete : Obligations.ComparisonsComplete := by
  rintro s rd rs1 rs2 a b rfl rfl ha hb
  have hcmp := exec_scaled₂ (i := .cmp rd rs1 rs2) (f := fun a b => .ok (trunc64 (lexCmp a b))) rfl ha hb
  have heq := exec_scaled₂ (i := .eq rd rs1 rs2) (f := fun a b => .ok (boolWord (a == b))) rfl ha hb
  have hlt := exec_scaled₂ (i := .lt rd rs1 rs2) (f := fun a b => .ok (boolWord (lexCmp a b < 0))) rfl ha hb
  have hgt := exec_scaled₂ (i := .gt rd rs1 rs2) (f := fun a b => .ok (boolWord (0 < lexCmp a b))) rfl ha hb
  refine ⟨fun h => ⟨next_finishWrite_ok hcmp ?below, next_finishWrite_ok hlt (congrArg _ (boolWord_of_true ?_))⟩,
    fun h => ⟨next_finishWrite_ok hcmp ?above, next_finishWrite_ok hgt (congrArg _ (boolWord_of_true ?_))⟩,
    fun h => ⟨next_finishWrite_ok hcmp ?equal, next_finishWrite_ok heq (congrArg _ ?_)⟩,
    fun h => next_finishWrite_ok heq (congrArg _ ?_), fun h => next_finishWrite_ok hlt (congrArg _ (boolWord_of_false ?_)),
    fun h => next_finishWrite_ok hgt (congrArg _ (boolWord_of_false ?_))⟩
  case below => rw [(lexCmp_eq_neg_one_iff _ _).mpr h]; rfl
  case above => rw [(lexCmp_eq_one_iff _ _).mpr h]; rfl
  case equal => rw [(lexCmp_eq_zero_iff_eq _ _).mpr h]; rfl
  · exact (lexCmp_neg_iff _ _).mpr h
  · exact lexCmp_pos_iff.mpr h
  · rw [boolWord_beq, boolWord_of_true ((lexCmp_eq_zero_iff_eq _ _).mpr h)]
  · rw [boolWord_beq, boolWord_of_false (mt (lexCmp_eq_zero_iff_eq _ _).mp h)]
  · rwa [lexCmp_neg_iff]
  · rwa [lexCmp_pos_iff]

/-! ## APPROX (R196) -/

theorem approxAligned_of_eq (h : expo a = expo o) : approxAligned a o = some (sig a) := by
  rw [approxAligned, if_pos (by omega)]

theorem approxAligned_of_above (h : expo a = expo o + 1) : approxAligned a o = some (sig a * 2) := by
  rw [approxAligned, if_neg (by omega), if_pos (by omega)]

theorem approxAligned_of_below (h : expo a = expo o - 1) : approxAligned a o = some (sig a / 2) := by
  rw [approxAligned, if_neg (by omega), if_neg (by omega), if_pos (by omega), shiftFloor_eq_div, pow_one]

theorem approxAligned_of_apart (h : 1 < |expo a - expo o|) : approxAligned a o = none := by
  rw [lt_abs] at h
  rw [approxAligned, if_neg (by omega), if_neg (by omega), if_neg (by omega)]

/-- An aligned significand is the first operand's, doubled or halved at most. -/
theorem approxAligned_cases {A : Int} (h : approxAligned a o = some A) :
    A = sig a ∨ A = sig a * 2 ∨ A = sig a / 2 := by
  rw [approxAligned] at h
  split at h
  · exact .inl (Option.some.inj h).symm
  split at h
  · exact .inr (.inl (Option.some.inj h).symm)
  split at h
  · rw [shiftFloor_eq_div, pow_one] at h
    exact .inr (.inr (Option.some.inj h).symm)
  · cases h

theorem APPROX_iff {A : Int} (n : Nat) (h : approxAligned a o = some A) :
    APPROX a o n = true ↔ |A - sig o| ≤ 2 ^ (31 - n) := by
  rw [APPROX, h, decide_eq_true_iff, Int.abs_eq_natAbs]
  norm_cast

theorem APPROX_of_none (n : Nat) (h : approxAligned a o = none) : APPROX a o n = false := by rw [APPROX, h]

/-- Significands of opposite signs are further apart than any window, whichever scale the first is brought to. -/
theorem APPROX_of_opposite {n : Nat} (ha : isCanon a = true) (ho : isCanon o = true) (hn : 1 ≤ n)
    (h : (sig a < 0 ∧ 0 < sig o) ∨ (0 < sig a ∧ sig o < 0)) : APPROX a o n = false := by
  cases hA : approxAligned a o with
  | none => exact APPROX_of_none n hA
  | some A =>
    have hwindow : (2 : Int) ^ (31 - n) ≤ 2 ^ 30 := pow_le_pow_right₀ (by norm_num) (by omega)
    have ha' := canonical_sig ha (by omega)
    have ho' := canonical_sig ho (by omega)
    rw [← Bool.not_eq_true, APPROX_iff n hA, not_le, lt_abs]
    rcases approxAligned_cases hA with rfl | rfl | rfl <;> omega

/-- Settles O52. -/
theorem approxCompletes : Obligations.ApproxCompletes := by
  rintro s rd rs1 rs2 bits _ _ rfl rfl ha ho hlo hhi
  have hone : ∀ p : Bool, boolWord p = 1 ↔ p = true := by decide
  have hlegal : bits.legalBits = true := by simp [Imm8.legalBits, hlo, hhi]
  have hexec : exec (.approx rd rs1 rs2 bits) s = .next (finishWrite s rd
      (.ok (boolWord (APPROX (s.reg rs1) (s.reg rs2) bits.toNat)))) :=
    exec_scaled₂ (f := fun a o => .ok (boolWord (APPROX a o bits.toNat)))
      (congrArg (fun r => Host.Outcome.next (finishWrite s rd r)) (if_pos hlegal)) ha ho
  refine ⟨_, next_finishWrite_ok hexec rfl, ?_, fun h => ?_, fun h => ?_, fun h => ?_, fun h => ?_, fun h => ?_⟩
  · cases APPROX (s.reg rs1) (s.reg rs2) bits.toNat <;> decide
  · rw [hone, APPROX_iff _ (approxAligned_of_eq h)]
  · rw [hone, APPROX_iff _ (approxAligned_of_above h)]
  · rw [hone, APPROX_iff _ (approxAligned_of_below h)]
  · rw [APPROX_of_none _ (approxAligned_of_apart h)]
    rfl
  · rw [APPROX_of_opposite ha ho hlo h]
    rfl

end Sys2Proof.Machine
end

section
/-! PROOFS. The conversions from scaled values (spec/40_codec.md R122 to R124, R129 to R131): to integers, exactly or not at
all, and to doubles, by the three ranges of binary64. -/

namespace Sys2Proof.Machine

variable {a : Word} {lo hi v : Int}

/-! ## A value by the sign of its exponent (R21) -/

theorem two_zpow_of_nonneg {z : Int} (h : 0 ≤ z) : (2 : ℚ) ^ z = 2 ^ z.toNat := by
  rw [← zpow_natCast, Int.toNat_of_nonneg h]

theorem two_zpow_of_nonpos {z : Int} (h : z ≤ 0) : (2 : ℚ) ^ z = (2 ^ (-z).toNat)⁻¹ := by
  rw [← two_zpow_of_nonneg (by omega), zpow_neg, inv_inv]

theorem val_of_expo_nonneg (h : 0 ≤ expo a) : val a = ((sig a * 2 ^ (expo a).toNat : Int) : ℚ) := by
  rw [val, two_zpow_of_nonneg h]
  push_cast
  rfl

theorem val_of_expo_nonpos (h : expo a ≤ 0) : val a = (sig a : ℚ) / 2 ^ (-expo a).toNat := by
  rw [val, two_zpow_of_nonpos h, div_eq_mul_inv]

/-! ## TOI64 and TOI32 (R122 to R124) -/

theorem inRange_eq_ok {z : Int} (h : inRange lo hi z = .ok v) : z = v ∧ lo ≤ v ∧ v ≤ hi := by
  rcases inRange_cases lo hi z with ⟨hlo, hhi, e⟩ | ⟨_, e⟩ <;> rw [e] at h <;> cases h
  exact ⟨rfl, hlo, hhi⟩

/-- Inside 64 bits the cut of the exponent is not reached (log 12). -/
theorem scaleUp_of_lt {s z : Int} (hs : s ≠ 0) (h : |scaleUp s z| < 2 ^ 64) : scaleUp s z = s * 2 ^ z.toNat := by
  by_cases hz : 64 ≤ z.toNat
  · exact absurd (scaleUp_of_ge hs hz).1 (not_le.mpr h)
  · exact scaleUp_of_le (by omega)

/-- `ToInt` answers exactly the integers of the range (R124). -/
theorem toInteger_eq_ok_iff (hlo : -2 ^ 63 ≤ lo) (hlo0 : lo ≤ 0) (hhi0 : 0 ≤ hi) (hhi : hi < 2 ^ 63) :
    toInteger a lo hi = .ok v ↔ val a = v ∧ lo ≤ v ∧ v ≤ hi := by
  refine ⟨fun h => ?_, fun ⟨hv, h₁, h₂⟩ => toInteger_of_val_eq hv h₁ h₂ (by rw [abs_lt]; omega)⟩
  rcases toInteger_cases a lo hi with ⟨hs, e⟩ | ⟨hs, he, e⟩ | ⟨_, _, _, e⟩ | ⟨_, he, _, hmod, e⟩ <;> rw [e] at h
  · cases h
    exact ⟨by rw [(val_eq_zero_iff a).mpr hs, Int.cast_zero], hlo0, hhi0⟩
  · obtain ⟨hv, h₁, h₂⟩ := inRange_eq_ok h
    have hlt : |scaleUp (sig a) (expo a)| < 2 ^ 64 := by rw [hv, abs_lt]; omega
    exact ⟨by rw [val_of_expo_nonneg he, ← scaleUp_of_lt hs hlt, hv], h₁, h₂⟩
  · cases h
  · obtain ⟨hv, h₁, h₂⟩ := inRange_eq_ok h
    have hsig : sig a = v * 2 ^ (-expo a).toNat := by
      rw [← hv, shiftFloor_eq_div, Int.ediv_mul_cancel (Int.dvd_of_emod_eq_zero hmod)]
    refine ⟨?_, h₁, h₂⟩
    rw [val_of_expo_nonpos he.le, hsig]
    push_cast
    field_simp

theorem toInteger_of_no_integer (hlo : -2 ^ 63 ≤ lo) (hlo0 : lo ≤ 0) (hhi0 : 0 ≤ hi) (hhi : hi < 2 ^ 63)
    (h : ∀ v : Int, val a = v → ¬ (lo ≤ v ∧ v ≤ hi)) : toInteger a lo hi = .error .rangeError := by
  cases hr : toInteger a lo hi with
  | ok v =>
    obtain ⟨hv, hrange⟩ := (toInteger_eq_ok_iff hlo hlo0 hhi0 hhi).mp hr
    exact absurd hrange (h v hv)
  | error c => rw [toInteger_error a hr]

/-- A command that ends in `ToInt` writes the integer of the range, or takes RangeError. -/
theorem toInteger_command {o : Outcome} {s : State} {rd : Reg} (hlo : -2 ^ 63 ≤ lo) (hlo0 : lo ≤ 0) (hhi0 : 0 ≤ hi)
    (hhi : hi < 2 ^ 63) (ho : o = .next (finishWrite s rd ((toInteger a lo hi).map trunc64))) :
    (∀ v : Int, val a = v → lo ≤ v → v ≤ hi → o = .next ((s.setReg rd (BitVec.ofInt 64 v)).complete 0)) ∧
      ((∀ v : Int, val a = v → ¬ (lo ≤ v ∧ v ≤ hi)) → o = .next (takeFault .rangeError s)) := by
  refine ⟨fun v hv h₁ h₂ => next_finishWrite_ok ho ?_, fun h => next_finishWrite_error ho ?_⟩
  · rw [(toInteger_eq_ok_iff hlo hlo0 hhi0 hhi).mpr ⟨hv, h₁, h₂⟩]
    rfl
  · rw [toInteger_of_no_integer hlo hlo0 hhi0 hhi h]
    rfl

/-- Settles O29. -/
theorem toIntegersAreExactOrRangeError : Obligations.ToIntegersAreExactOrRangeError := by
  intro s rd rs1 ha
  obtain ⟨toi64_ok, toi64_error⟩ := toInteger_command (lo := i64Min) (hi := i64Max) (by decide) (by decide) (by decide)
    (by decide) (exec_scaled (i := .toi64 rd rs1) (f := TOI64) rfl ha)
  obtain ⟨toi32_ok, toi32_error⟩ := toInteger_command (lo := i32Min) (hi := i32Max) (by decide) (by decide) (by decide)
    (by decide) (exec_scaled (i := .toi32 rd rs1) (f := TOI32) rfl ha)
  exact ⟨toi64_ok, toi64_error, toi32_ok, toi32_error⟩

/-! ## The fields of a binary64 pattern (R129) -/

section Fields
variable (sign : Bool) (biased : BitVec 11) (fraction : BitVec 52)

@[simp] theorem f64Sign_f64Pack : f64Sign (f64Pack sign biased fraction) = sign := by
  simp only [f64Sign, f64Pack, BitVec.getLsbD_append]
  simp

@[simp] theorem f64Biased_f64Pack : f64Biased (f64Pack sign biased fraction) = biased.toNat := by
  rw [f64Biased]
  congr 1
  apply BitVec.eq_of_getLsbD_eq
  intro i hi
  simp only [f64Pack, BitVec.getLsbD_extractLsb', BitVec.getLsbD_append]
  simp [hi]

@[simp] theorem f64Fraction_f64Pack : f64Fraction (f64Pack sign biased fraction) = fraction.toNat := by
  rw [f64Fraction, f64Pack]
  congr 1
  exact BitVec.extractLsb'_append_eq_right

end Fields

/-! ## TOF64, by the range of the magnitude (R131) -/

/-- The exponent of the value, in binades: the `ue` of R131. -/
def unbiased (a : Word) : Int := expo a + (sig a).natAbs.log2

theorem TOF64_of_zero (h : sig a = 0) : TOF64 a = 0 := by rw [TOF64, if_pos h]

theorem TOF64_of_above (h0 : sig a ≠ 0) (h : 1023 < unbiased a) :
    TOF64 a = f64Pack (decide (sig a < 0)) 0x7FF 0 := by
  rw [TOF64, if_neg h0]
  exact if_pos h

theorem TOF64_of_normal (h0 : sig a ≠ 0) (hlo : -1022 ≤ unbiased a) (hhi : unbiased a ≤ 1023) :
    TOF64 a = f64Pack (decide (sig a < 0)) (BitVec.ofInt 11 (unbiased a + 1023))
      (BitVec.ofNat 52 ((sig a).natAbs <<< (52 - (sig a).natAbs.log2) - 2 ^ 52)) := by
  rw [TOF64, if_neg h0]
  exact (if_neg (not_lt.mpr hhi)).trans (if_pos hlo)

theorem TOF64_of_below (h0 : sig a ≠ 0) (h : unbiased a ≤ -1023) :
    TOF64 a = f64Pack (decide (sig a < 0)) 0 (BitVec.ofNat 52
      (if 0 ≤ expo a + 1074 then (sig a).natAbs <<< (expo a + 1074).toNat
        else (sig a).natAbs >>> (-(expo a + 1074)).toNat)) := by
  rw [TOF64, if_neg h0]
  exact (if_neg (by rw [unbiased] at h; omega)).trans (if_neg (by rw [unbiased] at h; omega))

/-! ## The magnitude and its leading bit -/

theorem two_pow_log2_le (h0 : sig a ≠ 0) : 2 ^ (sig a).natAbs.log2 ≤ (sig a).natAbs := Nat.log2_self_le (by omega)

theorem lt_two_pow_log2 (a : Word) : (sig a).natAbs < 2 ^ ((sig a).natAbs.log2 + 1) := Nat.lt_log2_self

theorem log2_natAbs_sig_le (a : Word) : (sig a).natAbs.log2 ≤ 31 := by
  have hlo := sig_ge a
  have hhi := sig_lt a
  by_cases h0 : (sig a).natAbs = 0
  · simp [h0]
  · exact Nat.lt_succ_iff.mp ((Nat.log2_lt h0).mpr (by omega))

theorem signed_natAbs_mul (z p : Int) : (if decide (z < 0) = true then -(z.natAbs * p) else z.natAbs * p) = z * p := by
  simp only [decide_eq_true_eq, Int.natCast_natAbs]
  split
  · rw [abs_of_neg (by assumption), neg_mul, neg_neg]
  · rw [abs_of_nonneg (by omega)]

/-- The 53-bit significand of a normal number: the leading bit is bit 52. -/
theorem normal_significand (h0 : sig a ≠ 0) :
    2 ^ 52 ≤ (sig a).natAbs * 2 ^ (52 - (sig a).natAbs.log2) ∧
      (sig a).natAbs * 2 ^ (52 - (sig a).natAbs.log2) < 2 ^ 53 := by
  have hlog := log2_natAbs_sig_le a
  obtain ⟨k, hk⟩ : ∃ k, 52 - (sig a).natAbs.log2 = k := ⟨_, rfl⟩
  have hsum : (sig a).natAbs.log2 + k = 52 := by omega
  have hsum' : (sig a).natAbs.log2 + 1 + k = 53 := by omega
  rw [hk]
  constructor
  · calc 2 ^ 52 = 2 ^ (sig a).natAbs.log2 * 2 ^ k := by rw [← pow_add, hsum]
      _ ≤ _ := Nat.mul_le_mul_right _ (two_pow_log2_le h0)
  · calc _ < 2 ^ ((sig a).natAbs.log2 + 1) * 2 ^ k := Nat.mul_lt_mul_of_pos_right (lt_two_pow_log2 a) (by positivity)
      _ = 2 ^ 53 := by rw [← pow_add, hsum']

/-! ## The normal range: the double has exactly the value -/

theorem f64Biased_TOF64_normal (h0 : sig a ≠ 0) (hlo : -1022 ≤ unbiased a) (hhi : unbiased a ≤ 1023) :
    (f64Biased (TOF64 a) : Int) = unbiased a + 1023 := by
  rw [TOF64_of_normal h0 hlo hhi, f64Biased_f64Pack, BitVec.toNat_ofInt]
  omega

theorem f64Mantissa_TOF64_normal (h0 : sig a ≠ 0) (hlo : -1022 ≤ unbiased a) (hhi : unbiased a ≤ 1023) :
    f64Mantissa (TOF64 a) = sig a * 2 ^ (52 - (sig a).natAbs.log2) := by
  have hbiased := f64Biased_TOF64_normal h0 hlo hhi
  obtain ⟨hge, hlt⟩ := normal_significand h0
  have hfraction : 2 ^ 52 + (f64Fraction (TOF64 a) : Int) =
      ((sig a).natAbs : Int) * 2 ^ (52 - (sig a).natAbs.log2) := by
    rw [TOF64_of_normal h0 hlo hhi, f64Fraction_f64Pack, BitVec.toNat_ofNat, Nat.shiftLeft_eq,
      Nat.mod_eq_of_lt (by omega), Nat.cast_sub hge]
    push_cast
    ring
  have hsign : f64Sign (TOF64 a) = decide (sig a < 0) := by rw [TOF64_of_normal h0 hlo hhi, f64Sign_f64Pack]
  simp only [f64Mantissa, if_neg (show ¬ f64Biased (TOF64 a) = 0 by omega), hfraction, hsign]
  exact signed_natAbs_mul _ _

theorem value_TOF64_normal (h0 : sig a ≠ 0) (hlo : -1022 ≤ unbiased a) (hhi : unbiased a ≤ 1023) :
    (f64Mantissa (TOF64 a) : ℚ) * 2 ^ f64Exponent (TOF64 a) = val a := by
  have hbiased := f64Biased_TOF64_normal h0 hlo hhi
  have hlog := log2_natAbs_sig_le a
  have hexp : expo a = f64Exponent (TOF64 a) + ((52 - (sig a).natAbs.log2 : Nat) : Int) := by
    rw [f64Exponent, if_neg (by omega), hbiased, unbiased]
    omega
  rw [f64Mantissa_TOF64_normal h0 hlo hhi, val]
  conv_rhs => rw [hexp, two_zpow_add]
  push_cast
  ring

/-- Settles O32: the double has the value of the word, which is what FROMF64 normalizes. -/
theorem doublesRoundTripInTheNormalRange : Obligations.DoublesRoundTripInTheNormalRange := by
  intro a ha h0 hlo hhi
  have hbiased := f64Biased_TOF64_normal h0 hlo hhi
  rw [← unbiased] at hhi
  rw [FROMF64, if_neg (by omega)]
  exact normalize_of_val_eq ha (value_TOF64_normal h0 hlo hhi).symm

/-! ## Below the normal range: the magnitude in units of `2^-1074` -/

theorem abs_val (a : Word) : |val a| = ((sig a).natAbs : ℚ) * 2 ^ expo a := by
  rw [val, abs_mul, abs_of_pos (show (0 : ℚ) < 2 ^ expo a by positivity), Nat.cast_natAbs, Int.cast_abs]

/-- The magnitude at the scale of an exponent, cut to an integer: what a left or a right shift makes of it. -/
def scaledMagnitude (m : Nat) (t : Int) : Nat := if 0 ≤ t then m <<< t.toNat else m >>> (-t).toNat

theorem scaledMagnitude_floor (m : Nat) (t : Int) :
    (scaledMagnitude m t : ℚ) ≤ m * 2 ^ t ∧ (m : ℚ) * 2 ^ t < scaledMagnitude m t + 1 := by
  rw [scaledMagnitude]
  split
  · next h =>
    rw [two_zpow_of_nonneg h, Nat.shiftLeft_eq]
    push_cast
    constructor <;> linarith
  · next h =>
    have hpos : (0 : ℚ) < 2 ^ (-t).toNat := by positivity
    have hdiv := Nat.div_mul_le_self m (2 ^ (-t).toNat)
    have hlt := Nat.lt_div_mul_add (a := m) (b := 2 ^ (-t).toNat) (by positivity)
    rw [two_zpow_of_nonpos (by omega), Nat.shiftRight_eq_div_pow, ← div_eq_mul_inv, le_div_iff₀ hpos, div_lt_iff₀ hpos]
    constructor
    · exact_mod_cast hdiv
    · rw [add_one_mul]
      exact_mod_cast hlt

/-- Below the normal range the scaled magnitude fits the fraction field. -/
theorem scaledMagnitude_lt (h : unbiased a ≤ -1023) : scaledMagnitude (sig a).natAbs (expo a + 1074) < 2 ^ 52 := by
  have hmag := lt_two_pow_log2 a
  rw [unbiased] at h
  have hlt : ((sig a).natAbs : ℚ) * 2 ^ (expo a + 1074) < 2 ^ (52 : Int) :=
    calc ((sig a).natAbs : ℚ) * 2 ^ (expo a + 1074)
        < 2 ^ ((sig a).natAbs.log2 + 1) * 2 ^ (expo a + 1074) :=
          mul_lt_mul_of_pos_right (by exact_mod_cast hmag) (by positivity)
      _ = 2 ^ (((sig a).natAbs.log2 + 1 : Nat) + (expo a + 1074)) := by rw [← zpow_natCast, ← zpow_add₀ two_ne_zero]
      _ ≤ 2 ^ (52 : Int) := zpow_le_zpow_right₀ one_le_two (by push_cast; omega)
  have := (scaledMagnitude_floor (sig a).natAbs (expo a + 1074)).1.trans_lt hlt
  exact_mod_cast this

/-- The fraction of a subnormal or zero result. -/
theorem f64Fraction_TOF64_below (h0 : sig a ≠ 0) (h : unbiased a ≤ -1023) :
    f64Fraction (TOF64 a) = scaledMagnitude (sig a).natAbs (expo a + 1074) := by
  rw [TOF64_of_below h0 h, f64Fraction_f64Pack, BitVec.toNat_ofNat]
  exact Nat.mod_eq_of_lt (scaledMagnitude_lt h)

/-- A canonical word with a binade is not zero: the exponent of zero is below all of them. -/
theorem sig_ne_zero_of_unbiased (ha : isCanon a = true) (h : -2 ^ 31 < unbiased a) : sig a ≠ 0 := by
  intro h0
  rw [unbiased, h0, eq_zero_of_canon ha h0, expo_ZERO] at h
  simp at h

theorem f64Sign_TOF64 (h0 : sig a ≠ 0) : f64Sign (TOF64 a) = decide (sig a < 0) := by
  rcases lt_or_ge 1023 (unbiased a) with habove | hhi
  · rw [TOF64_of_above h0 habove, f64Sign_f64Pack]
  rcases lt_or_ge (unbiased a) (-1022) with hbelow | hlo
  · rw [TOF64_of_below h0 (by omega), f64Sign_f64Pack]
  · rw [TOF64_of_normal h0 hlo hhi, f64Sign_f64Pack]

/-- Settles O31. -/
theorem toDoubleSaturatesAndTruncates : Obligations.ToDoubleSaturatesAndTruncates := by
  intro s rd rs1 ha
  refine ⟨TOF64 (s.reg rs1),
    next_finishWrite_ok (exec_scaled (i := .tof64 rd rs1) (f := fun a => .ok (TOF64 a)) rfl ha) rfl,
    TOF64_of_zero, f64Sign_TOF64, fun h => ?above,
    fun h0 hlo hhi => ⟨f64Biased_TOF64_normal h0 hlo hhi, value_TOF64_normal h0 hlo hhi⟩, fun h0 h => ?below⟩
  case above =>
    rw [← unbiased] at h
    rw [TOF64_of_above (sig_ne_zero_of_unbiased ha (by omega)) (by omega), f64Biased_f64Pack, f64Fraction_f64Pack]
    decide
  case below =>
    have hscaled : |val (s.reg rs1)| * 2 ^ 1074 = ((sig (s.reg rs1)).natAbs : ℚ) * 2 ^ (expo (s.reg rs1) + 1074) := by
      rw [abs_val, zpow_add₀ two_ne_zero, mul_assoc]
      norm_cast
    refine ⟨by rw [TOF64_of_below h0 h, f64Biased_f64Pack]; rfl, ?_⟩
    rw [f64Fraction_TOF64_below h0 h, hscaled]
    exact scaledMagnitude_floor _ _

end Sys2Proof.Machine
end

section
/-! PROOFS. FLOOR and ROUND as floors of the value (spec/41_arithmetic.md R174, R175). -/

namespace Sys2Proof.Machine

variable {a : Word}

/-! ## Floors of a value with a fractional scale -/

theorem floor_intCast_div_two_pow (z : Int) (k : Nat) : ⌊(z : ℚ) / 2 ^ k⌋ = z / 2 ^ k := by
  exact_mod_cast Rat.floor_intCast_div_natCast z (2 ^ k)

theorem floor_val (h : expo a ≤ 0) : ⌊val a⌋ = sig a / 2 ^ (-expo a).toNat := by
  rw [val_of_expo_nonpos h, floor_intCast_div_two_pow]

/-- One half is `2^(k - 1)` at the scale of the significand (R175). -/
theorem floor_val_add_half (h : expo a < 0) :
    ⌊val a + 1 / 2⌋ = (sig a + 2 ^ ((-expo a).toNat - 1)) / 2 ^ (-expo a).toNat := by
  obtain ⟨k, hk⟩ : ∃ k, (-expo a).toNat = k + 1 := ⟨(-expo a).toNat - 1, by omega⟩
  have hval : val a + 1 / 2 = ((sig a + 2 ^ k : Int) : ℚ) / 2 ^ (k + 1) := by
    rw [val_of_expo_nonpos h.le, hk]
    push_cast
    field_simp
    ring
  rw [hval, floor_intCast_div_two_pow, hk, Nat.add_sub_cancel]

/-- Clearing the bits below the binary point leaves an integer, which normalizes exactly. -/
theorem normalize_clearLow {z : Int} (h : expo a ≤ 0) (hlo : -2 ^ 31 ≤ z / 2 ^ (-expo a).toNat)
    (hhi : z / 2 ^ (-expo a).toNat < 2 ^ 31) :
    ∃ w, normalize (clearLow z (-expo a).toNat) (expo a) = .ok w ∧ isCanon w = true ∧
      val w = (z / 2 ^ (-expo a).toNat : Int) := by
  obtain ⟨w, hw, hcanon, hval⟩ := normalize_int32 hlo hhi
  refine ⟨w, ?_, hcanon, hval⟩
  rw [← hw]
  refine normalize_congr ?_
  rw [clearLow, shiftFloor_eq_div, two_zpow_of_nonpos h]
  push_cast
  field_simp

theorem val_eq_floor_of_integer (h : sig a = 0 ∨ 0 ≤ expo a) : val a = ⌊val a⌋ ∧ val a = ⌊val a + 1 / 2⌋ := by
  obtain ⟨n, hn⟩ : ∃ n : Int, val a = n := by
    rcases h with h | h
    · exact ⟨0, by rw [(val_eq_zero_iff a).mpr h, Int.cast_zero]⟩
    · exact ⟨_, val_of_expo_nonneg h⟩
  rw [hn, Int.floor_intCast, Int.floor_intCast_add, show ⌊(1 / 2 : ℚ)⌋ = 0 by norm_num, add_zero]
  exact ⟨rfl, rfl⟩

/-- Below an exponent the value is inside the binade of one. -/
theorem val_bounds_of_expo_le {e : Int} (ha : isCanon a = true) (h : expo a + 31 ≤ e) :
    (0 < sig a → 0 < val a ∧ val a < 2 ^ e) ∧ (sig a < 0 → -2 ^ e ≤ val a ∧ val a < 0) := by
  have hle : (2 : ℚ) ^ (expo a + 31) ≤ 2 ^ e := zpow_le_zpow_right₀ one_le_two h
  exact ⟨fun hs => ⟨val_pos hs, (val_binade_of_pos ha hs).2.trans_le hle⟩,
    fun hs => ⟨(neg_le_neg hle).trans (val_binade_of_neg ha hs).1, val_neg hs⟩⟩

/-! ## The functions -/

theorem val_MINUS_ONE : val MINUS_ONE = -1 := by
  rw [val, sig_MINUS_ONE, expo_MINUS_ONE]
  norm_num

/-- R174: an integer is itself, a value inside the unit is 0 or -1, and any other is cut at the binary point. -/
theorem exists_FLOOR (ha : isCanon a = true) : ∃ w, FLOOR a = .ok w ∧ isCanon w = true ∧ val w = ⌊val a⌋ := by
  rcases FLOOR_cases a with ⟨hint, e⟩ | ⟨h0, he, e⟩ | ⟨h0, hlo, hhi, e⟩
  · exact ⟨a, e, ha, (val_eq_floor_of_integer hint).1⟩
  · obtain ⟨hpos, hneg⟩ := val_bounds_of_expo_le (e := 0) ha (by omega)
    rw [zpow_zero] at hpos hneg
    by_cases hs : 0 < sig a
    · have hfloor : ⌊val a⌋ = 0 := Int.floor_eq_zero_iff.mpr ⟨(hpos hs).1.le, (hpos hs).2⟩
      exact ⟨ZERO, by rw [e, if_pos hs], isCanon_ZERO, by rw [val_ZERO, hfloor, Int.cast_zero]⟩
    · obtain ⟨hge, hlt⟩ := hneg (by omega)
      have hfloor : ⌊val a⌋ = -1 := Int.floor_eq_iff.mpr ⟨by exact_mod_cast hge, by simpa using hlt⟩
      exact ⟨MINUS_ONE, by rw [e, if_neg hs], isCanon_MINUS_ONE, by rw [val_MINUS_ONE, hfloor]; norm_num⟩
  · have hlo' := sig_ge a
    have hhi' := sig_lt a
    have hk : (1 : Int) ≤ 2 ^ (-expo a).toNat := one_le_pow₀ (by norm_num)
    obtain ⟨w, hw, hcanon, hval⟩ := normalize_clearLow (a := a) (z := sig a) hhi.le
      (by rw [Int.le_ediv_iff_mul_le (by omega)]; nlinarith) (by rw [Int.ediv_lt_iff_lt_mul (by omega)]; nlinarith)
    exact ⟨w, by rw [e, hw], hcanon, by rw [hval, floor_val hhi.le]⟩

/-- R175: the same with one half added first. -/
theorem exists_ROUND (ha : isCanon a = true) : ∃ w, ROUND a = .ok w ∧ isCanon w = true ∧ val w = ⌊val a + 1 / 2⌋ := by
  rcases ROUND_cases a with ⟨hint, e⟩ | ⟨h0, he, e⟩ | ⟨h0, hlo, hhi, e⟩
  · exact ⟨a, e, ha, (val_eq_floor_of_integer hint).2⟩
  · obtain ⟨hpos, hneg⟩ := val_bounds_of_expo_le (e := -1) ha (by omega)
    rw [zpow_neg_one] at hpos hneg
    have hfloor : ⌊val a + 1 / 2⌋ = 0 := by
      rw [Int.floor_eq_zero_iff, Set.mem_Ico]
      rcases h0.lt_or_gt with hs | hs
      · obtain ⟨hge, hlt⟩ := hneg hs
        constructor <;> linarith
      · obtain ⟨hgt, hlt⟩ := hpos hs
        constructor <;> linarith
    exact ⟨ZERO, e, isCanon_ZERO, by rw [val_ZERO, hfloor, Int.cast_zero]⟩
  · have hlo' := sig_ge a
    have hhi' := sig_lt a
    obtain ⟨k, hk⟩ : ∃ k, (-expo a).toNat = k + 1 := ⟨(-expo a).toNat - 1, by omega⟩
    have hk1 : (1 : Int) ≤ 2 ^ k := one_le_pow₀ (by norm_num)
    have hsucc : (2 : Int) ^ (k + 1) = 2 * 2 ^ k := pow_succ' 2 k
    obtain ⟨w, hw, hcanon, hval⟩ := normalize_clearLow (a := a) (z := sig a + 2 ^ ((-expo a).toNat - 1)) hhi.le
      (by rw [hk, Nat.add_sub_cancel, Int.le_ediv_iff_mul_le (by omega)]; nlinarith)
      (by rw [hk, Nat.add_sub_cancel, Int.ediv_lt_iff_lt_mul (by omega)]; nlinarith)
    exact ⟨w, by rw [e, hw], hcanon, by rw [hval, floor_val_add_half hhi]⟩

/-- Settles O45. -/
theorem floorAndRoundAreMathematical : Obligations.FloorAndRoundAreMathematical := by
  intro s rd rs1 ha
  obtain ⟨w, hw, hcanon, hval⟩ := exists_FLOOR ha
  obtain ⟨v, hv, hcanon', hval'⟩ := exists_ROUND ha
  exact ⟨⟨w, next_finishWrite_ok (exec_scaled (f := FLOOR) rfl ha) hw, hcanon, hval⟩,
    v, next_finishWrite_ok (exec_scaled (f := ROUND) rfl ha) hv, hcanon', hval'⟩

end Sys2Proof.Machine
end

section
/-! PROOFS. Integral division (spec/41_arithmetic.md R160 to R168). Below an exponent difference of 32 both operands are
integers at the scale `2^(expo a - 32)`, and the quotient and remainder of R160 are those of the truncated division of
these two integers. -/

namespace Sys2Proof.Machine

variable {a b : Word}

/-! ## Truncated division of integers -/

theorem tdiv_tdiv_two_pow (x y : Int) (k : Nat) : (x.tdiv y).tdiv (2 ^ k) = x.tdiv (y * 2 ^ k) := by
  have hnat (m n : Nat) : ((m : Int).tdiv n).tdiv (2 ^ k) = (m : Int).tdiv (n * 2 ^ k) := by
    norm_cast
    exact congrArg Int.ofNat (Nat.div_div_eq_div_mul m n (2 ^ k))
  obtain ⟨m, rfl | rfl⟩ := Int.eq_nat_or_neg x <;> obtain ⟨n, rfl | rfl⟩ := Int.eq_nat_or_neg y <;>
    simp only [Int.neg_tdiv, Int.tdiv_neg, neg_mul, neg_neg, hnat]

theorem tdiv_eq_zero_iff_abs_lt {x y : Int} (hy : y ≠ 0) : x.tdiv y = 0 ↔ |x| < |y| := by
  have hy' : y.natAbs ≠ 0 := Int.natAbs_ne_zero.mpr hy
  rw [← Int.natAbs_eq_zero, Int.natAbs_tdiv, Int.abs_eq_natAbs, Int.abs_eq_natAbs, Nat.cast_lt]
  exact Nat.div_eq_zero_iff.trans (or_iff_right hy')

theorem abs_tmod_lt {x y : Int} (hy : y ≠ 0) : |x.tmod y| < |y| := by
  rw [Int.abs_eq_natAbs, Int.abs_eq_natAbs, Int.natAbs_tmod, Nat.cast_lt]
  exact Nat.mod_lt _ (Int.natAbs_pos.mpr hy)

theorem abs_tmod_le (x y : Int) : |x.tmod y| ≤ |x| := by
  rw [Int.abs_eq_natAbs, Int.abs_eq_natAbs, Int.natAbs_tmod, Nat.cast_le]
  exact Nat.mod_le _ _

/-- The remainder has the sign of the dividend. -/
theorem tmod_sign (x y : Int) : (0 ≤ x → 0 ≤ x.tmod y) ∧ (x ≤ 0 → x.tmod y ≤ 0) := by
  refine ⟨fun h => Int.tmod_nonneg y h, fun h => ?_⟩
  have := Int.tmod_nonneg y (neg_nonneg.mpr h)
  rw [Int.neg_tmod] at this
  omega

/-! ## The operands at one scale -/

/-- The dividend's integer, at the scale `2^(expo a - 32)`. -/
def dividend (a : Word) : Int := sig a * 2 ^ 32

/-- The divisor's integer at the same scale, for an exponent difference below 32. -/
def divisor (a b : Word) : Int := sig b * 2 ^ (32 - (expo a - expo b)).toNat

theorem val_eq_dividend (a : Word) : val a = (dividend a : ℚ) * 2 ^ (expo a - 32) := by
  have hscale := two_zpow_add (expo a - 32) 32
  push_cast at hscale
  rw [sub_add_cancel] at hscale
  rw [val, dividend, hscale]
  push_cast
  ring

theorem val_eq_divisor (h : expo a - expo b < 32) : val b = (divisor a b : ℚ) * 2 ^ (expo a - 32) := by
  have hscale := two_zpow_add (expo a - 32) (32 - (expo a - expo b)).toNat
  rw [Int.toNat_of_nonneg (by omega), show expo a - 32 + (32 - (expo a - expo b)) = expo b by ring] at hscale
  rw [val, divisor, hscale]
  push_cast
  ring

theorem divisor_ne_zero (hb : sig b ≠ 0) : divisor a b ≠ 0 := mul_ne_zero hb (by positivity)

theorem abs_dividend_le (a : Word) : |dividend a| ≤ 2 ^ 63 := by
  have := sig_abs_le a
  rw [dividend, abs_mul, abs_of_pos (show (0 : Int) < 2 ^ 32 by norm_num)]
  omega

theorem abs_divisor_ge (hb : isCanon b = true) (h0 : sig b ≠ 0) :
    2 ^ 30 * 2 ^ (32 - (expo a - expo b)).toNat ≤ |divisor a b| := by
  have hs : 2 ^ 30 ≤ |sig b| := by
    rw [le_abs]
    have := canonical_sig hb h0
    omega
  rw [divisor, abs_mul, abs_of_pos (show (0 : Int) < 2 ^ (32 - (expo a - expo b)).toNat by positivity)]
  exact mul_le_mul_of_nonneg_right hs (by positivity)

/-! ## The quotient and the remainder of R160 -/

/-- Cutting the shift at 64 changes nothing: the quotient is then already zero. -/
theorem truncQuotient_eq (hb : isCanon b = true) (h0 : sig b ≠ 0) :
    truncQuotient a b = (dividend a).tdiv (divisor a b) := by
  have hk : (-(expo a - expo b - 32)).toNat = (32 - (expo a - expo b)).toNat := by congr 1; ring
  rw [truncQuotient, hk]
  split
  · next h64 =>
    have hpow : (2 : Int) ^ 64 ≤ 2 ^ (32 - (expo a - expo b)).toNat := pow_le_pow_right₀ (by norm_num) h64
    have hge := abs_divisor_ge (a := a) hb h0
    have hle := abs_dividend_le a
    rw [eq_comm, tdiv_eq_zero_iff_abs_lt (divisor_ne_zero h0)]
    omega
  · rw [quotient, tdiv_tdiv_two_pow]
    rfl

/-- The remainder has the value of the integer remainder. -/
theorem remainder_eq (hb : isCanon b = true) (h0 : sig b ≠ 0) (h : expo a - expo b < 32) :
    (remainderInt a b : ℚ) * 2 ^ min (expo a) (expo b) =
      ((dividend a).tmod (divisor a b) : ℚ) * 2 ^ (expo a - 32) := by
  have hval : (remainderInt a b : ℚ) * 2 ^ min (expo a) (expo b) = val a - truncQuotient a b * val b := by
    have ha' := two_zpow_add (min (expo a) (expo b)) (expo a - min (expo a) (expo b)).toNat
    have hb' := two_zpow_add (min (expo a) (expo b)) (expo b - min (expo a) (expo b)).toNat
    rw [Int.toNat_of_nonneg (by omega), add_sub_cancel] at ha' hb'
    rw [val, val, ha', hb', remainderInt]
    push_cast
    ring
  rw [hval, truncQuotient_eq hb h0, Int.tmod_def, val_eq_dividend a, val_eq_divisor h]
  push_cast
  ring

theorem natAbs_truncQuotient_le (hb : isCanon b = true) (h0 : sig b ≠ 0) (h : expo a - expo b < 32) :
    (truncQuotient a b).natAbs ≤ 2 ^ 32 := by
  have hpow : (2 : Int) ^ 1 ≤ 2 ^ (32 - (expo a - expo b)).toNat := pow_le_pow_right₀ (by norm_num) (by omega)
  have hge := abs_divisor_ge (a := a) hb h0
  have hle := abs_dividend_le a
  rw [Int.abs_eq_natAbs] at hge hle
  rw [truncQuotient_eq hb h0, Int.natAbs_tdiv]
  refine Nat.div_le_of_le_mul ?_
  omega

/-- The remainder is on the dividend's side of zero. -/
theorem remainder_side (hb : isCanon b = true) (h0 : sig b ≠ 0) (h : expo a - expo b < 32) :
    (0 ≤ sig a → 0 ≤ remainderInt a b) ∧ (sig a ≤ 0 → remainderInt a b ≤ 0) := by
  have heq := remainder_eq hb h0 h
  have hpos : (0 : ℚ) < 2 ^ min (expo a) (expo b) := by positivity
  have hunit : (0 : ℚ) < 2 ^ (expo a - 32) := by positivity
  obtain ⟨hnonneg, hnonpos⟩ := tmod_sign (dividend a) (divisor a b)
  rw [dividend] at hnonneg hnonpos
  refine ⟨fun hs => ?_, fun hs => ?_⟩
  · have hr : (0 : ℚ) ≤ (dividend a).tmod (divisor a b) := Int.cast_nonneg (hnonneg (by omega))
    exact Int.cast_nonneg_iff.mp (nonneg_of_mul_nonneg_left (heq ▸ mul_nonneg hr hunit.le) hpos)
  · have hr : ((dividend a).tmod (divisor a b) : ℚ) ≤ 0 := Int.cast_nonpos.mpr (hnonpos (by omega))
    exact Int.cast_nonpos.mp (nonpos_of_mul_nonpos_left (heq ▸ mul_nonpos_of_nonpos_of_nonneg hr hunit.le) hpos)

/-- The remainder is smaller than the divisor, and not greater than the dividend. -/
theorem abs_remainder (hb : isCanon b = true) (h0 : sig b ≠ 0) (h : expo a - expo b < 32) :
    |(remainderInt a b : ℚ) * 2 ^ min (expo a) (expo b)| < |val b| ∧
      |(remainderInt a b : ℚ) * 2 ^ min (expo a) (expo b)| ≤ |val a| := by
  have hunit : (0 : ℚ) < 2 ^ (expo a - 32) := by positivity
  rw [remainder_eq hb h0 h, val_eq_divisor h, val_eq_dividend a, abs_mul, abs_mul, abs_mul, abs_of_pos hunit]
  exact ⟨mul_lt_mul_of_pos_right (by exact_mod_cast abs_tmod_lt (divisor_ne_zero h0)) hunit,
    mul_le_mul_of_nonneg_right (by exact_mod_cast abs_tmod_le _ _) hunit.le⟩

/-- The remainder fits a significand, at the scale of the lesser exponent (R161 item 3). -/
theorem remainder_bounds (hb : isCanon b = true) (h0 : sig b ≠ 0) (h : expo a - expo b < 32) :
    -2 ^ 31 ≤ remainderInt a b ∧ remainderInt a b < 2 ^ 31 := by
  obtain ⟨hlt, hle⟩ := abs_remainder hb h0 h
  have hpos : (0 : ℚ) < 2 ^ min (expo a) (expo b) := by positivity
  rcases le_total (expo b) (expo a) with he | he
  · rw [min_eq_right he] at hlt hpos
    rw [val, abs_mul, abs_mul, mul_lt_mul_iff_left₀ (by positivity)] at hlt
    have hlt' : |remainderInt a b| < |sig b| := by exact_mod_cast hlt
    have := sig_abs_le b
    rw [abs_lt] at hlt'
    omega
  · rw [min_eq_left he] at hle hpos
    rw [val, abs_mul, abs_mul, mul_le_mul_iff_left₀ (by positivity)] at hle
    have hle' : |remainderInt a b| ≤ |sig a| := by exact_mod_cast hle
    obtain ⟨hnonneg, hnonpos⟩ := remainder_side hb h0 h
    have := sig_ge a
    have := sig_lt a
    rcases le_total 0 (sig a) with hs | hs
    · rw [abs_of_nonneg hs, abs_le] at hle'
      omega
    · rw [abs_of_nonpos hs, abs_le] at hle'
      have := hnonpos hs
      omega

/-- Settles O40. -/
theorem divRemIsTruncatedDivision : Obligations.DivRemIsTruncatedDivision := by
  intro a b _ hb h0 h
  have hunit : (0 : ℚ) < 2 ^ (expo a - 32) := by positivity
  obtain ⟨hnonneg, hnonpos⟩ := remainder_side hb h0 h
  obtain ⟨hlo, hhi⟩ := remainder_bounds hb h0 h
  refine ⟨?zero, fun _ => ⟨?division, (abs_remainder hb h0 h).1, by omega, natAbs_truncQuotient_le hb h0 h,
    val_normWord (by simpa using normShift_le (n := 31) hlo hhi (by norm_num))⟩⟩
  case zero =>
    rw [truncQuotient_eq hb h0, tdiv_eq_zero_iff_abs_lt (divisor_ne_zero h0), val_eq_dividend a, val_eq_divisor h,
      abs_mul, abs_mul, mul_lt_mul_iff_left₀ (by positivity)]
    norm_cast
  case division =>
    have hdivision : (dividend a : ℚ) =
        (divisor a b : ℚ) * (dividend a).tdiv (divisor a b) + (dividend a).tmod (divisor a b) := by
      exact_mod_cast (Int.mul_tdiv_add_tmod _ _).symm
    rw [remainder_eq hb h0 h, truncQuotient_eq hb h0, val_eq_dividend a, val_eq_divisor h, hdivision]
    ring

/-! ## DIVINT, REM and DIVREM (R166 to R168): one division, two results -/

theorem DivRem_of_zero (h : sig b = 0) : DivRem a b = .error .divisionByZero := by rw [DivRem, if_pos h]

/-- Above the binary point the quotient has no fractional bits. -/
theorem DivRem_of_whole (h0 : sig b ≠ 0) (h : 32 ≤ expo a - expo b) :
    DivRem a b = (normalize (quotient a b) (expo a - expo b - 32)).map fun q => (q, ZERO) := by
  rcases DivRem_cases a b with ⟨_, _⟩ | ⟨_, _, e⟩ | ⟨_, _, _, _⟩ | ⟨_, _, _, _⟩
  case inr.inl => exact e
  all_goals omega

theorem DivRem_of_small (h0 : sig b ≠ 0) (h : expo a - expo b < 32) (hq : truncQuotient a b = 0) :
    DivRem a b = .ok (ZERO, a) := by
  rw [DivRem, if_neg h0, if_neg (by omega), if_pos hq]

/-- The truncated quotient always has a word, so only the remainder can overflow. -/
theorem DivRem_of_truncated (hb : isCanon b = true) (h0 : sig b ≠ 0) (h : expo a - expo b < 32)
    (hq : truncQuotient a b ≠ 0) :
    DivRem a b = (normalize (remainderInt a b) (min (expo a) (expo b))).map
      fun r => (normWord (truncQuotient a b) 0, r) := by
  have hle := natAbs_truncQuotient_le hb h0 h
  have hfits : fits (truncQuotient a b) 0 = true :=
    fits_of_bounds 33 (by norm_num) (by omega) (by omega) (by decide) (by decide)
  rcases DivRem_cases a b with ⟨_, _⟩ | ⟨_, _, _⟩ | ⟨_, _, hq0, _⟩ | ⟨_, _, _, e⟩
  case inr.inr.inr => rw [e, normalize_of_fits hfits]; rfl
  case inr.inr.inl => exact absurd hq0 hq
  all_goals omega

/-- The three commands on one answer of `DivRem`. -/
theorem integral_division {s : State} {rd rd2 rs1 rs2 : Reg} (hne : rd ≠ rd2) (ha : isCanon (s.reg rs1) = true)
    (hb : isCanon (s.reg rs2) = true) :
    (∀ q r, DivRem (s.reg rs1) (s.reg rs2) = .ok (q, r) →
      exec (.divint rd rs1 rs2) s = .next ((s.setReg rd q).complete 0) ∧
        exec (.rem rd rs1 rs2) s = .next ((s.setReg rd r).complete 0) ∧
        exec (.divrem rd rd2 rs1 rs2) s = .next (((s.setReg rd q).setReg rd2 r).complete 0)) ∧
    (∀ c, DivRem (s.reg rs1) (s.reg rs2) = .error c →
      exec (.divint rd rs1 rs2) s = .next (takeFault c s) ∧ exec (.rem rd rs1 rs2) s = .next (takeFault c s) ∧
        exec (.divrem rd rd2 rs1 rs2) s = .next (takeFault c s)) := by
  have hdivint := exec_scaled₂ (i := .divint rd rs1 rs2) (f := fun a b => (DivRem a b).map Prod.fst) rfl ha hb
  have hrem := exec_scaled₂ (i := .rem rd rs1 rs2) (f := fun a b => (DivRem a b).map Prod.snd) rfl ha hb
  have hdivrem : exec (.divrem rd rd2 rs1 rs2) s =
      .next (finishWrite₂ s rd rd2 (DivRem (s.reg rs1) (s.reg rs2))) := by
    rw [← withScaled₂_of_canon s rs1 rs2 DivRem ha hb]
    exact congrArg (fun r => Host.Outcome.next (finishWrite₂ s rd rd2 r)) (if_neg hne)
  refine ⟨fun q r h => ?_, fun c h => ?_⟩ <;> rw [hdivint, hrem, hdivrem, h]
  · exact ⟨rfl, rfl, rfl⟩
  · exact ⟨rfl, rfl, rfl⟩

/-- Settles O41. -/
theorem integralDivisionCompletes : Obligations.IntegralDivisionCompletes := by
  rintro s rd rd2 rs1 rs2 _ _ rfl rfl hne ha hb
  obtain ⟨completes, faults⟩ := integral_division hne ha hb
  refine ⟨fun q r h => completes q r ?_, fun h0 h => faults _ ?_, fun h0 => faults _ (DivRem_of_zero h0)⟩
  · rcases h with ⟨h0, hd, hf, rfl, rfl⟩ | ⟨h0, hd, hq, rfl, rfl⟩ | ⟨h0, hd, hq, hf, rfl, rfl⟩
    · rw [DivRem_of_whole h0 hd, quotient, normalize_of_fits hf]
      rfl
    · exact DivRem_of_small h0 hd hq
    · rw [DivRem_of_truncated hb h0 hd hq, normalize_of_fits hf]
      rfl
  · rcases h with ⟨hd, hf⟩ | ⟨hd, hq, hf⟩
    · rw [DivRem_of_whole h0 hd, quotient, normalize_of_not_fits hf]
      rfl
    · rw [DivRem_of_truncated hb h0 hd hq, normalize_of_not_fits hf]
      rfl

end Sys2Proof.Machine
end

section
/-! PROOFS. The constant ROM, the kernels, and LOG2 and POW2 around their kernels (spec/40_codec.md R113, R114,
spec/43_transcendental.md R212 to R223). -/

namespace Sys2Proof.Machine

variable {s : State} {rd rs1 : Reg} {a w : Word}

/-! ## The constant ROM (R113, R114) -/

theorem constRom_of_named {k : Imm8} (h : k.toNat ≤ 6) : constRom k = namedConstants[k.toNat]? := by
  rw [constRom, if_pos (by omega)]

theorem constRom_of_table {k : Imm8} (h : 32 ≤ k.toNat) : constRom k = pow10Table[k.toNat - 32]? := by
  rw [constRom, if_neg (by omega)]

theorem constRom_of_illegal {k : Imm8} (h : 6 < k.toNat) (h' : k.toNat < 32 ∨ 61 < k.toNat) : constRom k = none := by
  have hnamed : namedConstants.length = 7 := rfl
  have htable : pow10Table.length = 30 := rfl
  rw [constRom]
  split <;> rw [List.getElem?_eq_none_iff] <;> omega

theorem exec_ldc_of_some {k : Imm8} (h : constRom k = some w) :
    exec (.ldc rd k) s = .next ((s.setReg rd w).complete 0) :=
  next_finishWrite_ok (r := (constRom k).elim (.error .illegalCommand) .ok) rfl (by rw [h]; rfl)

theorem exec_ldc_of_none {k : Imm8} (h : constRom k = none) :
    exec (.ldc rd k) s = .next (takeFault .illegalCommand s) :=
  next_finishWrite_error (r := (constRom k).elim (.error .illegalCommand) .ok) rfl (by rw [h]; rfl)

/-- Settles O24. -/
theorem ldcLoadsTheConstant : Obligations.LdcLoadsTheConstant := by
  refine ⟨rfl, rfl, fun s rd k => ⟨fun h => ?_, fun hlo hhi => ?_, fun h h' => exec_ldc_of_none (constRom_of_illegal h h')⟩⟩
  · have hlt : k.toNat < namedConstants.length := Nat.lt_succ_of_le h
    have hk := List.getElem?_eq_getElem hlt
    have hrom := (constRom_of_named h).trans hk
    exact ⟨_, hk, isCanon_of_constRom hrom, exec_ldc_of_some hrom⟩
  · have hlt : k.toNat - 32 < pow10Table.length := by
      have : pow10Table.length = 30 := rfl
      omega
    have hk := List.getElem?_eq_getElem hlt
    have hrom := (constRom_of_table hlo).trans hk
    exact ⟨_, hk, isCanon_of_constRom hrom, exec_ldc_of_some hrom⟩

/-! ## The kernels (R212, R222) -/

theorem sig_toPositive_pos (w : Word) : 0 < sig (toPositive w) := by
  have := sig_toPositive_ge w
  omega

/-- A significand in positive canonical position has the top bits `01`. -/
theorem sigBits_of_topBits (h : w.extractLsb' 62 2 = 0b01#2) : 0b01#2 ++ w.extractLsb' 32 30 = sigBits w := by
  rw [← h, sigBits]
  apply BitVec.eq_of_getLsbD_eq
  intro i hi
  simp only [BitVec.getLsbD_append, BitVec.getLsbD_extractLsb']
  by_cases h30 : i < 30
  · simp [h30, hi]
  · simp [h30, hi, show i - 30 < 2 by omega, show 62 + (i - 30) = 32 + i by omega]

theorem toPositive_of_canon (hw : isCanon w = true) (hs : 0 < sig w) : toPositive w = w := by
  obtain ⟨hpos, hmin, _⟩ := canon_ranges hw hs.ne'
  have hexp : expBits w ≠ 0x80000000#32 := by
    intro h
    rw [expo, h] at hmin
    exact absurd hmin (by decide)
  rw [← append_fields (toPositive w), sigBits_toPositive, expBits_toPositive, if_neg hexp,
    sigBits_of_topBits ((topBits_pos w).mpr (by omega)), append_fields]

theorem isCanon_log2Frac (g : BitVec 32) : isCanon (log2Frac g) = true := isCanon_toPositive _

/-- Settles O53. -/
theorem kernelsAreWellFormed : Obligations.KernelsAreWellFormed :=
  ⟨fun g => ⟨isCanon_log2Frac g, sig_toPositive_pos _⟩, fun _ => ⟨isCanon_toPositive _, sig_toPositive_pos _⟩,
    fun _ => toPositive_of_canon⟩

/-! ## LOG2 and LOG2I (R213, R214) -/

theorem ZERO_ADD (ha : isCanon a = true) : ADD ZERO a = .ok a := by
  by_cases h0 : sig a = 0
  · rw [eq_zero_of_canon ha h0]
    decide
  have hlt := expo_lt_of_zero isCanon_ZERO ha sig_ZERO h0
  by_cases h : expo ZERO - expo a ≤ -32
  · exact ADD_of_below h
  · rw [ADD_of_aligned_left (by omega) (by omega), sig_ZERO, shiftFloor_eq_div, Int.zero_ediv, zero_add,
      normalize_canon ha]

/-- The integer logarithm always has a word (R213). -/
theorem fits_logarithm (a : Word) : fits (expo a + log2Bias) 0 = true := by
  have := expo_ge a
  have := expo_lt a
  exact fits_of_bounds 32 (by norm_num) (by rw [log2Bias]; omega) (by rw [log2Bias]; omega) (by decide) (by decide)

theorem LOG2_of_nonpos (h : sig a ≤ 0) : LOG2 a = .error .domainError := by rw [LOG2, if_pos h]

theorem LOG2I_of_nonpos (h : sig a ≤ 0) : LOG2I a = .error .domainError := by rw [LOG2I, if_pos h]

theorem LOG2I_of_pos (h : 0 < sig a) : LOG2I a = .ok (trunc64 (expo a + log2Bias)) := by rw [LOG2I, if_neg (by omega)]

/-- R213 away from the powers of two: the integer logarithm plus the kernel's word. -/
theorem LOG2_eq_ADD (h : 0 < sig a) (h2 : sig a ≠ 2 ^ 30) :
    LOG2 a = ADD (normWord (expo a + log2Bias) 0) (log2Frac (sigBits a)) := by
  rw [LOG2_of_other a (by omega) h2, normalize_of_fits (fits_logarithm a)]
  rfl

/-- Settles O54. -/
theorem logarithmsComplete : Obligations.LogarithmsComplete := by
  rintro s rd rs1 _ rfl ha
  have hlog := exec_scaled (i := .log2 rd rs1) (f := LOG2) rfl ha
  have hlogi := exec_scaled (i := .log2i rd rs1) (f := LOG2I) rfl ha
  have hi := normalize_of_fits (fits_logarithm (s.reg rs1))
  refine ⟨by rw [hlog]; exact endsAs_finishWrite s rd _,
    fun h => ⟨next_finishWrite_error hlog (LOG2_of_nonpos h), next_finishWrite_error hlogi (LOG2I_of_nonpos h)⟩,
    fun h => ⟨next_finishWrite_ok hlogi (LOG2I_of_pos h), ?binade⟩, fun h => ⟨_, hi, next_finishWrite_ok hlog ?_, ?exact⟩,
    fun h h2 hexp => next_finishWrite_ok hlog ?kernel, fun h h2 => ⟨_, hi, ?sum⟩⟩
  case binade =>
    rw [add_assoc]
    exact val_binade_of_pos ha h
  case exact =>
    intro hsmall
    obtain ⟨w, hw, _, hval, _⟩ := normalize_int_of_small hsmall
    obtain rfl := Except.ok.inj (hi.symm.trans hw)
    exact hval
  case kernel =>
    rw [LOG2_eq_ADD h h2, hexp, log2Bias, show (-30 + 30 : Int) = 0 by norm_num, normWord_zero,
      ZERO_ADD (isCanon_log2Frac _)]
  case sum =>
    rw [hlog, LOG2_eq_ADD h h2]
    exact endsAs_finishWrite s rd _
  · rw [LOG2_of_power _ (by omega) h, hi]

/-! ## POW2 (R223): the split at the binary point -/

theorem fracSig_eq (a : Word) : fracSig a = sig a - intPart a * 2 ^ (-expo a).toNat := by
  rw [fracSig, intPart]
  split <;> simp

/-- The fraction is smaller than one, no greater than the operand, and on its side of zero. -/
theorem fracSig_bounds (a : Word) :
    |fracSig a| < 2 ^ (-expo a).toNat ∧ (0 ≤ sig a → 0 ≤ fracSig a ∧ fracSig a ≤ sig a) ∧
      (sig a ≤ 0 → sig a ≤ fracSig a ∧ fracSig a ≤ 0) := by
  by_cases hk : 32 ≤ (-expo a).toNat
  · have hpow : (2 : Int) ^ 32 ≤ 2 ^ (-expo a).toNat := pow_le_pow_right₀ (by norm_num) hk
    have := sig_abs_le a
    rw [fracSig, if_pos hk]
    omega
  · have hfrac : fracSig a = (sig a).tmod (2 ^ (-expo a).toNat) := by
      rw [fracSig_eq, intPart, if_neg hk, Int.tmod_def, mul_comm]
    have hpow : (0 : Int) < 2 ^ (-expo a).toNat := by positivity
    have hlt := abs_tmod_lt (x := sig a) hpow.ne'
    have hle := abs_tmod_le (sig a) (2 ^ (-expo a).toNat)
    obtain ⟨hnonneg, hnonpos⟩ := tmod_sign (sig a) (2 ^ (-expo a).toNat)
    rw [abs_of_pos hpow] at hlt
    rw [hfrac]
    refine ⟨hlt, fun hs => ?_, fun hs => ?_⟩
    · rw [abs_of_nonneg hs, abs_le] at hle
      exact ⟨hnonneg hs, hle.2⟩
    · rw [abs_of_nonpos hs, abs_le, neg_neg] at hle
      exact ⟨hle.1, hnonpos hs⟩

/-- The operand is its integer part plus the fraction. -/
theorem val_eq_intPart_add (h : expo a ≤ 0) : val a = intPart a + (fracSig a : ℚ) * 2 ^ expo a := by
  have hscale : (2 : ℚ) ^ (-expo a).toNat * 2 ^ expo a = 1 := by
    rw [two_zpow_of_nonpos h, mul_inv_cancel₀ (by positivity)]
  rw [fracSig_eq, val]
  push_cast
  linear_combination (intPart a : ℚ) * hscale

/-- The fraction keeps the operand's significand, or its exponent is moderate: it has a word, exactly. -/
theorem normalize_fraction (ha : isCanon a = true) (h0 : sig a ≠ 0) :
    fits (fracSig a) (expo a) = true ∧ normShift (fracSig a) ≤ 0 := by
  obtain ⟨_, hnonneg, hnonpos⟩ := fracSig_bounds a
  have hrange : -2 ^ 31 ≤ fracSig a ∧ fracSig a < 2 ^ 31 := by
    have := sig_ge a
    have := sig_lt a
    omega
  refine ⟨?_, by simpa using normShift_le (n := 31) hrange.1 hrange.2 (by norm_num)⟩
  by_cases hk : 32 ≤ (-expo a).toNat
  · rw [fracSig, if_pos hk]
    exact (normalize_eq_ok (normalize_canon ha)).1
  · obtain ⟨_, _, hmax⟩ := canon_ranges ha h0
    exact fits_of_bounds 31 (by norm_num) hrange.1 hrange.2 (by rw [expMin]; omega) (by simpa using hmax)

/-- The fraction of an operand that is no integer: a word of magnitude below one, on the operand's side of zero. -/
theorem exists_fraction (ha : isCanon a = true) (hexp : expo a ≤ 0) (hint : ∀ n : Int, val a ≠ n) :
    ∃ f, isCanon f = true ∧ val a = intPart a + val f ∧ |val f| < 1 ∧ (0 < sig f ↔ 0 < sig a) ∧
      POW2 a = normalize (sig (pow2Frac f)) (expo (pow2Frac f) + intPart a) := by
  have h0 : sig a ≠ 0 := fun h => hint 0 (by rw [(val_eq_zero_iff a).mpr h, Int.cast_zero])
  have hsplit := val_eq_intPart_add hexp
  have hfrac : fracSig a ≠ 0 := fun h => hint (intPart a) (by rw [hsplit, h]; simp)
  obtain ⟨hlt, hnonneg, hnonpos⟩ := fracSig_bounds a
  obtain ⟨hfits, hshift⟩ := normalize_fraction ha h0
  have hval := val_normWord hshift hfits
  refine ⟨normWord (fracSig a) (expo a), isCanon_normWord hfits, by rw [hval, hsplit], ?_, ?_, ?_⟩
  · rw [hval, two_zpow_of_nonpos hexp, abs_mul, abs_of_pos (by positivity : (0 : ℚ) < (2 ^ (-expo a).toNat)⁻¹),
      ← div_eq_mul_inv, div_lt_one (by positivity)]
    exact_mod_cast hlt
  · rw [← val_pos_iff, hval, mul_pos_iff_of_pos_right (by positivity), Int.cast_pos]
    omega
  · rw [POW2_of_fraction a h0 (by omega) hfrac, normalize_of_fits hfits]
    rfl

theorem POW2_of_zero (h : sig a = 0) : POW2 a = .ok ONE := by rw [POW2, if_pos h]

/-- Zero has the least exponent field, so an exponent field above 0 is that of a non-zero word. -/
theorem POW2_of_expo_pos (ha : isCanon a = true) (h : 0 < expo a) : POW2 a = .error .overflow := by
  have h0 : sig a ≠ 0 := by
    intro h0
    rw [eq_zero_of_canon ha h0, expo_ZERO] at h
    omega
  rw [POW2, if_neg h0, if_pos h]

/-- Settles O55. -/
theorem powersOfTwoComplete : Obligations.PowersOfTwoComplete := by
  rintro s rd rs1 _ rfl ha
  have hexec := exec_scaled (i := .pow2 rd rs1) (f := POW2) rfl ha
  refine ⟨by rw [hexec]; exact endsAs_finishWrite s rd _, fun h => next_finishWrite_ok hexec (POW2_of_zero h),
    fun h => next_finishWrite_error hexec (POW2_of_expo_pos ha h), fun n hn hexp h => next_finishWrite_ok hexec ?_,
    fun n hn hexp h => next_finishWrite_error hexec ?_, fun hint hexp => ?_⟩
  · obtain ⟨_, hhi⟩ := int_bounds_of_val_eq hn hexp
    rw [POW2_of_val_eq hn hexp, powTwoWord_of_range (by rw [expMin]; omega) (by rw [expMax]; omega)]
  · rw [POW2_of_val_eq hn hexp, powTwoWord_of_not_range (.inl (by rw [expMin]; omega))]
  · obtain ⟨f, hf, hval, hlt, hsign, hpow⟩ := exists_fraction ha hexp hint
    exact ⟨f, hf, hval, hlt, hsign, writesNormalized_of_eq hexec hpow⟩

end Sys2Proof.Machine
end

section
/-! PROOFS. POW10 and POW (spec/43_transcendental.md R210, R233, R240): the walk over the set bits of the exponent, and the
steps of POW in their order. -/

namespace Sys2Proof.Machine

variable {s : State} {rd rs1 rs2 : Reg} {b e w : Word} {m n : Int}

/-! ## POW10 (R233) -/

/-- One multiplication of the walk: the table entry of the bit `k`. -/
def mulEntry (acc : Word) (k : Nat) : Except Cause Word := MUL acc (pow10Table.getD k ZERO)

/-- The walk multiplies in the entries of the set bits, in ascending order. -/
theorem pow10Walk_eq_foldlM (m : Nat) (ts : List Word) : ∀ (k : Nat) (acc : Word), pow10Table.drop k = ts →
    pow10Walk m k acc ts = ((List.range' k ts.length).filter m.testBit).foldlM mulEntry acc := by
  induction ts with
  | nil => exact fun _ _ _ => rfl
  | cons t ts ih =>
    intro k acc hdrop
    have hentry : pow10Table.getD k ZERO = t := by
      rw [List.getD_eq_getElem?_getD, ← List.head?_drop, hdrop, List.head?_cons, Option.getD_some]
    have htail : pow10Table.drop (k + 1) = ts := by rw [← List.tail_drop, hdrop, List.tail_cons]
    rw [pow10Walk_cons, List.length_cons, List.range'_succ, List.filter_cons]
    split
    · rw [List.foldlM_cons, mulEntry, hentry]
      exact congrArg (Except.bind (MUL acc t)) (funext fun acc' => ih (k + 1) acc' htail)
    · exact ih (k + 1) acc htail

theorem pow10Walk_table (m : Nat) :
    pow10Walk m 0 ONE pow10Table = ((List.range 30).filter m.testBit).foldlM mulEntry ONE := by
  rw [pow10Walk_eq_foldlM m pow10Table 0 ONE rfl, List.range_eq_range']
  rfl

theorem POW10_of_large (h : 2 ^ 30 ≤ |n|) : POW10 n = .error .overflow := by
  rw [POW10, if_pos (by rw [le_abs] at h; omega)]

theorem POW10_of_nonneg (h : 0 ≤ n) (hlt : n < 2 ^ 30) :
    POW10 n = ((List.range 30).filter n.toNat.testBit).foldlM mulEntry ONE := by
  rw [POW10, if_neg (by omega), ← pow10Walk_table, show n.natAbs = n.toNat by omega]
  simp only [if_neg (not_lt.mpr h)]
  cases pow10Walk n.toNat 0 ONE pow10Table <;> rfl

/-- A negative exponent ends with the reciprocal of the positive power. -/
theorem POW10_of_neg (h : n < 0) : POW10 n = POW10 (-n) >>= DIV ONE := by
  rw [POW10, POW10, Int.natAbs_neg]
  split
  · rfl
  · simp only [if_neg (show ¬ -n < 0 by omega)]
    cases pow10Walk n.natAbs 0 ONE pow10Table <;> rfl

/-- A power of two has one set bit, whose entry multiplies ONE. -/
theorem POW10_two_pow {k : Nat} (hw : pow10Table[k]? = some w) : POW10 (2 ^ k) = .ok w := by
  obtain ⟨hk, _⟩ := List.getElem?_eq_some_iff.mp hw
  have hk30 : k < 30 := hk
  have hcanon : isCanon w = true := List.all_eq_true.mp (by decide) w (List.mem_of_getElem? hw)
  have hlt : (2 : Int) ^ k < 2 ^ 30 := pow_lt_pow_right₀ (by norm_num) hk30
  have hnat : ((2 : Int) ^ k).toNat = 2 ^ k := by exact_mod_cast Int.toNat_natCast (2 ^ k)
  have hbits : (List.range 30).filter (2 ^ k).testBit = [k] := by
    have htest : (2 ^ k).testBit = fun j => decide (j = k) :=
      funext fun j => by rw [Nat.testBit_two_pow, decide_eq_decide, eq_comm]
    rw [htest, List.filter_eq, List.count_eq_one_of_mem List.nodup_range (List.mem_range.mpr hk30)]
    rfl
  rw [POW10_of_nonneg (by positivity) hlt, hnat, hbits, List.foldlM_cons, mulEntry, List.getD_eq_getElem?_getD, hw,
    Option.getD_some, ONE_MUL hcanon]
  rfl

/-- The powers whose `5^n` fits a significand, checked one by one. -/
theorem POW10_small : ∀ n : Fin 14, POW10 (n : Nat) = normalize (5 ^ (n : Nat)) (n : Nat) := by decide

theorem POW10_exact (h : 0 ≤ n) (h13 : n ≤ 13) : ∃ w, POW10 n = .ok w ∧ val w = 10 ^ n.toNat := by
  obtain ⟨k, rfl⟩ := Int.eq_ofNat_of_zero_le h
  have hsmall := POW10_small ⟨k, by omega⟩
  have hlt : (5 : Int) ^ k < 2 ^ 31 :=
    (pow_le_pow_right₀ (by norm_num) (by omega : k ≤ 13)).trans_lt (by norm_num)
  have hlo : (-2 : Int) ^ 31 ≤ 5 ^ k := by
    have : (0 : Int) < 5 ^ k := by positivity
    omega
  have hf : fits (5 ^ k) k = true :=
    fits_of_bounds 31 (by norm_num) hlo hlt (by rw [expMin]; omega) (by rw [expMax]; omega)
  have hshift : normShift (5 ^ k) ≤ 0 := by simpa using normShift_le (n := 31) hlo hlt (by norm_num)
  refine ⟨_, hsmall.trans (normalize_of_fits hf), ?_⟩
  rw [val_normWord hshift hf, Int.toNat_natCast, zpow_natCast]
  push_cast
  rw [← mul_pow]
  norm_num

/-- Settles O57. -/
theorem powersOfTenComplete : Obligations.PowersOfTenComplete := by
  rintro s rd rs1 _ rfl
  have hexec : exec (.pow10 rd rs1) s = .next (finishWrite s rd (POW10 (s.reg rs1).toInt)) := rfl
  refine ⟨by rw [hexec]; exact endsAs_finishWrite s rd _, POW10_of_nonneg,
    fun h => next_finishWrite_error hexec (POW10_of_large h),
    fun k w hw hn => next_finishWrite_ok hexec (by rw [hn, POW10_two_pow hw]), fun h h13 => ?_, fun h => ?_⟩
  · obtain ⟨w, hw, hval⟩ := POW10_exact h h13
    exact ⟨w, next_finishWrite_ok hexec hw, hval⟩
  · rw [hexec, POW10_of_neg h]
    exact endsAs_finishWrite s rd _

/-! ## Integers and their parity (R210) -/

/-- `IsInt` says that the value is an integer. -/
theorem isInt_eq_true_iff : isInt e = true ↔ ∃ m : Int, val e = m := by
  rw [isInt_iff]
  constructor
  · rintro (h | h | ⟨_, hmod⟩)
    · exact ⟨0, by rw [(val_eq_zero_iff e).mpr h, Int.cast_zero]⟩
    · exact ⟨_, val_of_expo_nonneg h⟩
    · by_cases he : 0 ≤ expo e
      · exact ⟨_, val_of_expo_nonneg he⟩
      · refine ⟨sig e / 2 ^ (-expo e).toNat, ?_⟩
        rw [val_of_expo_nonpos (by omega), div_eq_iff (by positivity)]
        exact_mod_cast (Int.ediv_mul_cancel (Int.dvd_of_emod_eq_zero hmod)).symm
  · rintro ⟨m, hm⟩
    by_cases he : 0 ≤ expo e
    · exact .inr (.inl he)
    by_cases hs : sig e = 0
    · exact .inl hs
    exact .inr (.inr ⟨neg_expo_lt_of_val_eq hm (by omega) hs, by rw [sig_eq_of_val_eq hm (by omega), Int.mul_emod_left]⟩)

/-- The bit of the significand below the top is that of the unsigned field, for either sign. -/
theorem getLsbD_sigBits {k : Nat} (hk : k < 32) (hs : sig e = m * 2 ^ k) :
    (sigBits e).getLsbD k = true ↔ m % 2 = 1 := by
  obtain ⟨c, hc⟩ : ∃ c : Int, ((sigBits e).toNat : Int) = m * 2 ^ k + c * 2 ^ 32 := by
    rw [sig, BitVec.toInt_eq_toNat_cond] at hs
    split at hs
    · exact ⟨0, by omega⟩
    · exact ⟨1, by omega⟩
  have hsplit : (2 : Int) ^ 32 = 2 * 2 ^ (31 - k) * 2 ^ k := by
    rw [mul_assoc, ← pow_add, ← pow_succ', show 31 - k + k + 1 = 32 by omega]
  have hdiv : ((sigBits e).toNat : Int) / 2 ^ k = m + 2 * (c * 2 ^ (31 - k)) := by
    rw [hc, hsplit, show m * 2 ^ k + c * (2 * 2 ^ (31 - k) * 2 ^ k) = (m + 2 * (c * 2 ^ (31 - k))) * 2 ^ k by ring,
      Int.mul_ediv_cancel _ (by positivity)]
  have hparity : ((sigBits e).toNat / 2 ^ k % 2 = 1) ↔ ((sigBits e).toNat : Int) / 2 ^ k % 2 = 1 := by norm_cast
  rw [BitVec.getLsbD, Nat.testBit_eq_decide_div_mod_eq, decide_eq_true_iff, hparity, hdiv]
  omega

/-- On an integer other than zero, `IsOdd` says that it is odd. -/
theorem isOdd_iff (hm : val e = m) (hs : sig e ≠ 0) : isOdd e = true ↔ m % 2 = 1 := by
  by_cases he : expo e ≤ 0
  · have hk := neg_expo_lt_of_val_eq hm he hs
    rw [← getLsbD_sigBits hk (sig_eq_of_val_eq hm he)]
    simp [isOdd, hs, he, hk]
  · have heven : m = sig e * 2 ^ ((expo e).toNat - 1) * 2 := by
      rw [mul_assoc, ← pow_succ, Nat.sub_add_cancel (by omega), mul_two_pow_eq_of_zpow hm (by omega)]
    have hodd : isOdd e = false := by simp [isOdd, he]
    rw [hodd, heven]
    simp

/-! ## The steps of POW (R240) -/

/-- Step 1: zero to a negative power. -/
theorem POW_of_zero_base_neg (hb : sig b = 0) (he : sig e < 0) : POW b e = .error .domainError :=
  POW_of_fast (by rw [powFast, if_neg he.ne, if_pos hb, if_neg (by omega)])

/-- Step 3: no failure to get a 32-bit integer is a RangeError of POW. -/
theorem POW_TEN_of_no_int32 (h : ∀ m : Int, val e = m → ¬ (-2 ^ 31 ≤ m ∧ m ≤ 2 ^ 31 - 1)) :
    POW TEN e = .error .overflow := by
  have hs : sig e ≠ 0 := fun hs =>
    h 0 (by rw [(val_eq_zero_iff e).mpr hs, Int.cast_zero]) (by norm_num)
  have hint : toInteger e i32Min i32Max = .error .rangeError :=
    toInteger_of_no_integer (by decide) (by decide) (by decide) (by decide) h
  rw [POW_TEN hs, powOfTenBase, hint]

/-- Step 2 does not apply when the product of logarithm and exponent is no integer; the cut at 64 finds none (log 12). -/
theorem powTwoExponent_of_no_product (h : ∀ T : Int, ((expo b : ℚ) + 30) * val e ≠ T) : powTwoExponent b e = none := by
  have hprod : ((expo b : ℚ) + 30) * val e = ((expo b + log2Bias) * sig e : Int) * (2 : ℚ) ^ expo e := by
    rw [val, log2Bias]
    push_cast
    ring
  rw [hprod] at h
  by_cases he : 0 ≤ expo e
  · refine absurd ?_ (h ((expo b + log2Bias) * sig e * 2 ^ (expo e).toNat))
    rw [two_zpow_of_nonneg he]
    push_cast
    rfl
  obtain ⟨p, hp⟩ : ∃ p, (expo b + log2Bias) * sig e = p := ⟨_, rfl⟩
  have hlt : |p| < 2 ^ 64 := hp ▸ abs_log_mul_sig_lt b e
  rw [hp] at h
  rw [powTwoExponent, if_neg he]
  dsimp only
  rw [hp, if_neg]
  intro hmod
  by_cases hk : (-expo e).toNat ≤ 64
  · rw [min_eq_left hk] at hmod
    refine h (p / 2 ^ (-expo e).toNat) ?_
    rw [two_zpow_of_nonpos (by omega), ← div_eq_mul_inv, div_eq_iff (by positivity)]
    exact_mod_cast (Int.ediv_mul_cancel (Int.dvd_of_emod_eq_zero hmod)).symm
  · rw [min_eq_right (by omega)] at hmod
    have hp0 : p = 0 := Int.eq_zero_of_abs_lt_dvd (Int.dvd_of_emod_eq_zero hmod) hlt
    exact h 0 (by simp [hp0])

/-- A base on no fast path. -/
theorem powFast_eq_none (he : sig e ≠ 0) (hb : sig b ≠ 0) (h2 : sig b = 2 ^ 30 → powTwoExponent b e = none)
    (h10 : b ≠ TEN) (hTWO : e ≠ TWO) : powFast b e = none := by
  have hbase : powOfTwoBase b e = none := by
    rw [powOfTwoBase]
    split
    · next h => rw [h2 h, Option.map_none]
    · rfl
  rw [powFast, if_neg he, if_neg hb, hbase]
  simp only [if_neg h10, if_neg hTWO]

/-- Step 6. -/
theorem POW_of_general (hfast : powFast b e = none) (hb : 0 ≤ sig b) : POW b e = powGeneral b e := by
  rw [POW, hfast, Option.getD_none, if_neg (by omega)]

/-- Step 5. -/
theorem POW_of_negative (hb : sig b < 0) (he : sig e ≠ 0) (hTWO : e ≠ TWO) : POW b e = powNegative b e := by
  have h10 : b ≠ TEN := by
    rintro rfl
    exact absurd hb (by decide)
  rw [POW, powFast_eq_none he hb.ne (by omega) h10 hTWO, Option.getD_none, if_pos hb]

/-- Settles O58. -/
theorem powStepsInOrder : Obligations.PowStepsInOrder := by
  rintro s rd rs1 rs2 b e rfl rfl hb he
  have hexec := exec_scaled₂ (i := .pow rd rs1 rs2) (f := POW) rfl hb he
  refine ⟨by rw [hexec]; exact endsAs_finishWrite s rd _, fun h => next_finishWrite_ok hexec (POW_of_zero_exponent h),
    fun h₁ h₂ => next_finishWrite_ok hexec (POW_of_zero_base h₁ h₂),
    fun h₁ h₂ => next_finishWrite_error hexec (POW_of_zero_base_neg h₁ h₂),
    fun h₁ h₂ => next_finishWrite_error hexec (by rw [h₁, POW_TEN_of_no_int32 h₂]),
    fun h => writesNormalized_of_eq hexec (by rw [h, POW_TWO]; rfl), fun h₁ h₂ h10 h0 hTWO => ?_⟩
  rw [hexec, POW_of_general (powFast_eq_none h0 h₁.ne' (fun h => powTwoExponent_of_no_product (h₂ h)) h10 hTWO) h₁.le]
  exact endsAs_finishWrite s rd _

theorem sig_pos_of_NEG (hb : isCanon b = true) (hs : sig b < 0) (h : NEG b = .ok w) : 0 < sig w := by
  rw [← val_pos_iff, (val_of_NEG hb h).2, neg_pos]
  exact val_neg hs

/-- Settles O59. -/
theorem powOfANegativeBase : Obligations.PowOfANegativeBase := by
  intro b e hb _ hs h0 hTWO
  rw [POW_of_negative hs h0 hTWO, powNegative]
  refine ⟨fun h => ?_, fun m hm => ?_, fun m hm hsig hexp => ?_⟩
  · rw [if_neg]
    rw [isInt_eq_true_iff]
    exact fun ⟨m, hm⟩ => h m hm
  · rw [if_pos (isInt_eq_true_iff.mpr ⟨m, hm⟩)]
    cases hneg : NEG b with
    | error c => rfl
    | ok nb =>
      have hnb := powNonNegative_eq_POW nb e (sig_pos_of_NEG hb hs hneg).le
      simp only [isOdd_iff hm h0]
      exact congrArg (fun x => Except.bind x fun r => if m % 2 = 1 then NEG r else .ok r) hnb
  · rw [if_pos (isInt_eq_true_iff.mpr ⟨m, hm⟩), NEG_of_overflows (.inl ⟨hsig, hexp⟩)]
    rfl

end Sys2Proof.Machine
end

section
/-! PROOFS. What the operations over the state leave in each part of it, and the commands and host events that are nothing
but one such operation (spec/10_state.md R31, R38, spec/30_encoding.md R70 to R78, spec/44_system.md, spec/60_exceptions.md
R280, spec/70_reset_and_hazards.md R310). -/

namespace Sys2Proof.Machine

/-! ## STATUS, bit by bit (R32) -/

theorem getLsbD_setF_of_ne (f : Bool) (st : BitVec 32) {n : Nat} (h : n ≠ 0) :
    (setF f st).getLsbD n = st.getLsbD n := by
  by_cases hn : n < 32
  · simp only [setF, BitVec.getLsbD_or, BitVec.getLsbD_and, BitVec.getLsbD_not, BitVec.getLsbD_setWidth,
      BitVec.getLsbD_ofBool, BitVec.getLsbD_one]
    simp [h, hn]
  · rw [BitVec.getLsbD_of_ge _ _ (by omega), BitVec.getLsbD_of_ge _ _ (by omega)]

theorem getLsbD_setCause_of_other (c : BitVec 4) (st : BitVec 32) {n : Nat} (h : n < 4 ∨ 8 ≤ n) :
    (setCause c st).getLsbD n = st.getLsbD n := by
  by_cases hn : n < 32
  · have hmask : (0xF0#32).getLsbD n = false :=
      (by decide : ∀ k < 32, k < 4 ∨ 8 ≤ k → (0xF0#32).getLsbD k = false) n hn h
    have hcause : (!decide (n < 4) && c.getLsbD (n - 4)) = false := by
      rcases h with h | h
      · simp [h]
      · rw [BitVec.getLsbD_of_ge _ _ (by omega), Bool.and_false]
    simp only [setCause, BitVec.getLsbD_or, BitVec.getLsbD_and, BitVec.getLsbD_not, BitVec.getLsbD_shiftLeft,
      BitVec.getLsbD_setWidth, hmask]
    simp only [Bool.and_eq_false_iff] at hcause
    rcases hcause with hc | hc <;> simp [hc, hn]
  · rw [BitVec.getLsbD_of_ge _ _ (by omega), BitVec.getLsbD_of_ge _ _ (by omega)]

/-- Settles O15. -/
theorem faultEntryRecordsTheFault : Obligations.FaultEntryRecordsTheFault := fun c s =>
  ⟨fun r => takeFault_reg s r c, statusF_takeFault c s, statusCause_takeFault c s,
    fun n h0 h => by rw [takeFault_status, getLsbD_setCause_of_other _ _ h, getLsbD_setF_of_ne _ _ h0],
    takeFault_fcmd s c, takeFault_fcc s c, takeFault_cc s c, takeFault_response s c, takeFault_host s c⟩

/-- Settles O16. -/
theorem completingWritesOneRegister : Obligations.CompletingWritesOneRegister := fun s rd w d =>
  ⟨fun r => by rw [complete_reg, reg_setReg], fun r => complete_reg s r d, rfl, rfl⟩

/-! ## The system commands, the raw moves and ROUNDTO -/

theorem csr_of_large {s : State} {n : Imm8} (h : 3 < n.toNat) : s.csr n = none := by
  rw [State.csr]
  split
  case h_5 => rfl
  all_goals omega

/-- Settles O22. -/
theorem systemCommandsComplete : Obligations.SystemCommandsComplete := by
  refine fun s => ⟨rfl, rfl, rfl, rfl, fun n h => ?illegal, ⟨setF false s.status, rfl, statusF_setF _ _, fun n h0 =>
    getLsbD_setF_of_ne _ _ h0⟩, rfl⟩
  case illegal =>
    exact congrArg (fun r => Host.Outcome.next (finishRead s (r.elim (.error .illegalCommand) .ok))) (csr_of_large h)

/-- Settles O23. -/
theorem wordMovesComplete : Obligations.WordMovesComplete := fun _ _ _ => ⟨rfl, rfl, rfl⟩

/-- Settles O46: the command is fault entry with cause 5. -/
theorem roundtoIsUnimplemented : Obligations.RoundtoIsUnimplemented := fun s _ _ _ =>
  ⟨takeFault .unimplemented s, rfl, takeFault_x .., statusF_takeFault .., statusCause_takeFault .., takeFault_fcmd ..,
    takeFault_fcc .., takeFault_cc .., takeFault_response ..⟩

/-! ## Reset and the transaction that runs a command -/

theorem hostReset_reg (s : State) (r : Reg) : (hostReset s).reg r = ZERO := reset_reg r

/-- Settles O8. -/
theorem resetRestoresEveryRegister : Obligations.ResetRestoresEveryRegister := by
  refine ⟨reset_reg, rfl, rfl, rfl, rfl, rfl, fun s rest hhost => ?_⟩
  exact ⟨_, step_of_reset s _ (fetch_reset s hhost), hostReset_reg _, rfl, rfl, rfl, rfl, rfl⟩

theorem step_of_run_command {s : State} {cmd : CmdWord} {w : Word} {rest : List HostEvent} {i : Instr}
    (hhost : s.host = .command cmd w :: rest) (hskip : (s.latch cmd w rest).skips = false) (hdecode : decode cmd = .ok i) :
    step s = exec i (s.latch cmd w rest) := by
  refine step_of_run s _ ((fetch_command s hhost).trans ?_)
  rcases classify_cases (s.latch cmd w rest) with ⟨hskips, _⟩ | ⟨_, j, hj, hclass⟩ | ⟨_, _, herror, _⟩
  · simp [hskip] at hskips
  · obtain rfl := Except.ok.inj (hdecode.symm.trans hj)
    exact hclass
  · exact absurd (hdecode.symm.trans herror) nofun

/-- Settles O5. -/
theorem stepRunsTheDecodedCommand : Obligations.StepRunsTheDecodedCommand :=
  fun _ _ _ _ _ hhost hpass hdecode => step_of_run_command hhost (skips_latch_eq_false_iff.mpr hpass) hdecode

/-- The record of a unit that has raised no fault, and no response yet. -/
theorem inv_hostReset (s : State) : Inv (hostReset s) where
  reservedClear := show statusRead 0 = 0 by decide
  record := .inl ⟨show statusCause 0 = 0 by decide, show statusF 0 = false by decide, rfl, rfl⟩
  answer := nofun

/-- Settles O19. -/
theorem invariantHoldsAtReset : Obligations.InvariantHoldsAtReset := inv_hostReset State.reset

end Sys2Proof.Machine
end

section
/-! PROOFS. Which causes each semantic function can raise (spec/41_arithmetic.md R181, spec/60_exceptions.md R273 to R278).
No function but an operand check raises InvalidOperand, and a power of ten is never zero, so its reciprocal raises no
DivisionByZero. -/

namespace Sys2Proof.Machine

/-! ## Causes through the steps of a function -/

/-- Every cause the function raises is in the list. -/
def Raises {α : Type} (cs : List Cause) (r : Except Cause α) : Prop := ∀ c, r = .error c → c ∈ cs

section Raises
variable {α β : Type} {cs cs' : List Cause}

theorem raises_ok (v : α) : Raises cs (.ok v : Except Cause α) := nofun

theorem raises_error {c : Cause} (h : c ∈ cs) : Raises cs (.error c : Except Cause α) := by
  rintro _ ⟨⟩; exact h

theorem raises_mono {r : Except Cause α} (hsub : cs ⊆ cs') (h : Raises cs r) : Raises cs' r := fun c hc => hsub (h c hc)

theorem raises_ite {p : Prop} [Decidable p] {x y : Except Cause α} (hx : Raises cs x) (hy : Raises cs y) :
    Raises cs (if p then x else y) := by
  split <;> assumption

/-- What follows is asked about only for the values that are answered. -/
theorem raises_bind {P : α → Prop} {x : Except Cause α} {f : α → Except Cause β} (hP : Answers P x) (hx : Raises cs x)
    (hf : ∀ v, P v → Raises cs (f v)) : Raises cs (x.bind f) := by
  cases x with
  | ok v => exact hf v (hP v rfl)
  | error c => exact raises_error (hx c rfl)

theorem answers_true (x : Except Cause α) : Answers (fun _ => True) x := fun _ _ => trivial

theorem raises_map {x : Except Cause α} {f : α → β} (hx : Raises cs x) : Raises cs (x.map f) := by
  cases x with
  | ok v => exact raises_ok (f v)
  | error c => exact raises_error (hx c rfl)

end Raises

/-! ## The normalizer and the arithmetic core -/

section Arithmetic
variable {a b c w : Word} {S E : Int}

theorem raises_normalize (S E : Int) : Raises [.overflow] (normalize S E) := fun c h => by
  simp [(normalize_eq_error h).2]

theorem raises_normalize_of_fits (h : fits S E = true) : Raises [] (normalize S E) := by
  rw [normalize_of_fits h]
  exact raises_ok _

theorem raises_FROMF64 (d : Word) : Raises [.domainError] (FROMF64 d) :=
  raises_ite (raises_error (by decide)) (raises_mono (List.nil_subset _) (raises_normalize_of_fits (fits_double d)))

theorem raises_toInteger (a : Word) (lo hi : Int) : Raises [.rangeError] (toInteger a lo hi) := fun c h => by
  simp [toInteger_error a h]

theorem raises_NEG (a : Word) : Raises [.overflow] (NEG a) := raises_normalize _ _

theorem raises_ABS (a : Word) : Raises [.overflow] (ABS a) := raises_ite (raises_NEG a) (raises_ok a)

theorem raises_ADD (a b : Word) : Raises [.overflow] (ADD a b) := by
  rcases ADD_cases a b with ⟨_, e⟩ | ⟨_, e⟩ | ⟨_, _, e⟩ | ⟨_, _, e⟩ <;> rw [e]
  · exact raises_ok a
  · exact raises_ok b
  · exact raises_normalize _ _
  · exact raises_normalize _ _

theorem raises_SUB (a b : Word) : Raises [.overflow] (SUB a b) := by
  rcases SUB_cases a b with ⟨_, e⟩ | ⟨_, _, e⟩ | ⟨_, _, _, e⟩ | ⟨_, _, _, e⟩ <;> rw [e]
  · exact raises_NEG b
  · exact raises_ok a
  · exact raises_normalize _ _
  · exact raises_normalize _ _

theorem raises_MUL (a b : Word) : Raises [.overflow] (MUL a b) := raises_normalize _ _

theorem raises_quotient {p : Prop} [Decidable p] (S E : Int) :
    Raises [.overflow, .divisionByZero] (if p then .error .divisionByZero else normalize S E) :=
  raises_ite (raises_error (by decide)) (raises_mono (by decide) (raises_normalize S E))

theorem raises_DIV (a b : Word) : Raises [.overflow, .divisionByZero] (DIV a b) := raises_quotient _ _

theorem raises_MULDIV (a m c : Word) : Raises [.overflow, .divisionByZero] (MULDIV a m c) := raises_quotient _ _

theorem raises_DivRem (a b : Word) : Raises [.overflow, .divisionByZero] (DivRem a b) := by
  have hnorm (S E : Int) : Raises [.overflow, .divisionByZero] (normalize S E) :=
    raises_mono (by decide) (raises_normalize S E)
  rcases DivRem_cases a b with ⟨_, e⟩ | ⟨_, _, e⟩ | ⟨_, _, _, e⟩ | ⟨_, _, _, e⟩ <;> rw [e]
  · exact raises_error (by decide)
  · exact raises_map (hnorm _ _)
  · exact raises_ok _
  · exact raises_bind (answers_true _) (hnorm _ _) fun _ _ => raises_map (hnorm _ _)

theorem raises_of_eq_ok {r : Except Cause Word} (h : ∃ w, r = .ok w ∧ isCanon w = true ∧ val w = E) : Raises [] r := by
  obtain ⟨w, rfl, _⟩ := h
  exact raises_ok w

theorem raises_FLOOR (ha : isCanon a = true) : Raises [] (FLOOR a) := raises_of_eq_ok (exists_FLOOR ha)

theorem raises_ROUND (ha : isCanon a = true) : Raises [] (ROUND a) := raises_of_eq_ok (exists_ROUND ha)

/-! ## Products of words that are not zero are not zero -/

theorem answers_MUL_ne_zero (ha : sig a ≠ 0) (hb : sig b ≠ 0) : Answers (fun w => sig w ≠ 0) (MUL a b) := by
  intro w h
  have h0 := mul_ne_zero ha hb
  rw [(normalize_eq_ok h).2, sig_normWord h0]
  have := normSig_range h0
  omega

theorem answers_pow10Walk_ne_zero (m : Nat) (ts : List Word) (hts : ∀ t ∈ ts, sig t ≠ 0) :
    ∀ (k : Nat) (acc : Word), sig acc ≠ 0 → Answers (fun w => sig w ≠ 0) (pow10Walk m k acc ts) := by
  induction ts with
  | nil => exact fun _ _ hacc => answers_ok hacc
  | cons t ts ih =>
    intro k acc hacc
    obtain ⟨ht, hts⟩ := List.forall_mem_cons.mp hts
    rw [pow10Walk_cons]
    exact answers_ite (answers_bind (answers_MUL_ne_zero hacc ht) (ih hts (k + 1))) (ih hts (k + 1) acc hacc)

theorem pow10Table_ne_zero : ∀ t ∈ pow10Table, sig t ≠ 0 := by
  have h : (pow10Table.all fun t => sig t != 0) = true := by decide
  exact fun t ht => bne_iff_ne.mp (List.all_eq_true.mp h t ht)

theorem raises_pow10Walk (m : Nat) (ts : List Word) :
    ∀ (k : Nat) (acc : Word), Raises [.overflow] (pow10Walk m k acc ts) := by
  induction ts with
  | nil => exact fun _ acc => raises_ok acc
  | cons t ts ih =>
    intro k acc
    rw [pow10Walk_cons]
    exact raises_ite (raises_bind (answers_true _) (raises_MUL acc t) fun v _ => ih (k + 1) v) (ih (k + 1) acc)

theorem raises_DIV_of_ne_zero (h : sig b ≠ 0) : Raises [.overflow] (DIV a b) := by
  rw [DIV_of_ne_zero h]
  exact raises_normalize _ _

/-! ## The transcendental core -/

theorem raises_POW10 (n : Int) : Raises [.overflow] (POW10 n) :=
  raises_ite (raises_error (by decide))
    (raises_bind (answers_pow10Walk_ne_zero _ _ pow10Table_ne_zero 0 ONE (by decide)) (raises_pow10Walk _ _ 0 ONE)
      fun acc hacc => raises_ite (raises_DIV_of_ne_zero hacc) (raises_ok acc))

theorem raises_LOG2 (a : Word) : Raises [.overflow, .domainError] (LOG2 a) := by
  rcases LOG2_cases a with ⟨_, e⟩ | ⟨_, e⟩ | ⟨_, _, e⟩ <;> rw [e]
  · exact raises_error (by decide)
  · exact raises_mono (by decide) (raises_normalize _ _)
  · exact raises_mono (by decide : [Cause.overflow] ⊆ _)
      (raises_bind (answers_true _) (raises_normalize _ _) fun i _ => raises_ADD i _)

theorem raises_LOG2I (a : Word) : Raises [.domainError] (LOG2I a) :=
  raises_ite (raises_error (by decide)) (raises_ok _)

theorem raises_POW2 (a : Word) : Raises [.overflow] (POW2 a) := by
  rcases POW2_cases a with ⟨_, e⟩ | ⟨_, _, e⟩ | ⟨_, _, _, e⟩ | ⟨_, _, _, e⟩ <;> rw [e]
  · exact raises_ok ONE
  · exact raises_error (by decide)
  · exact raises_normalize _ _
  · exact raises_bind (answers_true _) (raises_normalize _ _) fun _ _ => raises_normalize _ _

theorem raises_powTwoWord (T : Int) : Raises [.overflow] (powTwoWord T) :=
  raises_ite (raises_error (by decide)) (raises_ok _)

theorem raises_powOfTenBase (e : Word) : Raises [.overflow] (powOfTenBase e) := by
  rw [powOfTenBase]
  split
  · exact raises_POW10 _
  · exact raises_error (by decide)

theorem raises_of_powOfTwoBase {b e : Word} {r : Except Cause Word} (h : powOfTwoBase b e = some r) :
    Raises [.overflow] r := by
  rw [powOfTwoBase] at h
  split at h
  · obtain ⟨T, _, rfl⟩ := Option.map_eq_some_iff.mp h
    exact raises_powTwoWord T
  · cases h

/-- Steps 1 to 4 of R240; the DomainError is that of zero to a negative power. -/
theorem raises_of_powFast {b e : Word} {r : Except Cause Word} (h : powFast b e = some r) :
    Raises [.overflow, .domainError] r := by
  rw [powFast] at h
  split at h
  · cases h; exact raises_ok ONE
  split at h
  · cases h; exact raises_ite (raises_ok ZERO) (raises_error (by decide))
  refine raises_mono (by decide : [Cause.overflow] ⊆ _) ?_
  split at h
  · next hbase => cases h; exact raises_of_powOfTwoBase hbase
  split at h
  · cases h; exact raises_powOfTenBase e
  split at h
  · cases h; exact raises_MUL b b
  · cases h

theorem raises_powGeneral (b e : Word) : Raises [.overflow, .domainError] (powGeneral b e) :=
  raises_bind (answers_true _) (raises_LOG2 b) fun l _ => raises_mono (by decide : [Cause.overflow] ⊆ _)
    (raises_bind (answers_true _) (raises_MUL l e) fun p _ => raises_POW2 p)

theorem raises_powNonNegative (b e : Word) : Raises [.overflow, .domainError] (powNonNegative b e) := by
  rw [powNonNegative]
  cases h : powFast b e with
  | some r => exact raises_of_powFast h
  | none => exact raises_powGeneral b e

theorem raises_powNegative (b e : Word) : Raises [.overflow, .domainError] (powNegative b e) := by
  have hneg (a : Word) : Raises [.overflow, .domainError] (NEG a) := raises_mono (by decide) (raises_NEG a)
  exact raises_ite (raises_bind (answers_true _) (hneg b) fun nb _ =>
      raises_bind (answers_true _) (raises_powNonNegative nb e) fun r _ => raises_ite (hneg r) (raises_ok r))
    (raises_error (by decide))

theorem raises_POW (b e : Word) : Raises [.overflow, .domainError] (POW b e) := by
  rcases POW_cases b e with ⟨r, h, e'⟩ | ⟨_, _, e'⟩ | ⟨_, _, e'⟩ <;> rw [e']
  · exact raises_of_powFast h
  · exact raises_powNegative b e
  · exact raises_powGeneral b e

end Arithmetic

end Sys2Proof.Machine
end

section
/-! PROOFS. How every command ends (spec/10_state.md R26, R28, R36, spec/30_encoding.md R78, spec/41_arithmetic.md R181). One
table, command by command, says with which operation a legal command ends and that its result is a lawful function of the
state: it checks the scaled operands first, raises no cause that is not the command's, and reads nothing but its operands.
What holds of all commands is derived from the table. -/

namespace Sys2Proof.Machine

variable {i : Instr} {s u : State} {rs1 rs2 rs3 : Reg}

/-! ## Lawful results -/

/-- Two states that a command cannot tell apart: they agree on its sources, WRV's data word and RDCSR's control registers. -/
structure Agree (i : Instr) (s u : State) : Prop where
  regs : ∀ r ∈ sources i, s.reg r = u.reg r
  data : (∃ rd, i = .wrv rd) → s.wdata = u.wdata
  csrs : (∃ n, i = .rdcsr n) → ∀ n, s.csr n = u.csr n

/-- A scaled operand of the command is not canonical. -/
def BadOperand (i : Instr) (s : State) : Prop := ∃ r ∈ scaledSources i, isCanon (s.reg r) = false

/-- The result of a command as a function of the state. -/
structure Lawful {α : Type} (i : Instr) (f : State → Except Cause α) : Prop where
  /-- The operand check comes first (R78 step 4). -/
  bad : ∀ s, BadOperand i s → f s = .error .invalidOperand
  /-- A cause of the command, InvalidOperand for a bad operand only (R181, R278). -/
  raises : ∀ s c, f s = .error c → c ∈ mayRaise i ∧ (c = .invalidOperand → BadOperand i s)
  /-- No other state and no history (R36). -/
  reads : ∀ s u, Agree i s u → f s = f u

/-- Every register that is checked is read (R26). -/
theorem scaledSources_subset (i : Instr) : scaledSources i ⊆ sources i := by
  cases i <;> simp [scaledSources, sources]

section Lawful
variable {α : Type} {cs : List Cause}

/-- A result without scaled operands. -/
theorem lawful_raw (cs : List Cause) {f : State → Except Cause α} (hf : ∀ s, Raises cs (f s))
    (hs : scaledSources i = []) (hm : mayRaise i = cs) (hc : .invalidOperand ∉ cs)
    (hreads : ∀ s u, Agree i s u → f s = f u) : Lawful i f where
  bad s h := by simp [BadOperand, hs] at h
  raises s c h := ⟨hm ▸ hf s c h, fun hinv => absurd (hinv ▸ hf s c h) hc⟩
  reads := hreads

theorem agree_reg_of_scaled (h : Agree i s u) {r : Reg} (hr : r ∈ scaledSources i) : s.reg r = u.reg r :=
  h.regs r (scaledSources_subset i hr)

theorem readScaled_of_agree (h : Agree i s u) {r : Reg} (hr : r ∈ scaledSources i) :
    readScaled s r = readScaled u r := by
  rw [readScaled, readScaled, agree_reg_of_scaled h hr]

/-- A cause of the function itself, which is never InvalidOperand. -/
theorem own_cause {r : Except Cause α} {c : Cause} (hm : mayRaise i = cs ++ [.invalidOperand])
    (hc : .invalidOperand ∉ cs) (hr : Raises cs r) (h : r = .error c) :
    c ∈ mayRaise i ∧ (c = .invalidOperand → BadOperand i s) :=
  ⟨hm ▸ List.mem_append_left _ (hr c h), fun hinv => absurd (hinv ▸ hr c h) hc⟩

theorem bad_cause {c : Cause} (hm : mayRaise i = cs ++ [.invalidOperand]) (hb : BadOperand i s)
    (h : (.error .invalidOperand : Except Cause α) = .error c) :
    c ∈ mayRaise i ∧ (c = .invalidOperand → BadOperand i s) := by
  cases h
  exact ⟨hm ▸ List.mem_append_right _ (List.mem_singleton_self _), fun _ => hb⟩

/-- A result of one scaled operand; `g` may read raw operands beside it. -/
theorem lawful_scaled {g : State → Word → Except Cause α} (hg : ∀ s a, isCanon a = true → Raises cs (g s a))
    (hs : scaledSources i = [rs1]) (hm : mayRaise i = cs ++ [.invalidOperand]) (hc : .invalidOperand ∉ cs)
    (hreads : ∀ s u, Agree i s u → g s = g u) :
    Lawful i fun s => withScaled s rs1 (g s) where
  bad s h := by
    rcases withScaled_cases s rs1 (g s) with ⟨h1, _⟩ | ⟨_, e⟩
    · simp [BadOperand, hs, h1] at h
    · exact e
  raises s c h := by
    rcases withScaled_cases s rs1 (g s) with ⟨h1, e⟩ | ⟨h1, e⟩ <;> rw [e] at h
    · exact own_cause hm hc (hg s _ h1) h
    · exact bad_cause hm (by simp [BadOperand, hs, h1]) h
  reads s u h := by
    rw [withScaled, withScaled, hreads s u h, readScaled_of_agree h (by simp [hs])]

theorem lawful_scaled₂ {g : Word → Word → Except Cause α} (hg : ∀ a b, Raises cs (g a b))
    (hs : scaledSources i = [rs1, rs2]) (hm : mayRaise i = cs ++ [.invalidOperand]) (hc : .invalidOperand ∉ cs) :
    Lawful i fun s => withScaled₂ s rs1 rs2 g where
  bad s h := by
    rcases withScaled₂_cases s rs1 rs2 g with ⟨h1, h2, _⟩ | ⟨_, e⟩
    · simp [BadOperand, hs, h1, h2] at h
    · exact e
  raises s c h := by
    rcases withScaled₂_cases s rs1 rs2 g with ⟨_, _, e⟩ | ⟨hbad, e⟩ <;> rw [e] at h
    · exact own_cause hm hc (hg _ _) h
    · exact bad_cause hm (by simpa [BadOperand, hs] using hbad) h
  reads s u h := by
    rw [withScaled₂, withScaled₂, readScaled_of_agree h (by simp [hs]), readScaled_of_agree h (by simp [hs])]

theorem lawful_scaled₃ {g : Word → Word → Word → Except Cause α} (hg : ∀ a b c, Raises cs (g a b c))
    (hs : scaledSources i = [rs1, rs2, rs3]) (hm : mayRaise i = cs ++ [.invalidOperand]) (hc : .invalidOperand ∉ cs) :
    Lawful i fun s => withScaled₃ s rs1 rs2 rs3 g where
  bad s h := by
    rcases withScaled₃_cases s rs1 rs2 rs3 g with ⟨h1, h2, h3, _⟩ | ⟨_, e⟩
    · simp [BadOperand, hs, h1, h2, h3] at h
    · exact e
  raises s c h := by
    rcases withScaled₃_cases s rs1 rs2 rs3 g with ⟨_, _, _, e⟩ | ⟨hbad, e⟩ <;> rw [e] at h
    · exact own_cause hm hc (hg _ _ _) h
    · exact bad_cause hm (by simpa [BadOperand, hs] using hbad) h
  reads s u h := by
    rw [withScaled₃, withScaled₃, readScaled_of_agree h (by simp [hs]), readScaled_of_agree h (by simp [hs]),
      readScaled_of_agree h (by simp [hs])]

end Lawful

/-! ## The table -/

/-- A legal command ends by writing one result, by writing two, by answering with a data word (0 unless it is RDV or
RDCSR), or it is CLRF. -/
inductive Ends (i : Instr) : Prop
  | write (rd : Reg) (f : State → Except Cause Word) (hd : destinations i = [rd])
      (he : ∀ s, exec i s = .next (finishWrite s rd (f s))) (hf : Lawful i f)
  | pair (rd rd2 : Reg) (f : State → Except Cause (Word × Word)) (hd : destinations i = [rd, rd2])
      (he : ∀ s, exec i s = .next (finishWrite₂ s rd rd2 (f s))) (hf : Lawful i f)
  | answer (f : State → Except Cause Word) (hd : destinations i = [])
      (h0 : (∀ q, i ≠ .rdv q) → (∀ n, i ≠ .rdcsr n) → ∀ s w, f s = .ok w → w = 0)
      (he : ∀ s, exec i s = .next (finishRead s (f s))) (hf : Lawful i f)
  | clrf (hi : i = .clrf)

theorem readInt64_of_agree (h : Agree i s u) {r : Reg} (hr : r ∈ sources i) : readInt64 s r = readInt64 u r := by
  rw [readInt64, readInt64, h.regs r hr]

/-- A legal index of LDC is in the ROM (R76, R114). -/
theorem exists_constRom {k : Imm8} (h : k.legalConst = true) : ∃ w, constRom k = some w := by
  simp only [Imm8.legalConst, Bool.or_eq_true, Bool.and_eq_true, decide_eq_true_iff] at h
  rcases h with h | ⟨hlo, hhi⟩
  · rw [constRom_of_named h]
    exact ⟨_, List.getElem?_eq_getElem (Nat.lt_succ_of_le h)⟩
  · rw [constRom_of_table hlo]
    have : pow10Table.length = 30 := rfl
    exact ⟨_, List.getElem?_eq_getElem (by omega)⟩

/-- A legal number of RDCSR names a control register (R76, R251). -/
theorem raises_csr (s : State) {k : Imm8} (h : k.legalCsr = true) :
    Raises [] ((s.csr k).elim (.error .illegalCommand) .ok) := by
  simp only [Imm8.legalCsr, decide_eq_true_iff] at h
  have hk : k.toNat = 0 ∨ k.toNat = 1 ∨ k.toNat = 2 ∨ k.toNat = 3 := by omega
  rcases hk with hk | hk | hk | hk <;> rw [State.csr, hk] <;> exact raises_ok _

theorem fits_int32 (v : Word) : fits (sext32Low v) 0 = true :=
  fits_of_bounds 31 (by norm_num) (BitVec.le_toInt _) BitVec.toInt_lt (by decide) (by decide)

/-- R26, R36, R78, R181, command by command. -/
theorem exec_ends : ∀ i : Instr, WellFormed i = true → Ends i
  | .wrv rd, _ => .write rd _ rfl (fun _ => rfl) (lawful_raw [] (fun _ => raises_ok _) rfl rfl (by decide)
      fun _ _ h => congrArg _ (h.data ⟨rd, rfl⟩))
  | .rdv rs1, _ => .answer _ rfl (fun h _ => absurd rfl (h rs1)) (fun _ => rfl)
      (lawful_raw [] (fun _ => raises_ok _) rfl rfl (by decide) fun _ _ h => congrArg _ (h.regs rs1 (by simp [sources])))
  | .mov rd rs1, _ => .write rd _ rfl (fun _ => rfl) (lawful_raw [] (fun _ => raises_ok _) rfl rfl (by decide)
      fun _ _ h => congrArg _ (h.regs rs1 (by simp [sources])))
  | .ldc rd k, hwf =>
    let ⟨w, hw⟩ := exists_constRom hwf
    .write rd (fun _ => .ok w) rfl (fun _ => exec_ldc_of_some hw)
      (lawful_raw [] (fun _ => raises_ok w) rfl rfl (by decide) fun _ _ _ => rfl)
  | .norm rd rs1 rs2, _ => .write rd _ rfl (fun _ => rfl) (lawful_raw _ (fun _ => raises_normalize _ _) rfl rfl (by decide)
      fun _ _ h => congrArg₂ normalize (readInt64_of_agree h (by simp [sources])) (readInt64_of_agree h (by simp [sources])))
  | .fromi64 rd rs1, _ => .write rd _ rfl (fun _ => rfl) (lawful_raw _ (fun _ => raises_normalize_of_fits (fits_int64 _)) rfl rfl
      (by decide) fun _ _ h => congrArg (normalize · 0) (readInt64_of_agree h (by simp [sources])))
  | .fromi32 rd rs1, _ => .write rd _ rfl (fun _ => rfl) (lawful_raw _ (fun _ => raises_normalize_of_fits (fits_int32 _)) rfl rfl
      (by decide) fun _ _ h => congrArg (fun a => normalize (sext32Low a) 0) (h.regs rs1 (by simp [sources])))
  | .toi64 rd rs1, _ => .write rd _ rfl (fun _ => rfl)
      (lawful_scaled (fun _ a _ => raises_map (raises_toInteger a _ _)) rfl rfl (by decide) fun _ _ _ => rfl)
  | .toi32 rd rs1, _ => .write rd _ rfl (fun _ => rfl)
      (lawful_scaled (fun _ a _ => raises_map (raises_toInteger a _ _)) rfl rfl (by decide) fun _ _ _ => rfl)
  | .fromf64 rd rs1, _ => .write rd _ rfl (fun _ => rfl) (lawful_raw _ (fun _ => raises_FROMF64 _) rfl rfl (by decide)
      fun _ _ h => congrArg FROMF64 (h.regs rs1 (by simp [sources])))
  | .tof64 rd rs1, _ => .write rd _ rfl (fun _ => rfl)
      (lawful_scaled (fun _ _ _ => raises_ok (cs := []) _) rfl rfl (by decide) fun _ _ _ => rfl)
  | .add rd rs1 rs2, _ => .write rd _ rfl (fun _ => rfl) (lawful_scaled₂ raises_ADD rfl rfl (by decide))
  | .sub rd rs1 rs2, _ => .write rd _ rfl (fun _ => rfl) (lawful_scaled₂ raises_SUB rfl rfl (by decide))
  | .mul rd rs1 rs2, _ => .write rd _ rfl (fun _ => rfl) (lawful_scaled₂ raises_MUL rfl rfl (by decide))
  | .div rd rs1 rs2, _ => .write rd _ rfl (fun _ => rfl) (lawful_scaled₂ raises_DIV rfl rfl (by decide))
  | .muldiv rd rs1 rs2 rs3, _ => .write rd _ rfl (fun _ => rfl) (lawful_scaled₃ raises_MULDIV rfl rfl (by decide))
  | .divint rd rs1 rs2, _ => .write rd _ rfl (fun _ => rfl)
      (lawful_scaled₂ (fun a b => raises_map (raises_DivRem a b)) rfl rfl (by decide))
  | .rem rd rs1 rs2, _ => .write rd _ rfl (fun _ => rfl)
      (lawful_scaled₂ (fun a b => raises_map (raises_DivRem a b)) rfl rfl (by decide))
  | .divrem rd rd2 rs1 rs2, hwf => .pair rd rd2 _ rfl
      (fun s => congrArg (fun r => Host.Outcome.next (finishWrite₂ s rd rd2 r)) (if_neg (bne_iff_ne.mp hwf)))
      (lawful_scaled₂ raises_DivRem rfl rfl (by decide))
  | .neg rd rs1, _ => .write rd _ rfl (fun _ => rfl)
      (lawful_scaled (fun _ a _ => raises_NEG a) rfl rfl (by decide) fun _ _ _ => rfl)
  | .abs rd rs1, _ => .write rd _ rfl (fun _ => rfl)
      (lawful_scaled (fun _ a _ => raises_ABS a) rfl rfl (by decide) fun _ _ _ => rfl)
  | .shl rd rs1 rs2, _ => .write rd _ rfl (fun _ => rfl)
      (lawful_scaled (fun _ _ _ => raises_normalize _ _) rfl rfl (by decide)
        fun _ _ h => funext fun a => congrArg (SHL a) (readInt64_of_agree h (by simp [sources])))
  | .shr rd rs1 rs2, _ => .write rd _ rfl (fun _ => rfl)
      (lawful_scaled (fun _ _ _ => raises_normalize _ _) rfl rfl (by decide)
        fun _ _ h => funext fun a => congrArg (SHR a) (readInt64_of_agree h (by simp [sources])))
  | .min rd rs1 rs2, _ => .write rd _ rfl (fun _ => rfl)
      (lawful_scaled₂ (fun _ _ => raises_ok (cs := []) _) rfl rfl (by decide))
  | .max rd rs1 rs2, _ => .write rd _ rfl (fun _ => rfl)
      (lawful_scaled₂ (fun _ _ => raises_ok (cs := []) _) rfl rfl (by decide))
  | .floor rd rs1, _ => .write rd _ rfl (fun _ => rfl)
      (lawful_scaled (fun _ _ ha => raises_FLOOR ha) rfl rfl (by decide) fun _ _ _ => rfl)
  | .round rd rs1, _ => .write rd _ rfl (fun _ => rfl)
      (lawful_scaled (fun _ _ ha => raises_ROUND ha) rfl rfl (by decide) fun _ _ _ => rfl)
  | .roundto rd rs1 rs2, _ => .answer (fun _ => .error .unimplemented) rfl (fun _ _ _ _ => nofun) (fun _ => rfl)
      (lawful_raw [.unimplemented] (fun _ => raises_error (by decide)) rfl rfl (by decide) fun _ _ _ => rfl)
  | .cmp rd rs1 rs2, _ => .write rd _ rfl (fun _ => rfl)
      (lawful_scaled₂ (fun _ _ => raises_ok (cs := []) _) rfl rfl (by decide))
  | .eq rd rs1 rs2, _ => .write rd _ rfl (fun _ => rfl)
      (lawful_scaled₂ (fun _ _ => raises_ok (cs := []) _) rfl rfl (by decide))
  | .lt rd rs1 rs2, _ => .write rd _ rfl (fun _ => rfl)
      (lawful_scaled₂ (fun _ _ => raises_ok (cs := []) _) rfl rfl (by decide))
  | .gt rd rs1 rs2, _ => .write rd _ rfl (fun _ => rfl)
      (lawful_scaled₂ (fun _ _ => raises_ok (cs := []) _) rfl rfl (by decide))
  | .approx rd rs1 rs2 k, hwf => .write rd
      (fun s => withScaled₂ s rs1 rs2 fun a o => .ok (boolWord (APPROX a o k.toNat))) rfl
      (fun s => congrArg (fun r => Host.Outcome.next (finishWrite s rd r)) (if_pos (show k.legalBits = true from hwf)))
      (lawful_scaled₂ (fun _ _ => raises_ok (cs := []) _) rfl rfl (by decide))
  | .log2 rd rs1, _ => .write rd _ rfl (fun _ => rfl)
      (lawful_scaled (fun _ a _ => raises_LOG2 a) rfl rfl (by decide) fun _ _ _ => rfl)
  | .log2i rd rs1, _ => .write rd _ rfl (fun _ => rfl)
      (lawful_scaled (fun _ a _ => raises_LOG2I a) rfl rfl (by decide) fun _ _ _ => rfl)
  | .pow2 rd rs1, _ => .write rd _ rfl (fun _ => rfl)
      (lawful_scaled (fun _ a _ => raises_POW2 a) rfl rfl (by decide) fun _ _ _ => rfl)
  | .pow rd rs1 rs2, _ => .write rd _ rfl (fun _ => rfl) (lawful_scaled₂ raises_POW rfl rfl (by decide))
  | .pow10 rd rs1, _ => .write rd _ rfl (fun _ => rfl) (lawful_raw _ (fun _ => raises_POW10 _) rfl rfl (by decide)
      fun _ _ h => congrArg POW10 (readInt64_of_agree h (by simp [sources])))
  | .rdcsr k, hwf => .answer _ rfl (fun _ h => absurd rfl (h k)) (fun _ => rfl)
      (lawful_raw [] (fun s => raises_csr s hwf) rfl rfl (by decide)
        fun _ _ h => congrArg (Option.elim · _ _) (h.csrs ⟨k, rfl⟩ k))
  | .clrf, _ => .clrf rfl
  | .nop, _ => .answer (fun _ => .ok 0) rfl (fun _ _ _ _ h => (Except.ok.inj h).symm) (fun _ => rfl)
      (lawful_raw [] (fun _ => raises_ok 0) rfl rfl (by decide) fun _ _ _ => rfl)

end Sys2Proof.Machine
end

section
/-! PROOFS. Everything a command can do (spec/30_encoding.md R78, spec/60_exceptions.md R280): it takes one of its faults,
or it completes and writes its destinations only. Totality, precision of faults, the frame, the causes, the operand check
and the way out of FAULTED are read off from that. -/

namespace Sys2Proof.Machine

variable {i : Instr} {s t : State} {rd rd2 : Reg}

/-! ## The frame of a command that completes -/

/-- What a command that completes leaves, its destinations apart: one response, one transaction counted, and no change of
STATUS but that of CLRF (R31, R34, R70, R78, R252). -/
structure Completed (i : Instr) (s t : State) : Prop where
  regs : ∀ q, q ∉ destinations i → t.reg q = s.reg q
  fcmd : t.fcmd = s.fcmd
  fcc : t.fcc = s.fcc
  cc : t.cc = s.cc + 1
  status : t.status = s.status ∨ i = .clrf ∧ t.status = setF false s.status
  host : t.host = s.host
  cmd : t.cmd = s.cmd
  wdata : t.wdata = s.wdata
  response : ∃ d, t.response = some ⟨0, d⟩ ∧ ((∀ q, i ≠ .rdv q) → (∀ n, i ≠ .rdcsr n) → d = 0)

theorem completed_write (hd : destinations i = [rd]) (w : Word) : Completed i s ((s.setReg rd w).complete 0) where
  regs q hq := reg_setReg_of_ne s q rd w (by simpa [hd] using hq)
  fcmd := rfl
  fcc := rfl
  cc := rfl
  status := .inl rfl
  host := rfl
  cmd := rfl
  wdata := rfl
  response := ⟨0, rfl, fun _ _ => rfl⟩

theorem completed_pair (hd : destinations i = [rd, rd2]) (q m : Word) :
    Completed i s (((s.setReg rd q).setReg rd2 m).complete 0) where
  regs r hr := by
    simp only [hd, List.mem_cons, List.not_mem_nil, or_false, not_or] at hr
    rw [complete_reg, reg_setReg_of_ne _ _ _ _ hr.2, reg_setReg_of_ne _ _ _ _ hr.1]
  fcmd := rfl
  fcc := rfl
  cc := rfl
  status := .inl rfl
  host := rfl
  cmd := rfl
  wdata := rfl
  response := ⟨0, rfl, fun _ _ => rfl⟩

theorem completed_answer {w : Word} (h0 : (∀ q, i ≠ .rdv q) → (∀ n, i ≠ .rdcsr n) → w = 0) :
    Completed i s (s.complete w) where
  regs _ _ := rfl
  fcmd := rfl
  fcc := rfl
  cc := rfl
  status := .inl rfl
  host := rfl
  cmd := rfl
  wdata := rfl
  response := ⟨w, rfl, h0⟩

theorem completed_clrf (s : State) : Completed .clrf s ((clearFault s).complete 0) where
  regs _ _ := rfl
  fcmd := rfl
  fcc := rfl
  cc := rfl
  status := .inr ⟨rfl, rfl⟩
  host := rfl
  cmd := rfl
  wdata := rfl
  response := ⟨0, rfl, fun _ _ => rfl⟩

/-! ## Everything a command can do -/

/-- A result that is a value was not stopped by the operand check. -/
theorem not_badOperand_of_ok {α : Type} {f : State → Except Cause α} (hf : Lawful i f) {v : α} (h : f s = .ok v) :
    ¬ BadOperand i s := fun hbad => nomatch h.symm.trans (hf.bad s hbad)

/-- A legal command takes one of its faults, InvalidOperand for a bad operand only, or completes with good operands. -/
theorem exec_cases (hwf : WellFormed i = true) (s : State) :
    (∃ c, exec i s = .next (takeFault c s) ∧ c ∈ mayRaise i ∧ (c = .invalidOperand → BadOperand i s)) ∨
      (∃ t, exec i s = .next t ∧ Completed i s t ∧ ¬ BadOperand i s) := by
  cases exec_ends i hwf with
  | write rd f hd he hf =>
    rcases finishWrite_cases s rd (f s) with ⟨w, hw, e⟩ | ⟨c, hc, e⟩
    · exact .inr ⟨_, e ▸ he s, completed_write hd w, not_badOperand_of_ok hf hw⟩
    · exact .inl ⟨c, e ▸ he s, hf.raises s c hc⟩
  | pair rd rd2 f hd he hf =>
    rcases finishWrite₂_cases s rd rd2 (f s) with ⟨q, m, hw, e⟩ | ⟨c, hc, e⟩
    · exact .inr ⟨_, e ▸ he s, completed_pair hd q m, not_badOperand_of_ok hf hw⟩
    · exact .inl ⟨c, e ▸ he s, hf.raises s c hc⟩
  | answer f _ h0 he hf =>
    rcases finishRead_cases s (f s) with ⟨w, hw, e⟩ | ⟨c, hc, e⟩
    · exact .inr ⟨_, e ▸ he s, completed_answer fun h h' => h0 h h' s w hw, not_badOperand_of_ok hf hw⟩
    · exact .inl ⟨c, e ▸ he s, hf.raises s c hc⟩
  | clrf hi =>
    subst hi
    exact .inr ⟨_, rfl, completed_clrf s, by simp [BadOperand, scaledSources]⟩

/-- Only the operand fields that R76 and R168 restrict can make a command ill-formed (log 7). -/
theorem exec_of_ill_formed (h : WellFormed i = false) (s : State) : exec i s = .next (takeFault .illegalCommand s) := by
  cases i with
  | ldc rd k =>
    simp only [WellFormed, Imm8.legalConst, Bool.or_eq_false_iff, Bool.and_eq_false_iff, decide_eq_false_iff_not] at h
    exact exec_ldc_of_none (constRom_of_illegal (by omega) (by omega))
  | divrem rd rd2 rs1 rs2 =>
    exact congrArg (fun r => Host.Outcome.next (finishWrite₂ s rd rd2 r)) (if_pos (by simpa [WellFormed] using h))
  | approx rd rs1 rs2 k =>
    exact congrArg (fun r => Host.Outcome.next (finishWrite s rd r))
      (if_neg (by rw [show k.legalBits = false from h]; exact Bool.false_ne_true))
  | rdcsr k =>
    simp only [WellFormed, Imm8.legalCsr, decide_eq_false_iff_not] at h
    exact congrArg (fun r => Host.Outcome.next (finishRead s (r.elim (.error .illegalCommand) .ok)))
      (csr_of_large (n := k) (by omega))
  | _ => cases h

/-- Every command takes a fault or completes. -/
theorem exec_faults_or_completes (i : Instr) (s : State) :
    (∃ c, exec i s = .next (takeFault c s)) ∨ (∃ t, exec i s = .next t ∧ Completed i s t) := by
  cases hwf : WellFormed i with
  | false => exact .inl ⟨_, exec_of_ill_formed hwf s⟩
  | true =>
    rcases exec_cases hwf s with ⟨c, he, _⟩ | ⟨t, he, hdone, _⟩
    · exact .inl ⟨c, he⟩
    · exact .inr ⟨t, he, hdone⟩

/-! ## Causes, precision and the frame -/

/-- Settles O17: a status of a completing command is 0, which is no cause. -/
theorem raisedCauseBelongsToTheCommand : Obligations.RaisedCauseBelongsToTheCommand := by
  intro i s t c d hwf hexec hresponse
  rcases exec_cases hwf s with ⟨c', he, hmay, _⟩ | ⟨t', he, hdone, _⟩ <;>
    obtain rfl := Host.Outcome.next.inj (hexec.symm.trans he)
  · have hcode := congrArg Response.status (Option.some.inj hresponse)
    exact code_injective hcode ▸ hmay
  · obtain ⟨d', hd', _⟩ := hdone.response
    have hcode := congrArg Response.status (Option.some.inj (hresponse.symm.trans hd'))
    exact absurd hcode (code_ne_zero c)

/-- Settles O18: a fault of a command with good operands is not InvalidOperand, and one with a bad operand does not
complete. -/
theorem nonCanonicalOperandRaisesInvalidOperand : Obligations.NonCanonicalOperandRaisesInvalidOperand := by
  intro i s hwf
  refine ⟨fun hbad => ?bad, fun hgood t d hexec hresponse => ?good⟩
  case bad =>
    cases exec_ends i hwf with
    | write rd f _ he hf => rw [he, hf.bad s hbad, finishWrite_error]
    | pair rd rd2 f _ he hf => rw [he, hf.bad s hbad, finishWrite₂_error]
    | answer f _ _ he hf => rw [he, hf.bad s hbad, finishRead_error]
    | clrf hi => simp [hi, scaledSources] at hbad
  case good =>
    rcases exec_cases hwf s with ⟨c, he, _, hinvalid⟩ | ⟨t', he, hdone, _⟩ <;>
      obtain rfl := Host.Outcome.next.inj (hexec.symm.trans he)
    · have hcode : c.code = Cause.invalidOperand.code := congrArg Response.status (Option.some.inj hresponse)
      obtain ⟨r, hr, hnot⟩ := hinvalid (code_injective hcode)
      exact Bool.false_ne_true (hnot.symm.trans (hgood r hr))
    · obtain ⟨d', hd', _⟩ := hdone.response
      exact absurd (congrArg Response.status (Option.some.inj (hresponse.symm.trans hd')))
        (code_ne_zero .invalidOperand)

/-- Settles O10: of the two ends of a command only fault entry answers with a status other than 0. -/
theorem faultsArePrecise : Obligations.FaultsArePrecise := by
  intro i s t r hexec hresponse hstatus
  rcases exec_faults_or_completes i s with ⟨c, he⟩ | ⟨t', he, hdone⟩ <;>
    obtain rfl := Host.Outcome.next.inj (hexec.symm.trans he)
  · obtain rfl := Option.some.inj hresponse
    rfl
  · obtain ⟨d, hd, _⟩ := hdone.response
    exact absurd (congrArg Response.status (Option.some.inj (hresponse.symm.trans hd))) hstatus

/-- Settles O11: fault entry answers with a cause, so status 0 means that the command completed. -/
theorem completedCommandsWriteOnlyTheirDestinations : Obligations.CompletedCommandsWriteOnlyTheirDestinations := by
  intro i s t r hexec hresponse hstatus
  rcases exec_faults_or_completes i s with ⟨c, he⟩ | ⟨t', he, hdone⟩ <;>
    obtain rfl := Host.Outcome.next.inj (hexec.symm.trans he)
  · obtain rfl := Option.some.inj hresponse
    exact absurd hstatus (code_ne_zero c)
  · obtain ⟨d, hd, h0⟩ := hdone.response
    obtain rfl := Option.some.inj (hresponse.symm.trans hd)
    exact ⟨hdone.regs, hdone.fcmd, hdone.fcc, hdone.cc, fun hi => hdone.status.resolve_right fun h => hi h.1, hdone.host,
      hdone.cmd, hdone.wdata, h0⟩

/-! ## The step -/

/-- R72, R78: a transaction is answered and counted, whatever becomes of it. -/
theorem exec_answers (i : Instr) (s : State) :
    ∃ t r, exec i s = .next t ∧ t.cc = s.cc + 1 ∧ t.response = some r ∧ t.host = s.host := by
  rcases exec_faults_or_completes i s with ⟨c, he⟩ | ⟨t, he, hdone⟩
  · exact ⟨_, _, he, takeFault_cc .., takeFault_response .., takeFault_host ..⟩
  · obtain ⟨d, hd, _⟩ := hdone.response
    exact ⟨t, _, he, hdone.cc, hd, hdone.host⟩

/-- Settles O9. -/
theorem everyTransactionIsAnsweredAndCounted : Obligations.EveryTransactionIsAnsweredAndCounted := by
  refine ⟨fun s cmd w rest hhost => ?_, fun s hhost => step_of_idle s (fetch_nil s hhost)⟩
  rcases step_cases s with ⟨hidle, _⟩ | ⟨_, hreset, _⟩ | ⟨cmd', w', rest', hcommand, hstep⟩
  · exact absurd (hhost.symm.trans hidle) nofun
  · exact absurd (hhost.symm.trans hreset) nofun
  · cases hhost.symm.trans hcommand
    rcases hstep with ⟨_, he⟩ | ⟨_, i, _, he⟩ | ⟨_, _, he⟩
    · exact ⟨_, _, he, skipCommand_cc _, skipCommand_response _, skipCommand_host _⟩
    · exact he ▸ exec_answers i (s.latch cmd w rest)
    · exact ⟨_, _, he, takeFault_cc .., takeFault_response .., takeFault_host ..⟩

/-- R282, R284: of all commands only CLRF clears F. -/
theorem clrf_of_leaves_faulted (hexec : exec i s = .next t) (hs : s.faulted = true) (ht : t.faulted = false) :
    i = .clrf := by
  rcases exec_faults_or_completes i s with ⟨c, he⟩ | ⟨t', he, hdone⟩ <;>
    obtain rfl := Host.Outcome.next.inj (hexec.symm.trans he)
  · exact absurd ((statusF_takeFault c s).symm.trans ht) nofun
  · rcases hdone.status with hkept | ⟨hi, _⟩
    · rw [State.faulted, hkept] at ht
      exact absurd (hs.symm.trans ht) nofun
    · exact hi

/-- Settles O12: skipping and fault entry leave F set, and the word of CLRF is the one word that decodes to it. -/
theorem onlyClrfOrResetLeavesFaulted : Obligations.OnlyClrfOrResetLeavesFaulted := by
  intro s t hs hstep ht
  rcases step_cases s with ⟨_, he⟩ | ⟨rest, hhost, _⟩ | ⟨cmd, w, rest, hhost, ⟨_, he⟩ | ⟨_, i, hdecode, he⟩ | ⟨_, _, he⟩⟩
  · obtain rfl := Host.Outcome.next.inj (hstep.symm.trans he)
    exact absurd (hs.symm.trans ht) nofun
  · exact .inl ⟨rest, hhost⟩
  · obtain rfl := Host.Outcome.next.inj (hstep.symm.trans he)
    exact absurd (hs.symm.trans ht) nofun
  · obtain rfl := clrf_of_leaves_faulted (he.symm.trans hstep) hs ht
    obtain ⟨_, rfl⟩ := wellFormed_encode_of_decode hdecode
    exact .inr ⟨w, rest, hhost⟩
  · obtain rfl := Host.Outcome.next.inj (hstep.symm.trans he)
    exact absurd ((statusF_takeFault _ _).symm.trans ht) nofun

end Sys2Proof.Machine
end

section
/-! PROOFS. What a command cannot see (spec/10_state.md R36, spec/30_encoding.md R70): its result is a function of its
sources, and the data word is a source of WRV alone. -/

namespace Sys2Proof.Machine

variable {i : Instr} {s t u v : State} {rd rd2 : Reg}

/-! ## Operands decide the result -/

/-- The destinations of two states agree when their common result is a value. -/
theorem reg_finishWrite_eq {r : Except Cause Word} (h : (finishWrite s rd r).response = some ⟨0, 0⟩) :
    (finishWrite s rd r).reg rd = (finishWrite u rd r).reg rd := by
  cases r with
  | ok w => simp
  | error c => exact absurd (congrArg Response.status (Option.some.inj h)) (code_ne_zero c)

theorem reg_finishWrite₂_eq {r : Except Cause (Word × Word)}
    (h : (finishWrite₂ s rd rd2 r).response = some ⟨0, 0⟩) {q : Reg} (hq : q = rd ∨ q = rd2) :
    (finishWrite₂ s rd rd2 r).reg q = (finishWrite₂ u rd rd2 r).reg q := by
  cases r with
  | ok p =>
    obtain ⟨v, w⟩ := p
    simp only [finishWrite₂_ok, complete_reg, reg_setReg]
    rcases hq with rfl | rfl <;> simp
  | error c => exact absurd (congrArg Response.status (Option.some.inj h)) (code_ne_zero c)

theorem response_finishWrite_eq (s u : State) (rd : Reg) (r : Except Cause Word) :
    (finishWrite s rd r).response = (finishWrite u rd r).response := by cases r <;> rfl

theorem response_finishWrite₂_eq (s u : State) (rd rd2 : Reg) (r : Except Cause (Word × Word)) :
    (finishWrite₂ s rd rd2 r).response = (finishWrite₂ u rd rd2 r).response := by cases r <;> rfl

theorem response_finishRead_eq (s u : State) (r : Except Cause Word) :
    (finishRead s r).response = (finishRead u r).response := by cases r <;> rfl

/-- R36 for a legal command and two states it cannot tell apart. -/
theorem results_of_agree (hwf : WellFormed i = true) (hagree : Agree i s u) (hs : exec i s = .next t)
    (hu : exec i u = .next v) :
    t.response = v.response ∧ (t.response = some ⟨0, 0⟩ → ∀ r ∈ destinations i, t.reg r = v.reg r) := by
  cases exec_ends i hwf with
  | write rd f hd he hf =>
    obtain rfl := Host.Outcome.next.inj (hs.symm.trans (he s))
    obtain rfl := Host.Outcome.next.inj (hu.symm.trans (he u))
    rw [← hf.reads s u hagree, hd]
    refine ⟨response_finishWrite_eq s u rd _, fun hok r hr => ?_⟩
    obtain rfl := List.mem_singleton.mp hr
    exact reg_finishWrite_eq hok
  | pair rd rd2 f hd he hf =>
    obtain rfl := Host.Outcome.next.inj (hs.symm.trans (he s))
    obtain rfl := Host.Outcome.next.inj (hu.symm.trans (he u))
    rw [← hf.reads s u hagree, hd]
    exact ⟨response_finishWrite₂_eq s u rd rd2 _, fun hok r hr => reg_finishWrite₂_eq hok (by simpa using hr)⟩
  | answer f hd _ he hf =>
    obtain rfl := Host.Outcome.next.inj (hs.symm.trans (he s))
    obtain rfl := Host.Outcome.next.inj (hu.symm.trans (he u))
    rw [← hf.reads s u hagree, hd]
    exact ⟨response_finishRead_eq s u _, fun _ _ => nofun⟩
  | clrf hi =>
    subst hi
    cases hs
    cases hu
    exact ⟨rfl, fun _ _ => nofun⟩

/-- Settles O14. An ill-formed command takes IllegalCommand in both states. -/
theorem resultsDependOnTheOperandsOnly : Obligations.ResultsDependOnTheOperandsOnly := by
  intro i s u t v hregs hdata hrdcsr hs hu
  cases hwf : WellFormed i with
  | true => exact results_of_agree hwf ⟨hregs, fun _ => hdata, fun ⟨n, hn⟩ => absurd hn (hrdcsr n)⟩ hs hu
  | false =>
    cases hs.symm.trans (exec_of_ill_formed hwf s)
    cases hu.symm.trans (exec_of_ill_formed hwf u)
    exact ⟨rfl, fun h => absurd (congrArg Response.status (Option.some.inj h)) (code_ne_zero .illegalCommand)⟩

/-! ## The data word -/

theorem forgetData_finishWrite (s : State) (rd : Reg) (r : Except Cause Word) :
    (finishWrite s rd r).forgetData = finishWrite s.forgetData rd r := by cases r <;> rfl

theorem forgetData_finishWrite₂ (s : State) (rd rd2 : Reg) (r : Except Cause (Word × Word)) :
    (finishWrite₂ s rd rd2 r).forgetData = finishWrite₂ s.forgetData rd rd2 r := by cases r <;> rfl

theorem forgetData_finishRead (s : State) (r : Except Cause Word) :
    (finishRead s r).forgetData = finishRead s.forgetData r := by cases r <;> rfl

theorem forgetData_clearFault_complete (s : State) (w : Word) :
    ((clearFault s).complete w).forgetData = (clearFault s.forgetData).complete w := rfl

/-- A legal command takes states that differ in the data word only, and that it cannot tell apart, to such states. -/
theorem sameNext_of_agree (hwf : WellFormed i = true) (hagree : Agree i s u) (h : s.forgetData = u.forgetData) :
    sameNext (exec i s) (exec i u) := by
  cases exec_ends i hwf with
  | write rd f _ he hf =>
    exact ⟨_, _, he s, he u, by rw [forgetData_finishWrite, forgetData_finishWrite, h, hf.reads s u hagree]⟩
  | pair rd rd2 f _ he hf =>
    exact ⟨_, _, he s, he u, by rw [forgetData_finishWrite₂, forgetData_finishWrite₂, h, hf.reads s u hagree]⟩
  | answer f _ _ he hf =>
    exact ⟨_, _, he s, he u, by rw [forgetData_finishRead, forgetData_finishRead, h, hf.reads s u hagree]⟩
  | clrf hi =>
    subst hi
    exact ⟨_, _, rfl, rfl, by rw [forgetData_clearFault_complete, forgetData_clearFault_complete, h]⟩

theorem agree_latch (s : State) (cmd : CmdWord) (w w' : Word) (rest : List HostEvent) (hwrv : ∀ rd, i ≠ .wrv rd) :
    Agree i (s.latch cmd w rest) (s.latch cmd w' rest) where
  regs _ _ := rfl
  data h := absurd h.choose_spec (hwrv _)
  csrs _ _ := rfl

/-- Settles O13: only the words of WRV have its opcode, and the skip test and the decoder do not look at the data word. -/
theorem dataWordMattersToWrvOnly : Obligations.DataWordMattersToWrvOnly := by
  intro s cmd w w' rest hopcode
  have hskips : (s.latch cmd w rest).skips = (s.latch cmd w' rest).skips := rfl
  cases hskip : (s.latch cmd w rest).skips with
  | true =>
    exact ⟨_, _, step_of_skipped_command rfl hskip, step_of_skipped_command rfl (hskips ▸ hskip), rfl⟩
  | false =>
    cases hdecode : decode cmd with
    | error e =>
      have hillegal : ∀ i, decode cmd ≠ .ok i := fun i hi => nomatch hdecode.symm.trans hi
      exact ⟨_, _, step_of_illegal_command rfl hskip hillegal, step_of_illegal_command rfl (hskips ▸ hskip) hillegal, rfl⟩
    | ok i =>
      obtain ⟨hwf, hword⟩ := wellFormed_encode_of_decode hdecode
      have hwrv : ∀ rd, i ≠ .wrv rd := by
        rintro rd rfl
        exact hopcode (hword ▸ opcode_assemble ..)
      rw [step_of_run_command (s := { s with host := .command cmd w :: rest }) rfl hskip hdecode,
        step_of_run_command (s := { s with host := .command cmd w' :: rest }) rfl (hskips ▸ hskip) hdecode]
      exact sameNext_of_agree hwf (agree_latch s cmd w w' rest hwrv) rfl

end Sys2Proof.Machine
end

section
/-! PROOFS. The invariant of the step (spec/10_state.md R32, R34, spec/30_encoding.md R71, spec/60_exceptions.md R272, R279,
R280): fault entry is the only writer of the record, and it records a cause together with the word that can raise it. -/

namespace Sys2Proof.Machine

variable {i : Instr} {s t : State} {c : Cause}

/-- No command has a cause of its own that is not among the raisable ones (R272). -/
theorem mayRaise_subset_raisable (i : Instr) : mayRaise i ⊆ raisable := by
  cases i <;> simp [mayRaise, raisable]

theorem responseOk_of_ok {d : Word} (h : t.response = some ⟨0, d⟩) : responseOk t := fun r hr => by
  obtain rfl := Option.some.inj (h.symm.trans hr)
  exact .inl rfl

theorem responseOk_skipCommand (s : State) : responseOk (skipCommand s) := fun r hr => by
  obtain rfl := Option.some.inj hr
  exact .inr ⟨rfl, .inl rfl⟩

theorem responseOk_takeFault (hc : c ∈ raisable) (s : State) : responseOk (takeFault c s) := fun r hr => by
  obtain rfl := Option.some.inj hr
  exact .inr ⟨rfl, .inr ⟨c, hc, rfl⟩⟩

/-- The record survives whatever keeps FCMD, FCC and CAUSE and does not set F. -/
theorem recordOk_of_kept (hcause : statusCause t.status = statusCause s.status)
    (hf : statusF s.status = false → statusF t.status = false) (hfcmd : t.fcmd = s.fcmd) (hfcc : t.fcc = s.fcc)
    (h : recordOk s) : recordOk t := by
  rw [recordOk, hcause, hfcmd, hfcc]
  exact h.imp_left fun ⟨hc, hF, hw, hx⟩ => ⟨hc, hf hF, hw, hx⟩

/-- The reserved bits and the record depend on STATUS, FCMD and FCC only. -/
theorem inv_of_kept (hstatus : t.status = s.status) (hfcmd : t.fcmd = s.fcmd) (hfcc : t.fcc = s.fcc)
    (hresponse : responseOk t) (h : Inv s) : Inv t where
  reservedClear := hstatus ▸ h.reservedClear
  record := recordOk_of_kept (congrArg statusCause hstatus) (fun hF => hstatus ▸ hF) hfcmd hfcc h.record
  answer := hresponse

/-- Fault entry keeps the invariant when what it records belongs together. -/
theorem inv_takeFault (hc : c ∈ raisable)
    (hrecord : (c = .illegalCommand ∧ ∀ i, decode s.cmd ≠ .ok i) ∨ ∃ i, decode s.cmd = .ok i ∧ c ∈ mayRaise i)
    (h : statusRead s.status = s.status) : Inv (takeFault c s) where
  reservedClear := statusRead_setCause _ _ (statusRead_setF _ _ h)
  record := by
    rcases hrecord with ⟨rfl, hillegal⟩ | ⟨i, hdecode, hmay⟩
    · exact .inr (.inl ⟨statusCause_takeFault _ s, hillegal⟩)
    · exact .inr (.inr ⟨i, c, hdecode, hmay, statusCause_takeFault c s⟩)
  answer := responseOk_takeFault hc s

/-- A command that completes keeps the record; CLRF only clears F (R252). -/
theorem inv_of_completed (hdone : Completed i s t) (h : Inv s) : Inv t := by
  obtain ⟨d, hd, _⟩ := hdone.response
  rcases hdone.status with hkept | ⟨_, hcleared⟩
  · exact inv_of_kept hkept hdone.fcmd hdone.fcc (responseOk_of_ok hd) h
  · refine ⟨?_, recordOk_of_kept ?_ ?_ hdone.fcmd hdone.fcc h.record, responseOk_of_ok hd⟩ <;> rw [hcleared]
    · exact statusRead_setF _ _ h.reservedClear
    · exact statusCause_setF _ _
    · exact fun _ => statusF_setF _ _

/-- The latch is no part of the invariant. -/
theorem inv_latch (cmd : CmdWord) (w : Word) (rest : List HostEvent) (h : Inv s) : Inv (s.latch cmd w rest) :=
  inv_of_kept (s := s) rfl rfl rfl h.answer h

/-- The command that the latched word decodes to. -/
theorem inv_exec (hdecode : decode s.cmd = .ok i) (hexec : exec i s = .next t) (h : Inv s) : Inv t := by
  rcases exec_cases (wellFormed_encode_of_decode hdecode).1 s with ⟨c, he, hmay, _⟩ | ⟨t', he, hdone, _⟩ <;>
    obtain rfl := Host.Outcome.next.inj (hexec.symm.trans he)
  · exact inv_takeFault (mayRaise_subset_raisable i hmay) (.inr ⟨i, hdecode, hmay⟩) h.reservedClear
  · exact inv_of_completed hdone h

/-- Settles O20, by the cases of the step. -/
theorem everyStepKeepsTheInvariant : Obligations.EveryStepKeepsTheInvariant := by
  intro s t hinv hstep
  rcases step_cases s with ⟨_, he⟩ | ⟨rest, _, he⟩ | ⟨cmd, w, rest, _, ⟨_, he⟩ | ⟨_, i, hdecode, he⟩ | ⟨_, ⟨e, hdecode⟩, he⟩⟩
  · obtain rfl := Host.Outcome.next.inj (hstep.symm.trans he)
    exact hinv
  · obtain rfl := Host.Outcome.next.inj (hstep.symm.trans he)
    exact inv_hostReset _
  · obtain rfl := Host.Outcome.next.inj (hstep.symm.trans he)
    exact inv_of_kept (s := s.latch cmd w rest) rfl rfl rfl (responseOk_skipCommand _) (inv_latch cmd w rest hinv)
  · exact inv_exec (s := s.latch cmd w rest) hdecode (he.symm.trans hstep) (inv_latch cmd w rest hinv)
  · obtain rfl := Host.Outcome.next.inj (hstep.symm.trans he)
    exact inv_takeFault (by decide) (.inl ⟨rfl, fun i hi => nomatch hdecode.symm.trans hi⟩)
      (inv_latch cmd w rest hinv).reservedClear

end Sys2Proof.Machine
end
